-- ==== Sys2Proof/Word.lean ====
section
/-! DEFINITION. The word types of HUFFCORE and the named constants' plainest companions.
All values are unsigned (spec/00_scope.md section 5). -/

namespace Sys2Proof

/-- A 32-bit word: the host registers (R12 to R14), the magic word (R71), an I/O failure's word (R49). -/
abbrev Word := BitVec 32

/-- A byte of the stream under a channel (R41). -/
abbrev Byte := BitVec 8

/-- A bit string in transmission order, the first bit transmitted at the head (00_scope.md section 5). -/
abbrev Bits := List Bool

/-- The symbol field of a header leaf, 9 bits (SYM_W, R6). -/
abbrev Sym := BitVec 9

end Sys2Proof
end

