-- ==== Sys2Proof/Machine/Bits.lean ====
section
/-! DEFINITION. Bit and byte order (spec/20_memory.md R41): most significant bit first throughout. -/

namespace Sys2Proof

/-- The `n` low bits of `v`, most significant first: what `writeBits(n, v)` appends (R45). -/
def bitsOf : Nat → Nat → Bits
  | 0, _ => []
  | n + 1, v => v.testBit n :: bitsOf n v

/-- A bit string read as an unsigned integer, its first bit the most significant (R43). -/
def valOf : Bits → Nat
  | [] => 0
  | b :: r => b.toNat * 2 ^ r.length + valOf r

/-- Stream bit `i` of a byte stream: bit 7 - (i mod 8) of byte i / 8 (R41). Past the end: false (no rule reads there). -/
def streamBit (bytes : List Byte) (i : Nat) : Bool :=
  (bytes.getD (i / 8) 0).getLsbD (7 - i % 8)

/-- The `n` stream bits from position `pos` on (R43). -/
def streamBits (bytes : List Byte) : Nat → Nat → Bits
  | _, 0 => []
  | pos, n + 1 => streamBit bytes pos :: streamBits bytes (pos + 1) n

/-- The bit string a byte stream lays out (R41). -/
def bitsOfBytes : List Byte → Bits
  | [] => []
  | b :: r => bitsOf 8 b.toNat ++ bitsOfBytes r

/-- The byte stream of a bit string whose length is a multiple of 8 (R41); an incomplete last byte is left out. -/
def bytesOfBits : Bits → List Byte
  | b7 :: b6 :: b5 :: b4 :: b3 :: b2 :: b1 :: b0 :: r =>
    BitVec.ofNat 8 (valOf [b7, b6, b5, b4, b3, b2, b1, b0]) :: bytesOfBits r
  | _ => []

/-- How many pad bits bring a length to a multiple of 8: 0 to 7 (R48). -/
def padLen (n : Nat) : Nat := (8 - n % 8) % 8

end Sys2Proof
end

