-- ==== Sys2Proof/Config.lean ====
section
/-! DEFINITION. The implementation parameters (spec/00_scope.md R6, R7) and the free values the spec leaves open.
MAGIC and CNT_W are OPEN parameters (D5, D6): their defaults stand here, and a state carries the values it runs with. -/

namespace Sys2Proof.Config

/-- NSYM (R6): entries of the frequency table and of the code table. -/
abbrev nsym : Nat := 257

/-- EOD (R6): the end-of-data sentinel symbol. -/
abbrev eod : Nat := 256

/-- SYM_W (R6). -/
abbrev symW : Nat := 9

/-- BYTE_W (R6). -/
abbrev byteW : Nat := 8

/-- MAGIC_W (R6). -/
abbrev magicW : Nat := 32

/-- NODE_CAP (R7, D11): entries of the node arena. -/
abbrev nodeCap : Nat := 513

/-- STK_CAP (R7, D25): entries of the traversal stack. -/
abbrev stkCap : Nat := 513

/-- MAXLEN (R7): longest code, in bits. -/
abbrev maxLen : Nat := 256

/-- NIL (R7, D11) as the 10-bit index 0x3FF. The model writes "no node" as `none`; log 5. -/
abbrev nil : BitVec 10 := 0x3FF

/-- PLACEHOLDER_SYM (R7, D10). -/
abbrev placeholderSym : Sym := 0

/-- The default of the OPEN parameter MAGIC. PRESUMED (the spec's G1: from general knowledge): log 1, unsafe where a
claim rests on the value; no rule does. -/
abbrev defaultMagic : Word := 0xFACE8201

/-- The default of the parameter CNT_W (R7, D6); `none` stands for the unbounded instance. -/
abbrev defaultCntW : Option Nat := some 32

/-- Free value: the pad bits a `close()` draws (R48, D17, U4), by the draw's number and the bit's place. Log 11. -/
opaque freePad : Nat → Nat → Bool

/-- Free value: where a failed `readBits` or `reset` leaves the IN cursor (R49, U6), by the draw's number. Log 10. -/
opaque freePos : Nat → Nat

/-- Free value: the bits a failed `writeBits` or `close` leaves on OUT (R49, U6), by the draw's number. Log 10. -/
opaque freeBits : Nat → Bits

/-- Free value: the closed flag a failed `writeBits` or `close` leaves (R49, U6), by the draw's number. Log 10. -/
opaque freeClosed : Nat → Bool

/-- Free value: what a failed `writeBits` or `close` leaves of the byte stream under OUT (R49, U6). Log 10. -/
opaque freeDelivered : Nat → List Byte

end Sys2Proof.Config
end

