-- ==== Sys2Proof/Syntax.lean ====
section
/-! DEFINITION. The instructions of HUFFCORE, one constructor per row of spec/opcode_table.json (R90), the phases
(R16, R84), the fault causes (R210) and the host registers (R12 to R14). -/

namespace Sys2Proof

/-- The fourteen values PHASE takes (R16, R84); the codes 14 and 15 are never taken (log 7). -/
inductive Phase
  | idle | count | leaves | merge | derive | wmagic | ser | encode | close | rmagic | deser | decode | done | fault
  deriving DecidableEq, Repr

/-- The fault causes (R210); `eNone` is "no fault". -/
inductive Cause
  | eNone | eFormat | eHeader | eTrunc | eIo | eRsvsym | eTreeovf | eRootleaf | eCntovf | eNocode | eBadcmd
  deriving DecidableEq, Repr

/-- The host registers by name: CR0, CR1, CR2 (R12 to R14). -/
inductive CtrlReg
  | cmd | status | ioinfo
  deriving DecidableEq, Repr

/-- Where in the compressed stream a token stands (R89): the only thing that says what kind it is. -/
inductive TokenPos
  | magic | header | payload
  deriving DecidableEq, Repr

/-- The instructions: 4 stream tokens, 5 host commands, 21 micro-operations. -/
inductive Instr
  -- stream tokens (R71, R72, R73, R76)
  | magic (m : Word)
  | hdrInt
  | hdrLeaf (sym : Sym)
  | payBit (b : Bool)
  -- host commands (R82, R83)
  | nop
  | compress
  | decompress
  | clear
  | cmdRsvd (op : BitVec 3)
  -- micro-operations (R84)
  | cntByte
  | cntEnd
  | pqLeaf
  | pqScanEnd
  | pqWrap
  | pqRoot
  | pqMerge
  | tblStep
  | tblEnd
  | wrMagic
  | serInt
  | serLeaf
  | serEnd
  | encByte
  | encEod
  | close
  | rdMagic
  | desInt
  | desLeaf
  | desEnd
  | decBit
  deriving DecidableEq, Repr

/-- The three kinds of decodable unit (spec/30_encoding.md, opening). -/
inductive Kind
  | token | command | microOp
  deriving DecidableEq, Repr

def Instr.kind : Instr → Kind
  | .magic _ | .hdrInt | .hdrLeaf _ | .payBit _ => .token
  | .nop | .compress | .decompress | .clear | .cmdRsvd _ => .command
  | .cntByte | .cntEnd | .pqLeaf | .pqScanEnd | .pqWrap | .pqRoot | .pqMerge | .tblStep | .tblEnd | .wrMagic
  | .serInt | .serLeaf | .serEnd | .encByte | .encEod | .close | .rdMagic | .desInt | .desLeaf | .desEnd
  | .decBit => .microOp

end Sys2Proof
end

