-- ==== Sys2Proof/WellFormed.lean ====
section
/-! DEFINITION. Which instruction terms stand for something the format allows: a header leaf holds a Symbol
(R79: 257 to 511 are reserved) and a reserved command opcode has OP bit 2 set (R83, R90). -/

namespace Sys2Proof

def Instr.wellFormed : Instr → Bool
  | .hdrLeaf sym => sym.toNat ≤ Config.eod
  | .cmdRsvd op => op.getLsbD 2
  | .magic _ | .hdrInt | .payBit _ | .nop | .compress | .decompress | .clear
  | .cntByte | .cntEnd | .pqLeaf | .pqScanEnd | .pqWrap | .pqRoot | .pqMerge | .tblStep | .tblEnd | .wrMagic
  | .serInt | .serLeaf | .serEnd | .encByte | .encEod | .close | .rdMagic | .desInt | .desLeaf | .desEnd
  | .decBit => true

end Sys2Proof
end

