-- ==== Sys2Proof/Decode.lean ====
section
/-! DEFINITION. Encodings of the three kinds of instruction (spec/30_encoding.md) and their decoder: stream tokens by
their position and bits (R70 to R77, R89), host commands by the word written to CR0 (R82, R83), micro-operations by
PHASE and a condition (R84). The encoder stands after the decoder. -/

namespace Sys2Proof

/-! ## Codes of phases and causes -/

/-- The phase codes (R16, R84). -/
def Phase.code : Phase → BitVec 4
  | .idle => 0 | .count => 1 | .leaves => 2 | .merge => 3 | .derive => 4 | .wmagic => 5 | .ser => 6 | .encode => 7
  | .close => 8 | .rmagic => 9 | .deser => 10 | .decode => 11 | .done => 12 | .fault => 13

/-- The phase a code names; 14 and 15 name none (R84). -/
def Phase.ofCode (c : BitVec 4) : Option Phase :=
  match c.toNat with
  | 0 => some .idle | 1 => some .count | 2 => some .leaves | 3 => some .merge | 4 => some .derive | 5 => some .wmagic
  | 6 => some .ser | 7 => some .encode | 8 => some .close | 9 => some .rmagic | 10 => some .deser | 11 => some .decode
  | 12 => some .done | 13 => some .fault
  | _ => none

/-- The cause codes (R210). -/
def Cause.code : Cause → BitVec 4
  | .eNone => 0 | .eFormat => 1 | .eHeader => 2 | .eTrunc => 3 | .eIo => 4 | .eRsvsym => 5 | .eTreeovf => 6
  | .eRootleaf => 7 | .eCntovf => 8 | .eNocode => 9 | .eBadcmd => 10

/-! ## What a decoder is given -/

/-- What selects a micro-operation (R84): PHASE, the state its conditions speak of, and what the step's first read
returns (`some v` a value, `none` EOS; irrelevant in a phase that reads nothing first). -/
structure Selector where
  code : BitVec 4
  first : Option Nat
  scan : Nat
  nn : Nat
  qn : Nat
  sp : Nat
  topLeaf : Bool
  deriving DecidableEq, Repr

/-- The encoding of an instruction, in the form of its kind. -/
inductive Encoding
  | token (pos : TokenPos) (bits : Bits)
  | command (w : Word)
  | select (sel : Selector)
  deriving DecidableEq, Repr

/-- Why nothing is decoded. -/
inductive Rejected
  /-- The stream ends inside or before the token. -/
  | cutShort
  /-- P_IDLE, P_DONE and P_FAULT select no micro-operation (R204). -/
  | quiescent
  /-- The codes 14 and 15 are never taken (R84). -/
  | noSuchPhase
  /-- The phase has no row of R84 whose condition holds. -/
  | noRow
  deriving DecidableEq, Repr

/-! ## The decoder -/

/-- Formats M, N, L, P (R71, R72, R73, R76), read at the position `pos` (R89): the token and the bits after it. The
symbol field is 9 bits, most significant first, whatever its value (R74); the values 257 to 511 decode, and are refused
when the token is executed (R79). -/
def decodeToken : TokenPos → Bits → Except Rejected (Instr × Bits)
  | .magic, bits =>
    if bits.length < Config.magicW then .error .cutShort
    else .ok (.magic (BitVec.ofNat 32 (valOf (bits.take Config.magicW))), bits.drop Config.magicW)
  | .header, [] => .error .cutShort
  | .header, false :: r => .ok (.hdrInt, r)
  | .header, true :: r =>
    if r.length < Config.symW then .error .cutShort
    else .ok (.hdrLeaf (BitVec.ofNat 9 (valOf (r.take Config.symW))), r.drop Config.symW)
  | .payload, [] => .error .cutShort
  | .payload, b :: r => .ok (.payBit b, r)

/-- Format K (R82, R83): OP is bits 2:0, bits 31:3 are ignored. -/
def decodeCommand (w : Word) : Instr :=
  match (w.extractLsb' 0 3).toNat with
  | 0 => .nop
  | 1 => .compress
  | 2 => .decompress
  | 3 => .clear
  | _ => .cmdRsvd (w.extractLsb' 0 3)

/-- Format S (R84), row by row. -/
def selectOp (c : Selector) : Except Rejected Instr :=
  match Phase.ofCode c.code with
  | none => .error .noSuchPhase
  | some .idle | some .done | some .fault => .error .quiescent
  | some .count => .ok (if c.first.isSome then .cntByte else .cntEnd)
  | some .leaves =>
    if c.scan ≤ 256 then .ok .pqLeaf else if c.scan = 257 then .ok .pqScanEnd else .error .noRow
  | some .merge =>
    if 2 ≤ c.qn then .ok .pqMerge
    else if c.qn = 1 ∧ c.nn = 1 then .ok .pqWrap
    else if c.qn = 1 ∧ 1 < c.nn then .ok .pqRoot
    else .error .noRow
  | some .derive => .ok (if 0 < c.sp then .tblStep else .tblEnd)
  | some .wmagic => .ok .wrMagic
  | some .ser => .ok (if 0 < c.sp then (if c.topLeaf then .serLeaf else .serInt) else .serEnd)
  | some .encode => .ok (if c.first.isSome then .encByte else .encEod)
  | some .close => .ok .close
  | some .rmagic => .ok .rdMagic
  | some .deser =>
    .ok (if c.nn = 0 ∨ 0 < c.sp then (if c.first = some 1 then .desLeaf else .desInt) else .desEnd)
  | some .decode => .ok .decBit

/-- The decoder of all three kinds. -/
def decode : Encoding → Except Rejected Instr
  | .token pos bits =>
    match decodeToken pos bits with
    | .ok (i, _) => .ok i
    | .error e => .error e
  | .command w => .ok (decodeCommand w)
  | .select sel => selectOp sel

/-- The width of the step's first read in the phases whose selection depends on it (R84, R200). -/
def Phase.firstRead : Phase → Nat
  | .count | .encode => 8
  | .deser => 1
  | .idle | .leaves | .merge | .derive | .wmagic | .ser | .close | .rmagic | .decode | .done | .fault => 0

/-! ## The encoder -/

/-- The bits of a stream token (R71, R72, R73, R76); nothing for the other kinds. -/
def tokenBits : Instr → Bits
  | .magic m => bitsOf Config.magicW m.toNat
  | .hdrInt => [false]
  | .hdrLeaf sym => true :: bitsOf Config.symW sym.toNat
  | .payBit b => [b]
  | _ => []

/-- The command word with the ignored bits 31:3 zero (R82); 0 for the other kinds. -/
def commandWord : Instr → Word
  | .compress => 1
  | .decompress => 2
  | .clear => 3
  | .cmdRsvd op => op.setWidth 32
  | _ => 0

/-- A selector of a phase, everything else zero. -/
def selectorOf (p : Phase) : Selector :=
  { code := p.code, first := none, scan := 0, nn := 0, qn := 0, sp := 0, topLeaf := false }

/-- The encoding of an instruction. A micro-operation's is its PHASE code with the least values that meet its
condition (R84). -/
def encode : Instr → Encoding
  | .magic m => .token .magic (tokenBits (.magic m))
  | .hdrInt => .token .header (tokenBits .hdrInt)
  | .hdrLeaf sym => .token .header (tokenBits (.hdrLeaf sym))
  | .payBit b => .token .payload (tokenBits (.payBit b))
  | .nop => .command (commandWord .nop)
  | .compress => .command (commandWord .compress)
  | .decompress => .command (commandWord .decompress)
  | .clear => .command (commandWord .clear)
  | .cmdRsvd op => .command (commandWord (.cmdRsvd op))
  | .cntByte => .select { selectorOf .count with first := some 0 }
  | .cntEnd => .select (selectorOf .count)
  | .pqLeaf => .select (selectorOf .leaves)
  | .pqScanEnd => .select { selectorOf .leaves with scan := 257 }
  | .pqWrap => .select { selectorOf .merge with qn := 1, nn := 1 }
  | .pqRoot => .select { selectorOf .merge with qn := 1, nn := 2 }
  | .pqMerge => .select { selectorOf .merge with qn := 2, nn := 2 }
  | .tblStep => .select { selectorOf .derive with sp := 1 }
  | .tblEnd => .select (selectorOf .derive)
  | .wrMagic => .select (selectorOf .wmagic)
  | .serInt => .select { selectorOf .ser with sp := 1 }
  | .serLeaf => .select { selectorOf .ser with sp := 1, topLeaf := true }
  | .serEnd => .select (selectorOf .ser)
  | .encByte => .select { selectorOf .encode with first := some 0 }
  | .encEod => .select (selectorOf .encode)
  | .close => .select (selectorOf .close)
  | .rdMagic => .select (selectorOf .rmagic)
  | .desInt => .select { selectorOf .deser with first := some 0 }
  | .desLeaf => .select { selectorOf .deser with first := some 1 }
  | .desEnd => .select { selectorOf .deser with nn := 1 }
  | .decBit => .select (selectorOf .decode)

/-! ## The opcode table's words -/

/-- The encoding a word of the opcode table stands for, by its width (log 20). 32 bits: the magic word, the one row of
that width. 16 bits: a header token, the pattern `1sssssssss` read as a number. 8 bits: the table gives host commands 3
bits and micro-operations 4, so a byte may be either; the values 0 to 4, the `match` values of the five command rows,
are read as commands, and 5 to 15 as PHASE codes, with the least condition the phase has. -/
def tableEncoding (nbits w : Nat) : Option Encoding :=
  if nbits = 32 then some (.token .magic (bitsOf 32 w))
  else if nbits = 16 then some (.token .header (bitsOf 10 w))
  else if nbits = 8 then
    if w ≤ 4 then some (.command (BitVec.ofNat 32 w))
    else if w < 16 then
      some (.select { code := BitVec.ofNat 4 w, first := some 0, scan := 0, nn := 1, qn := 1, sp := 1, topLeaf := false })
    else none
  else none

/-- The instruction the decoder reads from a word of the opcode table. -/
def decodeTableWord (nbits w : Nat) : Option Instr :=
  match tableEncoding nbits w with
  | none => none
  | some e =>
    match decode e with
    | .ok i => some i
    | .error _ => none

end Sys2Proof
end

