-- ==== Sys2Proof/Machine/State.lean ====
section
/-! DEFINITION. The state of HUFFCORE (spec/10_state.md R10 to R25), the collaborator's reference model beside it
(spec/20_memory.md R42, R45; D30), the ways a step can stop, and the state after reset. -/

namespace Sys2Proof.Machine

/-- An entry of the node arena (R20). A leaf has no children (LEFT = RIGHT = NIL); an internal node has no symbol and
its children are `none` (NIL) until they are set. `inq`: in the priority structure (R18). -/
inductive Node
  | leaf (sym : Sym) (wgt : Nat) (inq : Bool)
  | inner (wgt : Nat) (left right : Option Nat) (inq : Bool)
  deriving DecidableEq, Repr

/-- An entry of the code table (R22): LEN 0 is "no code"; BITS holds the code right-aligned in its LEN low bits. -/
structure Code where
  len : Nat
  bits : BitVec 256
  deriving DecidableEq, Repr

/-- "This symbol has no code" (R22), and what command start writes (R196). -/
abbrev Code.empty : Code := { len := 0, bits := 0 }

/-- An entry of the traversal stack (R23): N, and LEN with BITS where the push wrote them. -/
structure StkEntry where
  n : Option Nat
  code : Option Code
  deriving DecidableEq, Repr

/-- The read side (R42): S as its byte stream, pos in bits. `again`: the bytes pass two sees if the collaborator breaks
R58 (U9); `none` where it returns the same bytes (R47). -/
structure InChan where
  bytes : List Byte
  pos : Nat
  again : Option (List Byte)
  deriving DecidableEq, Repr

/-- The write side (R45): T and the closed flag; `delivered` is the byte stream `close()` handed on (R48). -/
structure OutChan where
  bits : Bits
  closed : Bool
  delivered : List Byte
  deriving DecidableEq, Repr

/-- What the collaborator does with a call (R49, R50): serve it, fail it with a word, or never return. -/
inductive Answer
  | ok
  | ioerr (info : Word)
  | never
  deriving DecidableEq, Repr

/-- What moves next (log 12): the core, or one act of the host or of the platform's reset line. -/
inductive Move
  | core
  | write (r : CtrlReg) (w : Word)
  | read (r : CtrlReg)
  | reset
  | attachIn (bytes : List Byte) (pos : Nat) (again : Option (List Byte))
  | attachOut
  deriving DecidableEq, Repr

/-- The open parameters (R7): MAGIC and CNT_W (`none` = unbounded). No step changes them (R250). -/
structure Params where
  magic : Word
  cntW : Option Nat
  deriving DecidableEq, Repr

/-- Why the machine stops with a fault. None is a fault of the spec: those are next states (R220). Each says that a
state no run reaches was entered (R11, U14, U15); all are safe. -/
inductive Fault
  /-- Raised by a read of a NODE entry at or above NN or never written (R11, U15). Safe. -/
  | unwrittenNode
  /-- Raised by a read through an index that is NIL (R20, R177: no rule reads one). Safe. -/
  | nilIndex
  /-- Raised by a pop, or a look at the top, of an empty stack or of an entry never written (R11, U15). Safe. -/
  | unwrittenStk
  /-- Raised by a read of LEN and BITS of a stack entry pushed with N only (R23: unused fields hold no value). Safe. -/
  | unwrittenCode
  /-- Raised by an access to a table entry that does not exist: FREQ or CODE above 256, NODE or STK above 512 (R19, R20,
  R22, R23). Safe. -/
  | noSuchEntry
  /-- Raised by a code that would be longer than MAXLEN (R8, R126: it cannot be). Safe. -/
  | codeTooLong
  /-- Raised by removeMin when the priority structure is empty (R112: defined when QN >= 1). Safe. -/
  | emptyQueue
  /-- Raised by a store of a child into a leaf (R143: attach meets internal nodes only). Safe. -/
  | childOfLeaf
  /-- Raised by the sequencer when no row of R84 holds for the phase (U14). Safe. -/
  | noEnabledRow
  deriving DecidableEq, Repr

/-- Why an instruction or a move is given no meaning. -/
inductive Refusal
  /-- An arm of exec without a meaning. Safe. -/
  | notModelled (mnemonic : String)
  /-- Raised by a micro-operation whose first read contradicts its selecting condition, and by a stream token that does
  not stand at the cursor: the sequencer never executes either (R84, R89, R200). Safe. -/
  | notSelected
  /-- Raised by a host move on the channels while BUSY: the spec gives the host no such move (R246, U9). Safe. -/
  | channelWhileBusy
  deriving DecidableEq, Repr

/-- The machine: core state (R10), the collaborator (R42, R45), the open parameters (R7), and the model's own fields. -/
structure State where
  -- the core (R10)
  phase : Phase
  errcode : Cause
  ioinfo : Word
  nn : Nat
  qn : Nat
  root : Option Nat
  cur : Option Nat
  scan : Nat
  sp : Nat
  freq : List (Nat × Nat)
  node : List (Nat × Node)
  code : List (Nat × Code)
  stk : List (Nat × StkEntry)
  -- the collaborator (R42, R45, R49)
  inp : InChan
  out : OutChan
  answers : List Answer
  -- the open parameters (R7)
  par : Params
  -- the model's own: a call is pending (R50), free values drawn, the host's moves and what it last read
  waiting : Bool
  draws : Nat
  moves : List Move
  hostSaw : Option Word
  deriving DecidableEq, Repr

/-- Right after a hardware reset (R25, R240). PHASE, ERRCODE and IOINFO are the spec's; the working registers and the
tables, which the spec gives no value, are the model's choice (log 3, log 4), and so are the channels (log 8). -/
def State.reset : State where
  phase := .idle
  errcode := .eNone
  ioinfo := 0
  nn := 0
  qn := 0
  root := none
  cur := none
  scan := 0
  sp := 0
  freq := []
  node := []
  code := []
  stk := []
  inp := { bytes := [], pos := 0, again := none }
  out := { bits := [], closed := false, delivered := [] }
  answers := []
  par := { magic := Config.defaultMagic, cntW := Config.defaultCntW }
  waiting := false
  draws := 0
  moves := []
  hostSaw := none

/-- What a step or a meaning answers. -/
abbrev Result := Host.Outcome State Fault Refusal

end Sys2Proof.Machine
end

