-- ==== Sys2Proof/Machine/Flags.lean ====
section
/-! DEFINITION. The one-bit pieces of state and the host-visible registers (spec/10_state.md R12 to R18). BUSY, DONE and
ERR are functions of PHASE; there are no condition codes. -/

namespace Sys2Proof.Machine

/-- STATUS.BUSY: 1 <= PHASE <= 11 (R13). -/
def State.busy (s : State) : Bool :=
  match s.phase with
  | .idle | .done | .fault => false
  | .count | .leaves | .merge | .derive | .wmagic | .ser | .encode | .close | .rmagic | .deser | .decode => true

/-- STATUS.DONE (R13). -/
def State.doneBit (s : State) : Bool := s.phase == .done

/-- STATUS.ERR (R13). -/
def State.errBit (s : State) : Bool := s.phase == .fault

/-- CR1 STATUS (R13): bits 31:12 zero, PHASE, ERRCODE, a zero, ERR, DONE, BUSY. -/
def State.statusWord (s : State) : Word :=
  (0 : BitVec 20) ++ s.phase.code ++ s.errcode.code ++ (0 : BitVec 1) ++ BitVec.ofBool s.errBit
    ++ BitVec.ofBool s.doneBit ++ BitVec.ofBool s.busy

/-- A host read (R12 to R15): CR0 reads 0, CR1 is STATUS, CR2 is IOINFO. -/
def State.readReg (s : State) : CtrlReg → Word
  | .cmd => 0
  | .status => s.statusWord
  | .ioinfo => s.ioinfo

/-- NODE[i].KIND: 1 for a leaf (R18, R20). -/
def Node.kindBit : Node → Bool
  | .leaf .. => true
  | .inner .. => false

/-- NODE[i].INQ (R18). -/
def Node.inq : Node → Bool
  | .leaf _ _ q => q
  | .inner _ _ _ q => q

/-- NODE[i].INQ <- q. -/
def Node.setInq (q : Bool) : Node → Node
  | .leaf sym w _ => .leaf sym w q
  | .inner w l r _ => .inner w l r q

end Sys2Proof.Machine
end

