-- ==== Sys2Proof/Machine/Tables.lean ====
section
/-! DEFINITION. Tables as plain data: a list of (index, entry) pairs with strictly rising indices. The model holds
FREQ, CODE, NODE and STK so (spec/10_state.md R19, R20, R22, R23); equal tables are equal lists. -/

namespace Sys2Proof

/-- A table: (index, entry) pairs. -/
abbrev Table (α : Type) := List (Nat × α)

/-- Entry `i`, or `none` where nothing is listed. -/
def Table.get? {α : Type} : Table α → Nat → Option α
  | [], _ => none
  | (k, v) :: r, i => if k = i then some v else Table.get? r i

/-- Entry `i` replaced or inserted in its place. -/
def Table.set {α : Type} : Table α → Nat → α → Table α
  | [], i, x => [(i, x)]
  | (k, v) :: r, i, x =>
    if i < k then (i, x) :: (k, v) :: r
    else if i = k then (i, x) :: r
    else (k, v) :: Table.set r i x

/-- Entry `i` taken out. -/
def Table.erase {α : Type} : Table α → Nat → Table α
  | [], _ => []
  | (k, v) :: r, i => if i = k then r else (k, v) :: Table.erase r i

/-- Entry `i` of a table whose unlisted entries read as `d`. -/
def Table.getD {α : Type} (t : Table α) (d : α) (i : Nat) : α := (Table.get? t i).getD d

/-- Entry `i` written in a table whose unlisted entries read as `d`: writing `d` takes the entry out. -/
def Table.put {α : Type} [DecidableEq α] (t : Table α) (d : α) (i : Nat) (x : α) : Table α :=
  if x = d then Table.erase t i else Table.set t i x

/-- The indices rise strictly. -/
def Table.sorted {α : Type} : Table α → Bool
  | [] => true
  | (k, _) :: r => r.all (fun e => k < e.1) && Table.sorted r

/-- The canonical form of a table of `cap` entries without a default: strictly rising indices below `cap`. -/
def Table.wf {α : Type} (cap : Nat) (t : Table α) : Bool :=
  Table.sorted t && t.all (fun e => e.1 < cap)

/-- The canonical form of a table of `cap` entries with the default `d`: besides, no entry equal to `d` is listed. -/
def Table.wfD {α : Type} [DecidableEq α] (cap : Nat) (d : α) (t : Table α) : Bool :=
  Table.wf cap t && t.all (fun e => decide (e.2 ≠ d))

end Sys2Proof
end

