-- ==== Sys2Proof/Machine/Operands.lean ====
section
/-! DEFINITION. Reading what micro-operations work on: table entries, the stack's top, the stream at the cursor, and the
facts the sequencer selects by (spec/10_state.md R11, R19 to R23; spec/20_memory.md R43; spec/30_encoding.md R84, R89). -/

namespace Sys2Proof.Machine

/-- NODE[i].WGT. -/
def Node.wgt : Node → Nat
  | .leaf _ w _ => w
  | .inner w _ _ _ => w

/-- NODE[i].LEFT; NIL in a leaf (R20). -/
def Node.left : Node → Option Nat
  | .leaf .. => none
  | .inner _ l _ _ => l

/-- NODE[i].RIGHT; NIL in a leaf (R20). -/
def Node.right : Node → Option Nat
  | .leaf .. => none
  | .inner _ _ r _ => r

/-- The 10-bit word of a node index, NIL being 0x3FF (R7, D11). -/
def idxWord : Option Nat → BitVec 10
  | none => Config.nil
  | some i => BitVec.ofNat 10 i

/-- FREQ[i] (R19). -/
def State.freqAt (s : State) (i : Nat) : Nat := Table.getD s.freq 0 i

/-- CODE[i] (R22). -/
def State.codeAt (s : State) (i : Nat) : Code := Table.getD s.code Code.empty i

/-- NODE[i] where it holds a value: allocated since command start (R11). -/
def State.nodeAt (s : State) (i : Nat) : Option Node :=
  if i < s.nn then Table.get? s.node i else none

/-- Read NODE[i] and go on with it. -/
def withNode (i : Option Nat) (s : State) (k : Nat → Node → Result) : Result :=
  match i with
  | none => .fault .nilIndex
  | some j =>
    match s.nodeAt j with
    | none => .fault .unwrittenNode
    | some nd => k j nd

/-- STK[SP-1], where it holds a value (R11, R23). -/
def State.top (s : State) : Option StkEntry :=
  match s.sp with
  | 0 => none
  | p + 1 => Table.get? s.stk p

/-- `NODE[STK[SP-1].N].KIND == 1` (R84). -/
def State.topLeaf (s : State) : Bool :=
  match s.top with
  | none => false
  | some e =>
    match e.n with
    | none => false
    | some i =>
      match s.nodeAt i with
      | none => false
      | some nd => nd.kindBit

/-- |S| in bits (R42). -/
def InChan.len (c : InChan) : Nat := 8 * c.bytes.length

/-- `n` bits remain (R43, R44). -/
def InChan.has (c : InChan) (n : Nat) : Prop := c.pos + n ≤ c.len

/-- The next `n` bits. -/
def InChan.next (c : InChan) (n : Nat) : Bits := streamBits c.bytes c.pos n

/-- Everything from the cursor to the end of the stream. -/
def InChan.rest (c : InChan) : Bits := c.next (c.len - c.pos)

/-- What the collaborator does with the next call; with nothing listed it serves it (log 9). -/
def State.answer (s : State) : Answer := s.answers.headD .ok

/-- What the step's first read, of `n` bits, returns: a value, or `none` for EOS. Where the call fails or never returns,
the micro-operations it could select do the same; a value is answered (log 18). -/
def State.peek (s : State) (n : Nat) : Option Nat :=
  match s.answer with
  | .ok => if s.inp.pos + n ≤ s.inp.len then some (valOf (s.inp.next n)) else none
  | .ioerr _ | .never => some 0

/-- What the sequencer selects by (R84). -/
def State.selector (s : State) : Selector :=
  { code := s.phase.code, first := s.peek s.phase.firstRead, scan := s.scan, nn := s.nn, qn := s.qn, sp := s.sp,
    topLeaf := s.topLeaf }

/-- The kind of token the decoder reads next, by its position (R89). -/
def State.tokenPos (s : State) : Option TokenPos :=
  match s.phase with
  | .rmagic => some .magic
  | .deser => if s.nn = 0 ∨ 0 < s.sp then some .header else none
  | .decode => some .payload
  | .idle | .count | .leaves | .merge | .derive | .wmagic | .ser | .encode | .close | .done | .fault => none

/-- At most `n` of the bits from the cursor on. -/
def InChan.ahead (c : InChan) (n : Nat) : Bits := c.next (min n (c.len - c.pos))

/-- The stream token at the cursor (R89); no token is longer than the magic word. -/
def State.tokenAt (s : State) : Option Instr :=
  match s.tokenPos with
  | none => none
  | some pos =>
    match decode (.token pos (s.inp.ahead Config.magicW)) with
    | .ok i => some i
    | .error _ => none

end Sys2Proof.Machine
end

