-- ==== Sys2Proof/Machine/Ops.lean ====
section
/-! DEFINITION. The shared operations: named updates of State, fault entry (spec/60_exceptions.md R220), the four channel
calls (spec/20_memory.md R43 to R49), the stack (00_scope.md section 5), the node arena (R20), removeMin (R112), attach
(R140), command start (R196), CLEAR's return to P_IDLE (R201) and the hardware reset (R240). An operation that goes on
takes what comes after it as `k`, so that a meaning reads like the rule's pseudocode. -/

namespace Sys2Proof.Machine

/-! ## Named updates -/

/-- PHASE <- p. -/
def State.enter (s : State) (p : Phase) : State := { s with phase := p }

/-- FREQ[i] <- v. -/
def State.setFreq (s : State) (i v : Nat) : State := { s with freq := Table.put s.freq 0 i v }

/-- CODE[i] <- c. -/
def State.setCode (s : State) (i : Nat) (c : Code) : State := { s with code := Table.put s.code Code.empty i c }

/-- NODE[i] <- nd. -/
def State.setNode (s : State) (i : Nat) (nd : Node) : State := { s with node := Table.set s.node i nd }

/-- The next call's answer is used up. -/
def State.called (s : State) : State := { s with answers := s.answers.tail }

/-- pos moves on by `n`. -/
def State.advance (s : State) (n : Nat) : State := { s with inp := { s.inp with pos := s.inp.pos + n } }

/-- T grows by `bs`. -/
def State.append (s : State) (bs : Bits) : State := { s with out := { s.out with bits := s.out.bits ++ bs } }

/-! ## Faults -/

/-- Fault entry (R220): ERRCODE, IOINFO for E_IO only, PHASE <- P_FAULT; nothing else changes. -/
def raise (c : Cause) (info : Word) (s : State) : Result :=
  .next { s with errcode := c, ioinfo := if c = .eIo then info else s.ioinfo, phase := .fault }

/-- The way back from P_FAULT or P_DONE to P_IDLE (R201, R225): nothing is restored. -/
def toIdle (s : State) : State := { s with phase := .idle, errcode := .eNone, ioinfo := 0 }

/-! ## Channel calls -/

/-- A call that never returns (R50): the core stays inside it. DESIGN CHOICE, unsafe, log 14: the pending call has done
nothing to its channel, so pos, T and the closed flag stay as before it, also where a hardware reset ends the wait and
R248 lets OUT hold any prefix. -/
def block (s : State) : Result := .next { s with waiting := true }

/-- A failed read or rewind leaves the cursor anywhere in the stream (R49, U6; R42: 0 <= pos <= |S|). -/
def State.lostIn (s : State) : State :=
  { s with inp := { s.inp with pos := Config.freePos s.draws % (s.inp.len + 1) }, draws := s.draws + 1 }

/-- A failed write or close leaves anything on OUT (R49, U6). -/
def State.lostOut (s : State) : State :=
  { s with
    out := { bits := Config.freeBits s.draws, closed := Config.freeClosed s.draws,
             delivered := Config.freeDelivered s.draws }
    draws := s.draws + 1 }

/-- `MemRead(IN, n)` (R43, R44, R49, R50): `k` gets the value, or `none` for EOS. -/
def memRead (n : Nat) (s : State) (k : Option Nat → State → Result) : Result :=
  match s.answer with
  | .ok =>
    if s.inp.pos + n ≤ s.inp.len then k (some (valOf (s.inp.next n))) (s.called.advance n)
    else k none s.called
  | .ioerr info => raise .eIo info s.called.lostIn
  | .never => block s.called

/-- `MemWrite(OUT, n, v)` (R45, R49, R50). -/
def memWrite (n v : Nat) (s : State) (k : State → Result) : Result :=
  match s.answer with
  | .ok => k (s.called.append (bitsOf n v))
  | .ioerr info => raise .eIo info s.called.lostOut
  | .never => block s.called

/-- IN after `reset()` (R47): pos 0, the same bytes unless the collaborator breaks R58 (log 16). -/
def InChan.rewound (c : InChan) : InChan :=
  { bytes := c.again.getD c.bytes, pos := 0, again := none }

/-- `Rewind(IN)` (R47, R49, R50). -/
def rewind (s : State) (k : State → Result) : Result :=
  match s.answer with
  | .ok => k { s.called with inp := s.inp.rewound }
  | .ioerr info => raise .eIo info s.called.lostIn
  | .never => block s.called

/-- The pad bits of draw `d` for a T of `len` bits: 0 to 7 free bits that reach a byte boundary (R48, D17). -/
def padBits (d len : Nat) : Bits := (List.range (padLen len)).map (Config.freePad d)

/-- OUT after `close()` (R48): T stays, the flag is set, T and the pad are delivered. DESIGN CHOICE, unsafe, log 26: where
OUT was closed already, the whole T with a new pad takes the place of what was delivered earlier. -/
def OutChan.flushed (c : OutChan) (d : Nat) : OutChan :=
  { bits := c.bits, closed := true, delivered := bytesOfBits (c.bits ++ padBits d c.bits.length) }

/-- `Close(OUT)` (R48, R49, R50). -/
def closeOut (s : State) (k : State → Result) : Result :=
  match s.answer with
  | .ok => k { s.called with out := s.out.flushed s.draws, draws := s.draws + 1 }
  | .ioerr info => raise .eIo info s.called.lostOut
  | .never => block s.called

/-! ## The stack -/

/-- `push(e)`: STK[SP] <- e, SP <- SP + 1 (00_scope.md section 5). There is no STK[513] (R23). -/
def push (e : StkEntry) (s : State) (k : State → Result) : Result :=
  if s.sp < Config.stkCap then k { s with stk := Table.set s.stk s.sp e, sp := s.sp + 1 }
  else .fault .noSuchEntry

/-- `pop()`: SP <- SP - 1, return STK[SP]. -/
def pop (s : State) (k : StkEntry → State → Result) : Result :=
  match s.top with
  | none => .fault .unwrittenStk
  | some e => k e { s with sp := s.sp - 1 }

/-! ## The node arena -/

/-- NODE[NN] <- nd, NN <- NN + 1 (R20); `k` gets the new index. There is no NODE[513]. -/
def alloc (nd : Node) (s : State) (k : Nat → State → Result) : Result :=
  if s.nn < Config.nodeCap then k s.nn { s with node := Table.set s.node s.nn nd, nn := s.nn + 1 }
  else .fault .noSuchEntry

/-- The least (WGT, index) among the entries below `nn` with INQ == 1 (R112). -/
def minInq (nn : Nat) : List (Nat × Node) → Option (Nat × Node)
  | [] => none
  | (i, nd) :: r =>
    match minInq nn r with
    | none => if i < nn ∧ nd.inq = true then some (i, nd) else none
    | some (j, md) =>
      if i < nn ∧ nd.inq = true ∧ (nd.wgt < md.wgt ∨ nd.wgt = md.wgt ∧ i < j) then some (i, nd) else some (j, md)

/-- `removeMin()` (R112): INQ of the minimum cleared, QN <- QN - 1; `k` gets its index and the node as it was. -/
def removeMin (s : State) (k : Nat → Node → State → Result) : Result :=
  if s.qn = 0 then .fault .emptyQueue
  else
    match minInq s.nn s.node with
    | none => .fault .emptyQueue
    | some (i, nd) => k i nd { s.setNode i (nd.setInq false) with qn := s.qn - 1 }

/-- `attach(n)` (R140): as the root, or as the first missing child of the innermost open node. -/
def attach (n : Nat) (s : State) (k : State → Result) : Result :=
  if s.sp = 0 then k { s with root := some n }
  else
    match s.top with
    | none => .fault .unwrittenStk
    | some e =>
      withNode e.n s fun p nd =>
        match nd with
        | .leaf .. => .fault .childOfLeaf
        | .inner w l r q =>
          if l = none then k (s.setNode p (.inner w (some n) r q)) else k (s.setNode p (.inner w l (some n) q))

/-- `while SP > 0 and NODE[STK[SP-1].N].RIGHT != NIL do pop()` (R142, R143), with SP == `p` at the start. -/
def popComplete : Nat → State → (State → Result) → Result
  | 0, s, k => k { s with sp := 0 }
  | p + 1, s, k =>
    match Table.get? s.stk p with
    | none => .fault .unwrittenStk
    | some e =>
      withNode e.n s fun _ nd =>
        if nd.right = none then k { s with sp := p + 1 } else popComplete p s k

/-- The code of a child (R126): LEN + 1, the descent bit appended as the new least significant bit. -/
def Code.descend (c : Code) (right : Bool) : Code :=
  { len := c.len + 1, bits := (c.bits <<< 1) ||| (if right then 1 else 0) }

/-- A frequency counter is at its maximum 2^CNT_W - 1 (R101); never where CNT_W is unbounded (R7). -/
def Params.isFull (p : Params) (v : Nat) : Bool :=
  match p.cntW with
  | none => false
  | some w => v == 2 ^ w - 1

/-! ## Commands and reset -/

/-- A command is carried out only while BUSY == 0; otherwise the write is dropped (R195, R203). -/
def accept (s : State) (k : Result) : Result := if s.busy then .next s else k

/-- Command start (R196) and the entry phase (R198, R199). NODE and STK are not cleared. -/
def commandStart (p : Phase) (s : State) : State :=
  { s with
    errcode := .eNone, ioinfo := 0, freq := [], code := [], nn := 0, qn := 0, scan := 0, sp := 0,
    root := none, cur := none, phase := p }

/-- The hardware reset (R240, R25): the core as in `State.reset`, no call pending any more; the channels, the
parameters and the other agents are not touched (what a pending call had done to its channel: log 14). -/
def hardReset (s : State) : State :=
  { s with
    phase := .idle, errcode := .eNone, ioinfo := 0, nn := 0, qn := 0, root := none, cur := none, scan := 0, sp := 0,
    freq := [], node := [], code := [], stk := [], waiting := false }

end Sys2Proof.Machine
end

