-- ==== Sys2Proof/Machine/Build.lean ====
section
/-! DEFINITION. The priority-queue tree builder, phases P_LEAVES and P_MERGE (spec/41_tree_build.md). -/

namespace Sys2Proof.Machine

/-- PQ.LEAF (R111): a leaf for the symbol SCAN if it occurs; SCAN + 1. -/
def execPqLeaf (s : State) : Result :=
  if s.scan < Config.nsym then
    if 0 < s.freqAt s.scan then
      alloc (.leaf (BitVec.ofNat 9 s.scan) (s.freqAt s.scan) true) s fun _ t =>
        .next { t with qn := t.qn + 1, scan := t.scan + 1 }
    else .next { s with scan := s.scan + 1 }
  else .fault .noSuchEntry

/-- PQ.SCANEND (R117): PHASE <- P_MERGE. -/
def execPqScanEnd (s : State) : Result := .next (s.enter .merge)

/-- PQ.MERGE (R113): the two least nodes become the children of a new one, the first removed on the left. -/
def execPqMerge (s : State) : Result :=
  removeMin s fun a na t =>
    removeMin t fun b nb u =>
      alloc (.inner (na.wgt + nb.wgt) (some a) (some b) true) u fun _ v =>
        .next { v with qn := v.qn + 1 }

/-- PQ.WRAP (R115): the lone leaf on the left of a synthetic node, the placeholder leaf on its right. -/
def execPqWrap (s : State) : Result :=
  withNode (some 0) s fun _ n0 =>
    .next
      { ((s.setNode 0 (n0.setInq false)).setNode 1 (.leaf Config.placeholderSym 0 false)).setNode 2
          (.inner (n0.wgt + 0) (some 0) (some 1) true) with
        nn := 3 }

/-- PQ.ROOT (R114): the last node is the root; it is pushed with the empty code; PHASE <- P_DERIVE. -/
def execPqRoot (s : State) : Result :=
  removeMin s fun r _ t =>
    push { n := some r, code := some Code.empty } { t with root := some r } fun u =>
      .next (u.enter .derive)

end Sys2Proof.Machine
end

