-- ==== Sys2Proof/Machine/Command.lean ====
section
/-! DEFINITION. The host commands (spec/47_host_commands.md R195 to R203). -/

namespace Sys2Proof.Machine

/-- NOP (R197): no state changes, busy or not. -/
def execNop (s : State) : Result := accept s (.next s)

/-- COMPRESS (R198): command start, PHASE <- P_COUNT. -/
def execCompress (s : State) : Result := accept s (.next (commandStart .count s))

/-- DECOMPRESS (R199): command start, PHASE <- P_RMAGIC. -/
def execDecompress (s : State) : Result := accept s (.next (commandStart .rmagic s))

/-- CLEAR (R201): PHASE <- P_IDLE, ERRCODE <- 0, IOINFO <- 0. -/
def execClear (s : State) : Result := accept s (.next (toIdle s))

/-- The reserved opcodes 4 to 7 (R202): raise E_BADCMD, whatever the opcode. -/
def execCmdRsvd (_op : BitVec 3) (s : State) : Result := accept s (raise .eBadcmd 0 s)

end Sys2Proof.Machine
end

