-- ==== Sys2Proof/Machine/Compress.lean ====
section
/-! DEFINITION. The compressor: magic write, code-table lookup and payload encode, close (spec/44_compressor.md). -/

namespace Sys2Proof.Machine

/-- WR.MAGIC (R156): the magic word, then the root is pushed; PHASE <- P_SER. -/
def execWrMagic (s : State) : Result :=
  memWrite Config.magicW s.par.magic.toNat s fun t =>
    push { n := t.root, code := none } t fun u => .next (u.enter .ser)

/-- ENC.BYTE (R158): one byte's code; E_NOCODE if it has none (R159). -/
def execEncByte (s : State) : Result :=
  memRead Config.byteW s fun got t =>
    match got with
    | none => .refused .notSelected
    | some v =>
      if (t.codeAt v).len = 0 then raise .eNocode 0 t
      else memWrite (t.codeAt v).len (t.codeAt v).bits.toNat t fun u => .next u

/-- ENC.EOD (R160): the sentinel's code; PHASE <- P_CLOSE. -/
def execEncEod (s : State) : Result :=
  memRead Config.byteW s fun got t =>
    match got with
    | some _ => .refused .notSelected
    | none =>
      memWrite (t.codeAt Config.eod).len (t.codeAt Config.eod).bits.toNat t fun u => .next (u.enter .close)

/-- CLOSE (R161): flush; PHASE <- P_DONE. -/
def execClose (s : State) : Result := closeOut s fun t => .next (t.enter .done)

end Sys2Proof.Machine
end

