-- ==== Sys2Proof/Machine/Count.lean ====
section
/-! DEFINITION. The frequency counter, phase P_COUNT (spec/40_frequency.md). -/

namespace Sys2Proof.Machine

/-- CNT.BYTE (R101): count one input byte; E_CNTOVF instead of a wrap (R104). -/
def execCntByte (s : State) : Result :=
  memRead Config.byteW s fun got t =>
    match got with
    | none => .refused .notSelected
    | some v =>
      if t.par.isFull (t.freqAt v) then raise .eCntovf 0 t
      else .next (t.setFreq v (t.freqAt v + 1))

/-- CNT.END (R102): the sentinel's count is set to 1, IN is rewound, PHASE <- P_LEAVES. -/
def execCntEnd (s : State) : Result :=
  memRead Config.byteW s fun got t =>
    match got with
    | some _ => .refused .notSelected
    | none => rewind (t.setFreq Config.eod 1) fun u => .next (u.enter .leaves)

end Sys2Proof.Machine
end

