-- ==== Sys2Proof/Machine/Derive.lean ====
section
/-! DEFINITION. The code-table derivation, phase P_DERIVE (spec/42_code_table.md). -/

namespace Sys2Proof.Machine

/-- TBL.STEP (R126): a leaf's code is recorded; an internal node's children are pushed, the right one first. -/
def execTblStep (s : State) : Result :=
  pop s fun e t =>
    withNode e.n t fun _ nd =>
      match e.code with
      | none => .fault .unwrittenCode
      | some c =>
        match nd with
        | .leaf sym _ _ =>
          if sym.toNat < Config.nsym then .next (t.setCode sym.toNat c) else .fault .noSuchEntry
        | .inner _ l r _ =>
          if c.len < Config.maxLen then
            push { n := r, code := some (c.descend true) } t fun u =>
              push { n := l, code := some (c.descend false) } u fun v => .next v
          else .fault .codeTooLong

/-- TBL.END (R130): PHASE <- P_WMAGIC. -/
def execTblEnd (s : State) : Result := .next (s.enter .wmagic)

end Sys2Proof.Machine
end

