-- ==== Sys2Proof/Machine/Codec.lean ====
section
/-! DEFINITION. The tree serialiser and deserialiser, phases P_SER and P_DESER (spec/43_tree_codec.md). The
deserialiser's work is written once here; the micro-operations DES.INT, DES.LEAF and the stream tokens they consume
(Machine/Token.lean) each have a meaning of their own over it. -/

namespace Sys2Proof.Machine

/-- SER.INT (R136): "0", then the right child is pushed, then the left. -/
def execSerInt (s : State) : Result :=
  pop s fun e t =>
    withNode e.n t fun _ nd =>
      match nd with
      | .leaf .. => .refused .notSelected
      | .inner _ l r _ =>
        memWrite 1 0 t fun u =>
          push { n := r, code := none } u fun v =>
            push { n := l, code := none } v fun x => .next x

/-- SER.LEAF (R137): "1", then the symbol in 9 bits. -/
def execSerLeaf (s : State) : Result :=
  pop s fun e t =>
    withNode e.n t fun _ nd =>
      match nd with
      | .inner .. => .refused .notSelected
      | .leaf sym _ _ =>
        memWrite 1 1 t fun u =>
          memWrite Config.symW sym.toNat u fun v => .next v

/-- SER.END (R147): PHASE <- P_ENCODE. -/
def execSerEnd (s : State) : Result := .next (s.enter .encode)

/-- The lines common to DES.INT and DES.LEAF (R141): E_TREEOVF before the read, E_HEADER where no bit is left. -/
def desTag (s : State) (k : Nat → State → Result) : Result :=
  if s.nn = Config.nodeCap then raise .eTreeovf 0 s
  else
    memRead 1 s fun got t =>
      match got with
      | none => raise .eHeader 0 t
      | some b => k b t

/-- The rest of DES.INT (R141): allocate an open internal node, attach it, push it. -/
def desOpen (s : State) : Result :=
  alloc (.inner 0 none none false) s fun n t =>
    attach n t fun u =>
      push { n := some n, code := none } u fun v => .next v

/-- The rest of DES.LEAF (R142): read the symbol, allocate the leaf, attach it, pop the completed nodes. -/
def desSymbol (s : State) : Result :=
  memRead Config.symW s fun got t =>
    match got with
    | none => raise .eHeader 0 t
    | some v =>
      if Config.eod < v then raise .eRsvsym 0 t
      else
        alloc (.leaf (BitVec.ofNat 9 v) 0 false) t fun n u =>
          attach n u fun x => popComplete x.sp x fun y => .next y

/-- DES.INT (R141). -/
def execDesInt (s : State) : Result :=
  desTag s fun b t => if b = 0 then desOpen t else .refused .notSelected

/-- DES.LEAF (R142). -/
def execDesLeaf (s : State) : Result :=
  desTag s fun b t => if b = 1 then desSymbol t else .refused .notSelected

/-- DES.END (R144): E_ROOTLEAF if the root is a leaf; else CUR <- ROOT, PHASE <- P_DECODE. -/
def execDesEnd (s : State) : Result :=
  withNode s.root s fun _ nd =>
    if nd.kindBit then raise .eRootleaf 0 s else .next ({ s with cur := s.root }.enter .decode)

end Sys2Proof.Machine
end

