-- ==== Sys2Proof/Machine/Decompress.lean ====
section
/-! DEFINITION. The decompressor: magic check and bit-stream tree walk (spec/45_decompressor.md). The work is written
once here; RD.MAGIC, DEC.BIT and the stream tokens they consume (Machine/Token.lean) each have a meaning of their own. -/

namespace Sys2Proof.Machine

/-- Read and check the magic word (R176): a short stream lacks it too. -/
def checkMagic (s : State) : Result :=
  memRead Config.magicW s fun got t =>
    match got with
    | none => raise .eFormat 0 t
    | some m => if m = t.par.magic.toNat then .next (t.enter .deser) else raise .eFormat 0 t

/-- Arrival at the node CUR (R178 to R180): the sentinel ends the phase, a literal is written and the walk restarts, an
internal node is stayed at. -/
def arrive (s : State) : Result :=
  withNode s.cur s fun _ nd =>
    match nd with
    | .inner .. => .next s
    | .leaf sym _ _ =>
      if sym.toNat = Config.eod then .next (s.enter .close)
      else memWrite Config.byteW (sym.toNat % 256) s fun t => .next { t with cur := t.root }

/-- Consume one payload bit and walk one edge (R178): left on 0, right on 1. -/
def walkBit (s : State) : Result :=
  memRead 1 s fun got t =>
    match got with
    | none => raise .eTrunc 0 t
    | some b =>
      withNode t.cur t fun _ nd => arrive { t with cur := if b = 0 then nd.left else nd.right }

/-- RD.MAGIC (R176). -/
def execRdMagic (s : State) : Result := checkMagic s

/-- DEC.BIT (R178). -/
def execDecBit (s : State) : Result := walkBit s

end Sys2Proof.Machine
end

