-- ==== Sys2Proof/Machine/Token.lean ====
section
/-! DEFINITION. The stream tokens as instructions (spec/30_encoding.md R71 to R76, R89): interpreting one has the effect
of the micro-operation that consumes it. A token is interpreted where it stands at the cursor and in the position that
gives it its kind; anywhere else it is not the next token, and nothing executes it (log 19). -/

namespace Sys2Proof.Machine

/-- `k` where the token at the cursor is `i`. -/
def interpret (i : Instr) (s : State) (k : Result) : Result :=
  if s.tokenAt = some i then k else .refused .notSelected

/-- MAGIC (R71), consumed by RD.MAGIC (R176): E_FORMAT unless `m` is the parameter MAGIC. -/
def execMagic (m : Word) (s : State) : Result := interpret (.magic m) s (checkMagic s)

/-- HDR.INT (R72), consumed by DES.INT (R141). -/
def execHdrInt (s : State) : Result := interpret .hdrInt s (desTag s fun _ t => desOpen t)

/-- HDR.LEAF (R73, R74), consumed by DES.LEAF (R142): E_RSVSYM for a symbol above 256 (R79). -/
def execHdrLeaf (sym : Sym) (s : State) : Result := interpret (.hdrLeaf sym) s (desTag s fun _ t => desSymbol t)

/-- PAY.BIT (R76), consumed by DEC.BIT (R178). -/
def execPayBit (b : Bool) (s : State) : Result := interpret (.payBit b) s (walkBit s)

end Sys2Proof.Machine
end

