-- ==== Sys2Proof/Machine/Dispatch.lean ====
section
/-! DEFINITION. One arm per constructor of Instr, each a direct call of its meaning. -/

namespace Sys2Proof.Machine

def exec (i : Instr) (s : State) : Host.Outcome State Fault Refusal :=
  match i with
  | .magic m => Sys2Proof.Machine.execMagic m s
  | .hdrInt => Sys2Proof.Machine.execHdrInt s
  | .hdrLeaf sym => Sys2Proof.Machine.execHdrLeaf sym s
  | .payBit b => Sys2Proof.Machine.execPayBit b s
  | .nop => Sys2Proof.Machine.execNop s
  | .compress => Sys2Proof.Machine.execCompress s
  | .decompress => Sys2Proof.Machine.execDecompress s
  | .clear => Sys2Proof.Machine.execClear s
  | .cmdRsvd op => Sys2Proof.Machine.execCmdRsvd op s
  | .cntByte => Sys2Proof.Machine.execCntByte s
  | .cntEnd => Sys2Proof.Machine.execCntEnd s
  | .pqLeaf => Sys2Proof.Machine.execPqLeaf s
  | .pqScanEnd => Sys2Proof.Machine.execPqScanEnd s
  | .pqWrap => Sys2Proof.Machine.execPqWrap s
  | .pqRoot => Sys2Proof.Machine.execPqRoot s
  | .pqMerge => Sys2Proof.Machine.execPqMerge s
  | .tblStep => Sys2Proof.Machine.execTblStep s
  | .tblEnd => Sys2Proof.Machine.execTblEnd s
  | .wrMagic => Sys2Proof.Machine.execWrMagic s
  | .serInt => Sys2Proof.Machine.execSerInt s
  | .serLeaf => Sys2Proof.Machine.execSerLeaf s
  | .serEnd => Sys2Proof.Machine.execSerEnd s
  | .encByte => Sys2Proof.Machine.execEncByte s
  | .encEod => Sys2Proof.Machine.execEncEod s
  | .close => Sys2Proof.Machine.execClose s
  | .rdMagic => Sys2Proof.Machine.execRdMagic s
  | .desInt => Sys2Proof.Machine.execDesInt s
  | .desLeaf => Sys2Proof.Machine.execDesLeaf s
  | .desEnd => Sys2Proof.Machine.execDesEnd s
  | .decBit => Sys2Proof.Machine.execDecBit s

end Sys2Proof.Machine
end

