-- ==== Sys2Proof/Machine/Sequencer.lean ====
section
/-! DEFINITION. The sequencer (spec/47_host_commands.md R195, R200, R203, R204), the host's moves (R4, R12 to R15,
R240, R243, R246), and how an instruction is put where the next step runs it. -/

namespace Sys2Proof.Machine

/-- The core's turn (R200, R204): while a call is pending it waits (R50); in a quiescent phase nothing happens (log 13);
else it runs the one enabled micro-operation. -/
def coreStep (s : State) : Result :=
  if s.waiting then .next s
  else
    match decode (.select s.selector) with
    | .ok i => exec i s
    | .error .quiescent => .next s
    | .error _ => .fault .noEnabledRow

/-- A host write (R12 to R14, R195): to CR0 the command its word encodes, to CR1 and CR2 nothing. -/
def hostWrite (r : CtrlReg) (w : Word) (s : State) : Result :=
  match r with
  | .cmd => exec (decodeCommand w) s
  | .status | .ioinfo => .next s

/-- A host move on the channels: only while BUSY == 0 (R246, U9). -/
def onChannels (s : State) (t : State) : Result :=
  if s.busy then .refused .channelWhileBusy else .next t

/-- One move, already taken from the list. -/
def makeMove (m : Move) (s : State) : Result :=
  match m with
  | .core => coreStep s
  | .write r w => hostWrite r w s
  | .read r => .next { s with hostSaw := some (s.readReg r) }
  | .reset => .next (hardReset s)
  | .attachIn bytes pos again =>
    onChannels s { s with inp := { bytes := bytes, pos := min pos (8 * bytes.length), again := again } }
  | .attachOut => onChannels s { s with out := { bits := [], closed := false, delivered := [] } }

/-- One step of the whole: the next move of the list, and the core's turn when the list is empty (log 12). -/
def nextMove (s : State) : Result :=
  match s.moves with
  | [] => coreStep s
  | m :: ms => makeMove m { s with moves := ms }

/-! ## Placing an instruction (log 21) -/

/-- The core is to move next, in phase `p`, with the collaborator serving its calls. -/
def State.turn (p : Phase) (s : State) : State :=
  { s with phase := p, moves := .core :: s.moves, waiting := false, answers := [] }

/-- IN holds `bytes` from its start. -/
def State.withIn (bytes : List Byte) (s : State) : State :=
  { s with inp := { bytes := bytes, pos := 0, again := none } }

/-- The tree `(#0 EOD)` stands in NODE[0..2] with the root at 2, and STK holds the node `top` only. -/
def State.withTree (top : Nat) (s : State) : State :=
  { s with
    node := Table.set (Table.set (Table.set s.node 0 (.leaf 0 1 false)) 1 (.leaf 256 1 false)) 2
      (.inner 2 (some 0) (some 1) false)
    nn := 3, root := some 2, cur := some 2, sp := 1
    stk := Table.set s.stk 0 { n := some top, code := some Code.empty } }

/-- The state in which the very next step runs `i`. -/
def State.place (i : Instr) (s : State) : State :=
  match i with
  | .nop | .compress | .decompress | .clear | .cmdRsvd _ =>
    { s with moves := .write .cmd (commandWord i) :: s.moves }
  | .magic m => (s.withIn (bytesOfBits (bitsOf 32 m.toNat))).turn .rmagic
  | .hdrInt => { s.withIn [0] with nn := 0, sp := 0 }.turn .deser
  | .hdrLeaf sym =>
    { s.withIn (bytesOfBits (tokenBits (.hdrLeaf sym) ++ bitsOf 6 0)) with nn := 0, sp := 0 }.turn .deser
  | .payBit b => ((s.withIn [if b then 0x80 else 0]).withTree 2).turn .decode
  | .cntByte => (s.withIn [0]).turn .count
  | .cntEnd => (s.withIn []).turn .count
  | .pqLeaf => { s with scan := 0 }.turn .leaves
  | .pqScanEnd => { s with scan := 257 }.turn .leaves
  | .pqWrap => { s with node := Table.set s.node 0 (.leaf 256 1 true), nn := 1, qn := 1 }.turn .merge
  | .pqRoot =>
    { (s.withTree 2).setNode 2 (.inner 2 (some 0) (some 1) true) with qn := 1, sp := 0 }.turn .merge
  | .pqMerge =>
    { s with node := Table.set (Table.set s.node 0 (.leaf 0 1 true)) 1 (.leaf 256 1 true), nn := 2, qn := 2 }.turn .merge
  | .tblStep => (s.withTree 2).turn .derive
  | .tblEnd => { s with sp := 0 }.turn .derive
  | .wrMagic => { s with sp := 0 }.turn .wmagic
  | .serInt => (s.withTree 2).turn .ser
  | .serLeaf => (s.withTree 0).turn .ser
  | .serEnd => { s with sp := 0 }.turn .ser
  | .encByte => ((s.withIn [0]).setCode 0 { len := 1, bits := 1 }).turn .encode
  | .encEod => ((s.withIn []).setCode 256 { len := 1, bits := 0 }).turn .encode
  | .close => s.turn .close
  | .rdMagic => (s.withIn (bytesOfBits (bitsOf 32 s.par.magic.toNat))).turn .rmagic
  | .desInt => { s.withIn [0] with nn := 0, sp := 0 }.turn .deser
  | .desLeaf => { s.withIn [0x80, 0] with nn := 0, sp := 0 }.turn .deser
  | .desEnd => { s.withTree 2 with sp := 0 }.turn .deser
  | .decBit => ((s.withIn [0]).withTree 2).turn .decode

/-- Place the instruction a table word stands for; a word that stands for none changes nothing. -/
def State.placeWord (s : State) (nbits w : Nat) : State :=
  match decodeTableWord nbits w with
  | some i => s.place i
  | none => s

end Sys2Proof.Machine
end

