-- ==== Sys2Proof/Machine/Trees.lean ====
section
/-! DEFINITION. Code trees as mathematical objects: their header (spec/43_tree_codec.md R138), their codes
(spec/42_code_table.md R127), the spec's tree and stream notation (spec/30_encoding.md R86, R87), and when the node
arena holds one (spec/10_state.md R21). Nothing a step does depends on this file: statements are written with it. -/

namespace Sys2Proof

/-- A code tree: a leaf holds one symbol, an internal node two subtrees (R8, R21). -/
inductive HTree
  | leaf (sym : Sym)
  | node (l r : HTree)
  deriving DecidableEq, Repr

/-- `ser` (R138): the tree header. -/
def HTree.header : HTree → Bits
  | .leaf sym => tokenBits (.hdrLeaf sym)
  | .node l r => tokenBits .hdrInt ++ l.header ++ r.header

/-- `codes(r, p)` (R127): each leaf's symbol with the path to it, in pre-order. -/
def HTree.codes : HTree → Bits → List (Sym × Bits)
  | .leaf sym, p => [(sym, p)]
  | .node l r, p => l.codes (p ++ [false]) ++ r.codes (p ++ [true])

/-- The leaf a whole path leads to: left on 0, right on 1 (R76, R178). -/
def HTree.follow : HTree → Bits → Option Sym
  | .leaf sym, [] => some sym
  | .leaf _, _ :: _ => none
  | .node _ _, [] => none
  | .node l _, false :: p => l.follow p
  | .node _ r, true :: p => r.follow p

/-- The symbols of the leaves, in pre-order. -/
def HTree.syms : HTree → List Sym
  | .leaf sym => [sym]
  | .node l r => l.syms ++ r.syms

/-- How many nodes, leaves and internal. -/
def HTree.size : HTree → Nat
  | .leaf _ => 1
  | .node l r => 1 + l.size + r.size

/-- The longest path. -/
def HTree.depth : HTree → Nat
  | .leaf _ => 0
  | .node l r => 1 + max l.depth r.depth

/-- The root is internal. -/
def HTree.isNode : HTree → Bool
  | .leaf _ => false
  | .node _ _ => true

/-- The code word of a symbol, `C(n)` (R76, R87): the path to its first leaf. -/
def HTree.codeOf (t : HTree) (sym : Sym) : Option Bits :=
  ((t.codes []).find? (fun e => e.1 == sym)).map Prod.snd

/-- `DATA(b_1 .. b_k)` (R87): the bytes' code words, then the sentinel's. -/
def HTree.data (t : HTree) : List Byte → Option Bits
  | [] => t.codeOf 256
  | b :: r => (t.codeOf (b.setWidth 9)).bind fun c => (HTree.data t r).map fun d => c ++ d

/-- `FILE(t; b_1 .. b_k)` (R87): magic, tree, data and the least padding of zeros that fills the last byte. -/
def HTree.file (magic : Word) (t : HTree) (bytes : List Byte) : Option Bits :=
  (t.data bytes).map fun d =>
    let bits := tokenBits (.magic magic) ++ t.header ++ d
    bits ++ List.replicate (padLen bits.length) false

/-- Tree text (R86). -/
def HTree.text : HTree → String
  | .leaf sym => if sym.toNat = 256 then "EOD" else "#" ++ toString sym.toNat
  | .node l r => "(" ++ l.text ++ " " ++ r.text ++ ")"

namespace Machine

/-- The arena holds the tree `t` at index `i`, on exactly the nodes `ns` (R21 without the disjointness, which is
`ns.Nodup`). -/
def State.treeAt (s : State) : Nat → HTree → List Nat → Prop
  | i, .leaf sym, ns => ns = [i] ∧ sym.toNat ≤ Config.eod ∧ ∃ w q, s.nodeAt i = some (.leaf sym w q)
  | i, .node l r, ns =>
    ∃ w q a b na nb, s.nodeAt i = some (.inner w (some a) (some b) q) ∧ s.treeAt a l na ∧ s.treeAt b r nb ∧
      ns = i :: (na ++ nb)

/-- `Tree(r)` (R21). -/
def State.isTree (s : State) (i : Nat) : Prop := ∃ t ns, s.treeAt i t ns ∧ ns.Nodup

end Machine

end Sys2Proof
end

