-- ==== Sys2Proof/Safety.lean ====
section
/-! DEFINITION. What a safe run is: runs of `step`, and the invariant that every reachable state meets (spec/10_state.md
R11, R13, R14, R17, R20 to R23; spec/41_tree_build.md R116; spec/42_code_table.md R128; spec/43_tree_codec.md R139, R143,
R145; spec/45_decompressor.md R177). A state that meets it never stops with a fault of the model. -/

namespace Sys2Proof.Machine

/-- `k` steps, stopping at the first fault or refusal. -/
def run : Nat → State → Result
  | 0, s => .next s
  | k + 1, s =>
    match step s with
    | .next t => run k t
    | .fault f => .fault f
    | .refused r => .refused r

/-- The core is on its own: no host move is listed, no call is pending, every call is served. -/
structure State.Alone (s : State) : Prop where
  noMoves : s.moves = []
  notWaiting : s.waiting = false
  served : s.answers = []

/-- An entry of a built tree's arena (R20, R113): a leaf holds a Symbol, an internal node's children are set and were
created before it. -/
def Node.builtAt (i : Nat) : Node → Prop
  | .leaf sym _ _ => sym.toNat ≤ Config.eod
  | .inner _ (some a) (some b) _ => a < i ∧ b < i
  | .inner _ _ _ _ => False

/-- A built arena (R116): `m` leaves at the indices below `m`, internal nodes above; `q` nodes have no parent yet. -/
structure Built (m q : Nat) (s : State) : Prop where
  few : m ≤ Config.nsym
  count : s.nn + q = 2 * m
  entry : ∀ i, i < s.nn → ∃ nd, s.nodeAt i = some nd ∧ nd.kindBit = decide (i < m) ∧ nd.builtAt i

/-- How many allocated nodes have INQ == 1: the size of the priority structure (R110). -/
def State.inqCount (s : State) : Nat :=
  (s.node.filter fun e => decide (e.1 < s.nn) && e.2.inq).length

/-- The stack while codes are derived (R126, R128): every entry names an allocated node, with a code at least as long
as its place and short enough for what lies below it. -/
def deriveStack (m : Nat) (s : State) : Prop :=
  ∀ p, p < s.sp → ∃ n c, Table.get? s.stk p = some { n := some n, code := some c } ∧ n < s.nn ∧
    p ≤ c.len ∧ c.len + (n + 1 - m) ≤ Config.maxLen ∧ c.bits.toNat < 2 ^ c.len

/-- The stack while the tree is serialised (R135, R139). -/
def serStack (m : Nat) (s : State) : Prop :=
  ∀ p, p < s.sp → ∃ n c, Table.get? s.stk p = some { n := some n, code := c } ∧ n < s.nn ∧
    p + (n + 1 - m) ≤ Config.maxLen

/-- An entry of a deserialised arena of `nn` nodes (R140, R143): LEFT is set before RIGHT. -/
def Node.readAt (nn : Nat) : Node → Prop
  | .leaf sym _ _ => sym.toNat ≤ Config.eod
  | .inner _ l r _ => (∀ a, l = some a → a < nn) ∧ (∀ b, r = some b → b < nn) ∧ (l = none → r = none)

/-- The arena and the stack while a header is read (R140, R143, R145): the root is node 0, the stack holds open internal
nodes, the innermost is incomplete, and every incomplete node is on it. -/
structure Reading (s : State) : Prop where
  entry : ∀ i, i < s.nn → ∃ nd, s.nodeAt i = some nd ∧ nd.readAt s.nn
  spLe : s.sp ≤ s.nn
  root : 0 < s.nn → s.root = some 0
  stack : ∀ p, p < s.sp → ∃ n c w l r q, Table.get? s.stk p = some { n := some n, code := c } ∧
    s.nodeAt n = some (.inner w l r q) ∧ (p + 1 = s.sp → r = none)
  incomplete : ∀ i w l q, s.nodeAt i = some (.inner w l none q) →
    ∃ p c, p < s.sp ∧ Table.get? s.stk p = some { n := some i, code := c }

/-- The arena while the payload is decoded (R177): every internal node has both children; ROOT and CUR are internal. -/
structure Walking (s : State) : Prop where
  entry : ∀ i, i < s.nn → ∃ nd, s.nodeAt i = some nd ∧ nd.readAt s.nn ∧ (nd.kindBit = false → nd.right ≠ none)
  root : ∃ i w l r q, s.root = some i ∧ s.nodeAt i = some (.inner w l r q)
  cur : ∃ i w l r q, s.cur = some i ∧ s.nodeAt i = some (.inner w l r q)

/-- What holds in each phase between two steps. -/
def phaseInv (s : State) : Prop :=
  match s.phase with
  | .idle | .done | .fault | .encode | .close => True
  | .count => s.nn = 0 ∧ s.qn = 0 ∧ s.scan = 0 ∧ s.sp = 0
  | .leaves => Built s.nn s.qn s ∧ s.inqCount = s.qn ∧ s.nn ≤ s.scan ∧ s.sp = 0 ∧ 0 < s.freqAt Config.eod ∧
      (s.scan = Config.nsym → 0 < s.nn)
  | .merge => (∃ m, Built m s.qn s) ∧ s.inqCount = s.qn ∧ 0 < s.qn ∧ s.sp = 0
  | .derive => s.qn = 0 ∧ (∃ r, s.root = some r ∧ r < s.nn) ∧ ∃ m, Built m 1 s ∧ deriveStack m s
  | .wmagic => s.qn = 0 ∧ s.sp = 0 ∧ (∃ r, s.root = some r ∧ r < s.nn) ∧ ∃ m, Built m 1 s
  | .ser => s.qn = 0 ∧ ∃ m, Built m 1 s ∧ serStack m s
  | .rmagic => s.nn = 0 ∧ s.sp = 0
  | .deser => Reading s
  | .decode => Walking s

/-- The invariant. The first part holds in every state, the phase's part where no call is pending (a call may be pending
in the middle of a micro-operation, and only a reset ends it). -/
structure State.Inv (s : State) : Prop where
  freqWf : Table.wfD Config.nsym 0 s.freq = true
  codeWf : Table.wfD Config.nsym Code.empty s.code = true
  nodeWf : Table.wf Config.nodeCap s.node = true
  stkWf : Table.wf Config.stkCap s.stk = true
  nnLe : s.nn ≤ Config.nodeCap
  qnLe : s.qn ≤ Config.nsym
  scanLe : s.scan ≤ Config.nsym
  spLe : s.sp ≤ Config.stkCap
  rootLt : ∀ i, s.root = some i → i < Config.nodeCap
  curLt : ∀ i, s.cur = some i → i < Config.nodeCap
  posLe : s.inp.pos ≤ s.inp.len
  cntPos : s.par.cntW ≠ some 0
  counts : ∀ w i, s.par.cntW = some w → s.freqAt i < 2 ^ w
  codes : ∀ i, (s.codeAt i).len ≤ Config.maxLen ∧ (s.codeAt i).bits.toNat < 2 ^ (s.codeAt i).len
  errIff : s.phase = .fault ↔ s.errcode ≠ .eNone
  ioinfoZero : s.phase ≠ .fault → s.ioinfo = 0
  waitBusy : s.waiting = true → s.busy = true
  here : s.waiting = false → phaseInv s

/-- The weights of the nodes in the priority structure, summed (R9). -/
def State.inqSum (s : State) : Nat :=
  ((s.node.filter fun e => decide (e.1 < s.nn) && e.2.inq).map fun e => e.2.wgt).sum

/-- R9, as an invariant of tree building with counters of `w` bits: the structure's weights sum to at most SCAN full
counters, and no node outweighs 257 of them. -/
def State.weightInv (s : State) (w : Nat) : Prop :=
  (s.phase = .leaves ∨ s.phase = .merge) →
    s.inqSum ≤ s.scan * (2 ^ w - 1) ∧
    ∀ i nd, s.nodeAt i = some nd → nd.wgt ≤ Config.nsym * (2 ^ w - 1)

/-! ## Words the statements use -/

/-- Node `i` is the one `removeMin()` returns (R112): in the structure, with the least (weight, index). -/
def State.least (s : State) (i : Nat) (nd : Node) : Prop :=
  s.nodeAt i = some nd ∧ nd.inq = true ∧
    ∀ j md, s.nodeAt j = some md → md.inq = true → nd.wgt < md.wgt ∨ nd.wgt = md.wgt ∧ i ≤ j

/-- Node `b` is the least once `a` has left the structure (R112, R113). -/
def State.leastBut (s : State) (a b : Nat) (nd : Node) : Prop :=
  b ≠ a ∧ s.nodeAt b = some nd ∧ nd.inq = true ∧
    ∀ j md, j ≠ a → s.nodeAt j = some md → md.inq = true → nd.wgt < md.wgt ∨ nd.wgt = md.wgt ∧ b ≤ j

/-- The bit string of a code (R22, R127): the LEN low bits of BITS, most significant first. -/
def Code.word (c : Code) : Bits := bitsOf c.len c.bits.toNat

/-- The next call and the one after it are both served. -/
def State.servesTwo (s : State) : Prop := s.answer = .ok ∧ s.called.answer = .ok

/-- A new node can be attached (R140): the stack is empty, or its top names an internal node. -/
def State.openTop (s : State) : Prop :=
  s.sp = 0 ∨ ∃ p c w l r q, s.top = some { n := some p, code := c } ∧ s.nodeAt p = some (.inner w l r q)

/-- `t` comes from `s` by `attach(n)` (R140), as far as ROOT and the older nodes go. -/
def Attached (s t : State) (n : Nat) : Prop :=
  (s.sp = 0 ∧ t.root = some n ∧ ∀ i, i < s.nn → t.nodeAt i = s.nodeAt i) ∨
  (∃ p c w l r q, s.top = some { n := some p, code := c } ∧ s.nodeAt p = some (.inner w l r q) ∧ t.root = s.root ∧
    t.nodeAt p = some (if l = none then .inner w (some n) r q else .inner w l (some n) q) ∧
    ∀ i, i < s.nn → i ≠ p → t.nodeAt i = s.nodeAt i)

/-- Every live stack entry names an internal node (R140). -/
def State.openStack (s : State) : Prop :=
  ∀ p, p < s.sp → ∃ n c w l r q, Table.get? s.stk p = some { n := some n, code := c } ∧
    s.nodeAt n = some (.inner w l r q)

/-- PHASE is P_IDLE, P_DONE or P_FAULT (R204). -/
def State.quiescent (s : State) : Prop := s.phase = .idle ∨ s.phase = .done ∨ s.phase = .fault

/-- What the host and the collaborator can observe (D1): STATUS, IOINFO and the channels. -/
structure View where
  status : Word
  ioinfo : Word
  inp : InChan
  out : OutChan
  deriving DecidableEq, Repr

def State.view (s : State) : View := { status := s.statusWord, ioinfo := s.ioinfo, inp := s.inp, out := s.out }

/-- How often the byte value `v` occurs. -/
def occurs (v : Nat) (bytes : List Byte) : Nat := bytes.countP fun b => b.toNat == v

end Sys2Proof.Machine

namespace Sys2Proof

/-- The phases a step of the core may lead to from `p` (R155, R175); `p` itself where the phase repeats or waits. -/
def Phase.successors : Phase → List Phase
  | .idle => [.idle] | .done => [.done] | .fault => [.fault]
  | .count => [.count, .leaves, .fault]
  | .leaves => [.leaves, .merge]
  | .merge => [.merge, .derive]
  | .derive => [.derive, .wmagic]
  | .wmagic => [.wmagic, .ser, .fault]
  | .ser => [.ser, .encode, .fault]
  | .encode => [.encode, .close, .fault]
  | .close => [.close, .done, .fault]
  | .rmagic => [.rmagic, .deser, .fault]
  | .deser => [.deser, .decode, .fault]
  | .decode => [.decode, .close, .fault]

end Sys2Proof
end

