-- ==== Sys2Proof/Certificates/Slice0/Obligations.lean ====
section
/-! DEFINITION. The statements for the provers, from the numbered rules of spec/. In a conclusion of the form
`t = { s with f := t.f, … }` the fields named are the only ones that may differ from `s`: it is the frame. -/

open Sys2Proof Sys2Proof.Machine

/-! ## Encodings -/

/-- Words written out from the spec's encodings decode to the instructions they stand for: command words (R82; vector
V70), the header tokens of `(#97 (#98 EOD))` (R72, R73), the default magic word's 32 bits (R71), a payload bit (R76),
PHASE codes with their conditions (R84). -/
def Obligations.SpecWordsDecode : Prop :=
  decodeCommand 0x00000000 = .nop ∧ decodeCommand 0xFFFFFFF9 = .compress ∧ decodeCommand 0x00000002 = .decompress ∧
  decodeCommand 0x00000003 = .clear ∧ decodeCommand 0x00000007 = .cmdRsvd 7 ∧
  decodeToken .header [false] = .ok (.hdrInt, []) ∧
  decodeToken .header [true, false, false, true, true, false, false, false, false, true] = .ok (.hdrLeaf 97, []) ∧
  decodeToken .header [true, true, false, false, false, false, false, false, false, false] = .ok (.hdrLeaf 256, []) ∧
  decodeToken .magic
    [true, true, true, true, true, false, true, false, true, true, false, false, true, true, true, false,
     true, false, false, false, false, false, true, false, false, false, false, false, false, false, false, true]
    = .ok (.magic 0xFACE8201, []) ∧
  decodeToken .payload [true, false] = .ok (.payBit true, [false]) ∧
  selectOp { code := 3, first := none, scan := 257, nn := 3, qn := 3, sp := 0, topLeaf := false } = .ok .pqMerge ∧
  selectOp { code := 10, first := some 1, scan := 0, nn := 1, qn := 0, sp := 1, topLeaf := false } = .ok .desLeaf

/-- Decoding an encoded well-formed instruction gives it back, with every operand at every value: in the form of its kind,
a token also in front of any further bits (R75), a command whatever its ignored bits 31:3 hold (R82). -/
def Obligations.DecodeOfEncodeIsTheInstruction : Prop :=
  (∀ i : Instr, i.wellFormed = true → decode (encode i) = .ok i) ∧
  (∀ (i : Instr) (pos : TokenPos) (rest : Bits), encode i = .token pos (tokenBits i) →
    decodeToken pos (tokenBits i ++ rest) = .ok (i, rest)) ∧
  (∀ (i : Instr) (w : Word), i.wellFormed = true → i.kind = .command →
    w.extractLsb' 0 3 = (commandWord i).extractLsb' 0 3 → decodeCommand w = i)

/-- A decoded token is exactly the bits that stood there: token and rest together are what was given (R75, R89). -/
def Obligations.DecodedTokenIsWhatStood : Prop :=
  ∀ (pos : TokenPos) (bits rest : Bits) (i : Instr), decodeToken pos bits = .ok (i, rest) →
    tokenBits i ++ rest = bits ∧ encode i = .token pos (tokenBits i)

/-- The command word (R82, R83): OP is bits 2:0, the opcodes 0 to 3 are the four commands, 4 to 7 are reserved, and bits
31:3 are ignored. -/
def Obligations.CommandWordOpcodes : Prop :=
  ∀ w : Word,
    (w.extractLsb' 0 3 = 0 → decodeCommand w = .nop) ∧ (w.extractLsb' 0 3 = 1 → decodeCommand w = .compress) ∧
    (w.extractLsb' 0 3 = 2 → decodeCommand w = .decompress) ∧ (w.extractLsb' 0 3 = 3 → decodeCommand w = .clear) ∧
    (4 ≤ (w.extractLsb' 0 3).toNat → decodeCommand w = .cmdRsvd (w.extractLsb' 0 3)) ∧
    ∀ v : Word, v.extractLsb' 0 3 = w.extractLsb' 0 3 → decodeCommand v = decodeCommand w

/-- The phase map (R84), row by row: where a row's condition holds, its micro-operation is selected; the quiescent phases
select none, and neither do the codes 14 and 15. -/
def Obligations.PhaseMapSelects : Prop :=
  ∀ c : Selector,
    (c.code = 1 → (∀ v, c.first = some v → selectOp c = .ok .cntByte) ∧ (c.first = none → selectOp c = .ok .cntEnd)) ∧
    (c.code = 2 → (c.scan ≤ 256 → selectOp c = .ok .pqLeaf) ∧ (c.scan = 257 → selectOp c = .ok .pqScanEnd)) ∧
    (c.code = 3 → (c.qn = 1 → c.nn = 1 → selectOp c = .ok .pqWrap) ∧
      (c.qn = 1 → 1 < c.nn → selectOp c = .ok .pqRoot) ∧ (2 ≤ c.qn → selectOp c = .ok .pqMerge)) ∧
    (c.code = 4 → (0 < c.sp → selectOp c = .ok .tblStep) ∧ (c.sp = 0 → selectOp c = .ok .tblEnd)) ∧
    (c.code = 5 → selectOp c = .ok .wrMagic) ∧
    (c.code = 6 → (0 < c.sp → c.topLeaf = false → selectOp c = .ok .serInt) ∧
      (0 < c.sp → c.topLeaf = true → selectOp c = .ok .serLeaf) ∧ (c.sp = 0 → selectOp c = .ok .serEnd)) ∧
    (c.code = 7 → (∀ v, c.first = some v → selectOp c = .ok .encByte) ∧ (c.first = none → selectOp c = .ok .encEod)) ∧
    (c.code = 8 → selectOp c = .ok .close) ∧ (c.code = 9 → selectOp c = .ok .rdMagic) ∧
    (c.code = 10 → (c.nn = 0 ∨ 0 < c.sp → c.first = some 0 → selectOp c = .ok .desInt) ∧
      (c.nn = 0 ∨ 0 < c.sp → c.first = some 1 → selectOp c = .ok .desLeaf) ∧
      (0 < c.nn → c.sp = 0 → selectOp c = .ok .desEnd)) ∧
    (c.code = 11 → selectOp c = .ok .decBit) ∧
    (c.code = 0 ∨ c.code = 12 ∨ c.code = 13 → selectOp c = .error .quiescent) ∧
    (c.code = 14 ∨ c.code = 15 → selectOp c = .error .noSuchPhase)

/-! ## Host-visible registers, reset, moves -/

/-- CR1 STATUS, field by field (R13), with the phase codes (R16) and cause codes (R210) it shows. -/
def Obligations.StatusWordFields : Prop :=
  (∀ s : State,
    s.statusWord.getLsbD 0 = decide (1 ≤ s.phase.code.toNat ∧ s.phase.code.toNat ≤ 11) ∧
    s.statusWord.getLsbD 1 = decide (s.phase = .done) ∧ s.statusWord.getLsbD 2 = decide (s.phase = .fault) ∧
    s.statusWord.getLsbD 3 = false ∧ s.statusWord.extractLsb' 4 4 = s.errcode.code ∧
    s.statusWord.extractLsb' 8 4 = s.phase.code ∧ s.statusWord.extractLsb' 12 20 = 0) ∧
  ([Phase.idle, .count, .leaves, .merge, .derive, .wmagic, .ser, .encode, .close, .rmagic, .deser, .decode, .done,
    .fault].map Phase.code = [0, 1, 2, 3, 4, 5, 6, 7, 8, 9, 10, 11, 12, 13]) ∧
  ([Cause.eNone, .eFormat, .eHeader, .eTrunc, .eIo, .eRsvsym, .eTreeovf, .eRootleaf, .eCntovf, .eNocode,
    .eBadcmd].map Cause.code = [0, 1, 2, 3, 4, 5, 6, 7, 8, 9, 10])

/-- What the spec gives for a hardware reset (R25, R240): P_IDLE, no cause, IOINFO 0, STATUS 0x00000000, not busy. -/
def Obligations.ResetValues : Prop :=
  State.reset.phase = .idle ∧ State.reset.errcode = .eNone ∧ State.reset.ioinfo = 0 ∧
  State.reset.statusWord = 0x00000000 ∧ State.reset.busy = false

/-- A step runs the decoded instruction. On the core's turn (no move listed, or `core` at the head) with no call pending,
it is `exec` of the micro-operation the sequencer selects, in the state without that move; where a stream token stands
at the cursor, it is `exec` of that token too; and a host write to CR0 is `exec` of the command its word decodes to
(R195, R200, R89). -/
def Obligations.StepRunsTheDecodedInstruction : Prop :=
  (∀ (s c : State), (s.moves = [] ∧ c = s ∨ ∃ ms, s.moves = .core :: ms ∧ c = { s with moves := ms }) →
    c.waiting = false →
    (∀ i, decode (.select c.selector) = .ok i → step s = exec i c) ∧
    (∀ i, c.tokenAt = some i → step s = exec i c)) ∧
  (∀ (s : State) (w : Word) (ms : List Move), s.moves = .write .cmd w :: ms →
    step s = exec (decodeCommand w) { s with moves := ms })

/-- Host accesses (R12 to R15): a read returns 0 for CR0, STATUS for CR1, IOINFO for CR2, and changes nothing but the
host's own record; a write to CR1 or CR2 is ignored. Both at any time, busy or not. -/
def Obligations.HostAccesses : Prop :=
  (∀ (s : State) (r : CtrlReg) (ms : List Move), s.moves = .read r :: ms →
    ∃ t, step s = .next t ∧ t = { s with moves := ms, hostSaw := t.hostSaw } ∧
      t.hostSaw = some (match r with | .cmd => 0 | .status => s.statusWord | .ioinfo => s.ioinfo)) ∧
  (∀ (s : State) (r : CtrlReg) (w : Word) (ms : List Move), r ≠ .cmd → s.moves = .write r w :: ms →
    step s = .next { s with moves := ms })

/-- A hardware reset (R240) from any state, also while a call is pending: PHASE, ERRCODE, IOINFO and STATUS as R25 gives
them; the channels, what the collaborator will answer and the parameters are untouched: no call is made. -/
def Obligations.HardwareReset : Prop :=
  ∀ (s : State) (ms : List Move), s.moves = .reset :: ms →
    ∃ t, step s = .next t ∧ t.phase = .idle ∧ t.errcode = .eNone ∧ t.ioinfo = 0 ∧ t.statusWord = 0 ∧
      t.waiting = false ∧ t.inp = s.inp ∧ t.out = s.out ∧ t.answers = s.answers ∧ t.par = s.par ∧ t.moves = ms

/-- The channels are the host's while BUSY == 0, and it has no move on them while BUSY == 1 (R4, R243, R246, U9). -/
def Obligations.ChannelsAreTheHostsOnlyWhenNotBusy : Prop :=
  ∀ (s : State) (ms : List Move),
    (∀ bytes pos again, s.moves = .attachIn bytes pos again :: ms →
      (s.busy = true → step s = .refused .channelWhileBusy) ∧
      (s.busy = false → pos ≤ 8 * bytes.length →
        step s = .next { s with moves := ms, inp := { bytes := bytes, pos := pos, again := again } })) ∧
    (s.moves = .attachOut :: ms →
      (s.busy = true → step s = .refused .channelWhileBusy) ∧
      (s.busy = false → step s = .next { s with moves := ms, out := { bits := [], closed := false, delivered := [] } }))

/-! ## Host commands -/

/-- COMPRESS and DECOMPRESS when not busy (R196, R198, R199): command start clears FREQ, CODE, NN, QN, SCAN, SP, ROOT, CUR,
ERRCODE and IOINFO, enters P_COUNT or P_RMAGIC, and changes nothing else (NODE, STK and the channels among it). -/
def Obligations.CommandStart : Prop :=
  ∀ s : State, s.busy = false →
    ∀ i p, (i = Instr.compress ∧ p = Phase.count ∨ i = Instr.decompress ∧ p = Phase.rmagic) →
      ∃ t, exec i s = .next t ∧
        t = { s with phase := p, errcode := .eNone, ioinfo := 0, nn := 0, qn := 0, scan := 0, sp := 0, root := none,
                     cur := none, freq := t.freq, code := t.code } ∧
        ∀ j, t.freqAt j = 0 ∧ t.codeAt j = { len := 0, bits := 0 }

/-- A command written while BUSY == 1 is dropped: no state changes (R203). -/
def Obligations.BusyDropsCommands : Prop :=
  ∀ s : State, s.busy = true →
    (∀ i : Instr, i.kind = .command → exec i s = .next s) ∧
    ∀ w ms, s.moves = .write .cmd w :: ms → step s = .next { s with moves := ms }

/-- When not busy, NOP (OP 0) changes nothing (R197); CLEAR (OP 3) sets PHASE to P_IDLE and clears ERRCODE and IOINFO, no
more (R201); a reserved opcode (4 to 7) raises E_BADCMD (R202), also in P_FAULT, where it replaces the cause (R226). -/
def Obligations.NopClearReserved : Prop :=
  ∀ s : State, s.busy = false →
    exec .nop s = .next s ∧
    exec .clear s = .next { s with phase := .idle, errcode := .eNone, ioinfo := 0 } ∧
    (∀ op, exec (.cmdRsvd op) s = .next { s with phase := .fault, errcode := .eBadcmd }) ∧
    ∀ (w : Word) (ms : List Move), s.moves = .write .cmd w :: ms →
      (w.extractLsb' 0 3 = 0 → step s = .next { s with moves := ms }) ∧
      (w.extractLsb' 0 3 = 3 → step s = .next { s with moves := ms, phase := .idle, errcode := .eNone, ioinfo := 0 }) ∧
      (4 ≤ (w.extractLsb' 0 3).toNat → step s = .next { s with moves := ms, phase := .fault, errcode := .eBadcmd })

/-! ## Fault entry -/

/-- Fault entry (R220): ERRCODE is the cause, IOINFO is written for E_IO only, PHASE is P_FAULT (BUSY 0, DONE 0, ERR 1), and
nothing else changes; no step follows. Where any of the four channel calls returns IOERR(info) the step ends there with
E_IO, the word unchanged in IOINFO, and the call is not repeated (R214). -/
def Obligations.FaultEntry : Prop :=
  (∀ (c : Cause) (info : Word) (s : State),
    ∃ t, raise c info s = .next t ∧
      t = { s with errcode := c, ioinfo := if c = .eIo then info else s.ioinfo, phase := .fault } ∧
      t.statusWord.getLsbD 0 = false ∧ t.statusWord.getLsbD 1 = false ∧ t.statusWord.getLsbD 2 = true ∧
      (t.moves = [] → step t = .next t)) ∧
  ∀ (s : State) (info : Word), s.answer = .ioerr info →
    (∀ n k, ∃ t, memRead n s k = raise .eIo info t ∧
      t = { s with answers := s.answers.tail, inp := { s.inp with pos := t.inp.pos }, draws := t.draws }) ∧
    (∀ n v k, ∃ t, memWrite n v s k = raise .eIo info t ∧
      t = { s with answers := s.answers.tail, out := t.out, draws := t.draws }) ∧
    (∀ k, ∃ t, rewind s k = raise .eIo info t ∧
      t = { s with answers := s.answers.tail, inp := { s.inp with pos := t.inp.pos }, draws := t.draws }) ∧
    (∀ k, ∃ t, closeOut s k = raise .eIo info t ∧
      t = { s with answers := s.answers.tail, out := t.out, draws := t.draws })

/-! ## Channels -/

/-- Bit and byte order (R41): stream bit i of a byte stream is bit 7 - (i mod 8) of byte i / 8; a value's bit n - 1 is the
earliest stream bit; the magic word is big-endian on the byte stream; 9 bits are 1 bit and then 8; and a byte stream laid
out and put together again is itself. -/
def Obligations.StreamBitOrder : Prop :=
  (∀ (bytes : List Byte) (i : Nat), i < 8 * bytes.length →
    (bitsOfBytes bytes)[i]? = some ((bytes.getD (i / 8) 0).getLsbD (7 - i % 8)) ∧
    streamBits bytes i 1 = [(bytes.getD (i / 8) 0).getLsbD (7 - i % 8)]) ∧
  (∀ n v i : Nat, i < n → (bitsOf n v)[i]? = some (v.testBit (n - 1 - i))) ∧
  (∀ m : Word, bytesOfBits (bitsOf 32 m.toNat) =
    [m.extractLsb' 24 8, m.extractLsb' 16 8, m.extractLsb' 8 8, m.extractLsb' 0 8]) ∧
  (∀ (bytes : List Byte) (pos m n : Nat),
    streamBits bytes pos (m + n) = streamBits bytes pos m ++ streamBits bytes (pos + m) n) ∧
  ∀ bytes : List Byte,
    streamBits bytes 0 (8 * bytes.length) = bitsOfBytes bytes ∧ bytesOfBits (bitsOfBytes bytes) = bytes

/-- `readBits(n)` when the call is served (R43, R44): with n bits left it hands over their value, most significant first
and below 2^n, and moves the cursor by n; with fewer it hands over EOS and moves nothing. -/
def Obligations.ReadBits : Prop :=
  ∀ (n : Nat) (s : State) (k : Option Nat → State → Result), s.answer = .ok →
    (s.inp.pos + n ≤ s.inp.len → ∃ v, v < 2 ^ n ∧ bitsOf n v = streamBits s.inp.bytes s.inp.pos n ∧
      memRead n s k =
        k (some v) { s with inp := { s.inp with pos := s.inp.pos + n }, answers := s.answers.tail }) ∧
    (s.inp.len < s.inp.pos + n → memRead n s k = k none { s with answers := s.answers.tail })

/-- Call boundaries are not observable (R46): a write of n bits appends what a write of the k high bits and one of the n - k
low bits append; a read of n bits gives the value of a read of k and one of n - k, concatenated, and the same cursor. -/
def Obligations.CallBoundariesAreNotObservable : Prop :=
  ∀ (n k : Nat) (s : State), k ≤ n → s.servesTwo →
    (∀ v, ∃ t u, memWrite n v s (fun x => .next x) = .next t ∧
      memWrite k (v >>> (n - k)) s (fun x => memWrite (n - k) (v % 2 ^ (n - k)) x fun y => .next y) = .next u ∧
      t.out = u.out) ∧
    (s.inp.pos + n ≤ s.inp.len →
      ∃ t u, memRead n s (fun got x => .next { x with scan := got.getD 0 }) = .next t ∧
        memRead k s (fun got x => memRead (n - k) x fun got' y =>
          .next { y with scan := got.getD 0 * 2 ^ (n - k) + got'.getD 0 }) = .next u ∧
        t.scan = u.scan ∧ t.inp = u.inp)

/-! ## Frequency counter -/

/-- CNT.BYTE (R101, R104): the byte's counter goes up by 1 and no other changes; at its maximum 2^CNT_W - 1 it raises
E_CNTOVF with FREQ unchanged and the byte consumed. -/
def Obligations.CountByte : Prop :=
  ∀ s : State, s.answer = .ok → s.inp.pos + 8 ≤ s.inp.len →
    ∀ v, v = valOf (s.inp.next 8) →
      ((∀ w, s.par.cntW = some w → s.freqAt v ≠ 2 ^ w - 1) →
        ∃ t, exec .cntByte s = .next t ∧
          t = { s with freq := t.freq, inp := { s.inp with pos := s.inp.pos + 8 }, answers := s.answers.tail } ∧
          ∀ i, t.freqAt i = if i = v then s.freqAt v + 1 else s.freqAt i) ∧
      (∀ w, s.par.cntW = some w → s.freqAt v = 2 ^ w - 1 →
        exec .cntByte s = .next { s with inp := { s.inp with pos := s.inp.pos + 8 }, answers := s.answers.tail,
                                         errcode := .eCntovf, phase := .fault })

/-- CNT.END (R102): FREQ[256] is set to 1, IN is rewound (the same bytes unless the collaborator breaks R58), PHASE is
P_LEAVES, and nothing else changes. -/
def Obligations.CountEnd : Prop :=
  ∀ s : State, s.servesTwo → s.inp.len < s.inp.pos + 8 →
    ∃ t, exec .cntEnd s = .next t ∧
      t = { s with freq := t.freq, phase := .leaves, answers := s.answers.tail.tail,
                   inp := { bytes := s.inp.again.getD s.inp.bytes, pos := 0, again := none } } ∧
      ∀ i, t.freqAt i = if i = 256 then 1 else s.freqAt i

/-! ## Tree builder -/

/-- PQ.LEAF (R111), selected in P_LEAVES while SCAN <= 256: a symbol that occurs gets the leaf NODE[NN] with its count as weight and INQ 1; one that does not gets
none; SCAN goes up by 1. -/
def Obligations.ExamineSymbol : Prop :=
  ∀ s : State, s.scan ≤ 256 → s.nn < 513 →
    (s.phase = .leaves → decode (.select s.selector) = .ok .pqLeaf) ∧
    (0 < s.freqAt s.scan →
      ∃ t, exec .pqLeaf s = .next t ∧
        t = { s with node := t.node, nn := s.nn + 1, qn := s.qn + 1, scan := s.scan + 1 } ∧
        t.nodeAt s.nn = some (.leaf (BitVec.ofNat 9 s.scan) (s.freqAt s.scan) true) ∧
        ∀ i, i < s.nn → t.nodeAt i = s.nodeAt i) ∧
    (s.freqAt s.scan = 0 → exec .pqLeaf s = .next { s with scan := s.scan + 1 })

/-- The three steps that only end a phase (R117, R130, R147). -/
def Obligations.PhaseEnds : Prop :=
  ∀ s : State,
    exec .pqScanEnd s = .next { s with phase := .merge } ∧ exec .tblEnd s = .next { s with phase := .wmagic } ∧
    exec .serEnd s = .next { s with phase := .encode }

/-- `removeMin()` (R112): defined when QN >= 1, it returns the index with the least (weight, index) among the nodes with
INQ == 1, clears its INQ, lowers QN by 1, and changes no other node. -/
def Obligations.RemoveMinTakesTheLeast : Prop :=
  ∀ s : State, Table.wf 513 s.node = true →
    (∀ i nd (k : Nat → Node → State → Result), 0 < s.qn → s.least i nd →
      ∃ t, removeMin s k = k i nd t ∧ t = { s with node := t.node, qn := s.qn - 1 } ∧
        t.nodeAt i = some (nd.setInq false) ∧ ∀ j, j ≠ i → t.nodeAt j = s.nodeAt j) ∧
    ((∃ i nd, s.nodeAt i = some nd ∧ nd.inq = true) → ∃ i nd, s.least i nd)

/-- PQ.MERGE (R113), selected in P_MERGE where QN >= 2: the node removed first becomes the left child, the second the right child, of the new node NODE[NN],
whose weight is their sum; both leave the structure, the new node enters it. -/
def Obligations.MergeTheTwoLeast : Prop :=
  ∀ (s : State) (a b : Nat) (na nb : Node), Table.wf 513 s.node = true → 2 ≤ s.qn → s.nn < 513 →
    s.least a na → s.leastBut a b nb →
    (s.phase = .merge → decode (.select s.selector) = .ok .pqMerge) ∧
    ∃ t, exec .pqMerge s = .next t ∧ t = { s with node := t.node, nn := s.nn + 1, qn := s.qn - 1 } ∧
      t.nodeAt s.nn = some (.inner (na.wgt + nb.wgt) (some a) (some b) true) ∧
      t.nodeAt a = some (na.setInq false) ∧ t.nodeAt b = some (nb.setInq false) ∧
      ∀ j, j < s.nn → j ≠ a → j ≠ b → t.nodeAt j = s.nodeAt j

/-- PQ.WRAP (R115), selected in P_MERGE where QN == 1 and NN == 1: the lone leaf leaves the structure and becomes the left child of NODE[2], whose right child is the
placeholder leaf NODE[1] of symbol 0 and weight 0. -/
def Obligations.WrapTheLoneLeaf : Prop :=
  ∀ (s : State) (n0 : Node), s.nodeAt 0 = some n0 →
    (s.phase = .merge → s.qn = 1 → s.nn = 1 → decode (.select s.selector) = .ok .pqWrap) ∧
    ∃ t, exec .pqWrap s = .next t ∧ t = { s with node := t.node, nn := 3 } ∧ t.nodeAt 0 = some (n0.setInq false) ∧
      t.nodeAt 1 = some (.leaf 0 0 false) ∧ t.nodeAt 2 = some (.inner n0.wgt (some 0) (some 1) true)

/-- PQ.ROOT (R114), selected in P_MERGE where QN == 1 and NN > 1: the node removed is the root, it is pushed with the empty code, PHASE is P_DERIVE. -/
def Obligations.LastNodeIsTheRoot : Prop :=
  ∀ (s : State) (i : Nat) (nd : Node), Table.wf 513 s.node = true → 0 < s.qn → s.sp < 513 → s.least i nd →
    (s.phase = .merge → s.qn = 1 → 1 < s.nn → decode (.select s.selector) = .ok .pqRoot) ∧
    ∃ t, exec .pqRoot s = .next t ∧
      t = { s with node := t.node, stk := t.stk, qn := s.qn - 1, root := some i, sp := s.sp + 1, phase := .derive } ∧
      t.nodeAt i = some (nd.setInq false) ∧ (∀ j, j ≠ i → t.nodeAt j = s.nodeAt j) ∧
      Table.get? t.stk s.sp = some { n := some i, code := some { len := 0, bits := 0 } } ∧
      ∀ p, p < s.sp → Table.get? t.stk p = Table.get? s.stk p

/-! ## Code table -/

/-- TBL.STEP (R126), selected in P_DERIVE while SP > 0: at a leaf the popped code becomes CODE[SYM] and no other entry changes; at an internal node the right
child is pushed with a 1 appended, then the left with a 0 appended, each with LEN + 1. -/
def Obligations.VisitOneNode : Prop :=
  ∀ (s : State) (n : Nat) (c : Code), s.top = some { n := some n, code := some c } →
    (s.phase = .derive → decode (.select s.selector) = .ok .tblStep) ∧
    (∀ sym w q, s.nodeAt n = some (.leaf sym w q) → sym.toNat ≤ 256 →
      Table.wfD 257 { len := 0, bits := 0 } s.code = true →
      ∃ t, exec .tblStep s = .next t ∧ t = { s with code := t.code, sp := s.sp - 1 } ∧
        ∀ i, t.codeAt i = if i = sym.toNat then c else s.codeAt i) ∧
    (∀ w l r q, s.nodeAt n = some (.inner w l r q) → c.len + 1 ≤ 256 → s.sp ≤ 512 →
      ∃ t, exec .tblStep s = .next t ∧ t = { s with stk := t.stk, sp := s.sp + 1 } ∧
        Table.get? t.stk (s.sp - 1) = some { n := r, code := some { len := c.len + 1, bits := (c.bits <<< 1) ||| 1 } } ∧
        Table.get? t.stk s.sp = some { n := l, code := some { len := c.len + 1, bits := c.bits <<< 1 } } ∧
        ∀ p, p + 1 < s.sp → Table.get? t.stk p = Table.get? s.stk p)

/-! ## Serialiser and compressor -/

/-- WR.MAGIC (R156): the 32 bits of MAGIC are appended to OUT, the root is pushed, PHASE is P_SER. -/
def Obligations.WriteTheMagicWord : Prop :=
  ∀ s : State, s.answer = .ok → s.sp < 513 →
    ∃ t, exec .wrMagic s = .next t ∧
      t = { s with out := { s.out with bits := s.out.bits ++ bitsOf 32 s.par.magic.toNat },
                   answers := s.answers.tail, stk := t.stk, sp := s.sp + 1, phase := .ser } ∧
      (∃ c, Table.get? t.stk s.sp = some { n := s.root, code := c }) ∧
      ∀ p, p < s.sp → Table.get? t.stk p = Table.get? s.stk p

/-- SER.INT and SER.LEAF (R136, R137): the popped node's token is appended to OUT, "0" or "1" and the symbol in 9 bits; an
internal node's right child is pushed, then its left; NODE is not changed. -/
def Obligations.SerialiseOneNode : Prop :=
  ∀ (s : State) (n : Nat) (c : Option Code), s.top = some { n := some n, code := c } →
    (∀ w l r q, s.nodeAt n = some (.inner w l r q) → s.answer = .ok → s.sp ≤ 512 →
      ∃ t, exec .serInt s = .next t ∧
        t = { s with out := { s.out with bits := s.out.bits ++ [false] }, answers := s.answers.tail, stk := t.stk,
                     sp := s.sp + 1 } ∧
        (∃ d, Table.get? t.stk (s.sp - 1) = some { n := r, code := d }) ∧
        (∃ d, Table.get? t.stk s.sp = some { n := l, code := d }) ∧
        ∀ p, p + 1 < s.sp → Table.get? t.stk p = Table.get? s.stk p) ∧
    (∀ sym w q, s.nodeAt n = some (.leaf sym w q) → s.servesTwo →
      exec .serLeaf s = .next { s with out := { s.out with bits := s.out.bits ++ true :: bitsOf 9 sym.toNat },
                                       answers := s.answers.tail.tail, sp := s.sp - 1 })

/-- ENC.BYTE (R158, R159): the byte read is consumed and the LEN bits of its code are appended to OUT; a byte without a code
raises E_NOCODE, consumed, with nothing written. ENC.EOD (R160): at end of input the sentinel's code is appended and
PHASE is P_CLOSE. -/
def Obligations.EncodePayload : Prop :=
  ∀ s : State,
    (s.answer = .ok → s.inp.pos + 8 ≤ s.inp.len → ∀ v c, v = valOf (s.inp.next 8) → c = s.codeAt v →
      (c.len ≠ 0 → s.called.answer = .ok →
        exec .encByte s = .next { s with inp := { s.inp with pos := s.inp.pos + 8 }, answers := s.answers.tail.tail,
                                         out := { s.out with bits := s.out.bits ++ bitsOf c.len c.bits.toNat } }) ∧
      (c.len = 0 →
        exec .encByte s = .next { s with inp := { s.inp with pos := s.inp.pos + 8 }, answers := s.answers.tail,
                                         errcode := .eNocode, phase := .fault })) ∧
    (s.servesTwo → s.inp.len < s.inp.pos + 8 →
      exec .encEod s = .next { s with
        answers := s.answers.tail.tail, phase := .close
        out := { s.out with bits := s.out.bits ++ bitsOf (s.codeAt 256).len (s.codeAt 256).bits.toNat } })

/-- CLOSE (R161, R48): PHASE is P_DONE, the flag is set, T itself is unchanged, and what is delivered is T and 0 to 7 pad
bits that reach a byte boundary, whatever their values. That this holds also of an OUT closed already, what was delivered
earlier being replaced, is the model's choice (log 26): the spec says nothing of a second close(). -/
def Obligations.CloseDelivers : Prop :=
  ∀ s : State, s.answer = .ok →
    ∃ t pad, exec .close s = .next t ∧
      t = { s with out := t.out, answers := s.answers.tail, draws := t.draws, phase := .done } ∧
      t.out.bits = s.out.bits ∧ t.out.closed = true ∧ pad.length < 8 ∧ (s.out.bits.length + pad.length) % 8 = 0 ∧
      bitsOfBytes t.out.delivered = s.out.bits ++ pad

/-! ## Deserialiser and decompressor -/

/-- RD.MAGIC, and the token MAGIC where it is the next (R176, R71): equal to the parameter, PHASE is P_DESER; different, or
fewer than 32 bits left, E_FORMAT, a short stream with its cursor unmoved. OUT is not touched. -/
def Obligations.CheckTheMagicWord : Prop :=
  ∀ s : State, s.answer = .ok →
    (∀ (i : Instr) (m : Word), s.inp.pos + 32 ≤ s.inp.len → s.inp.next 32 = bitsOf 32 m.toNat →
      (i = .rdMagic ∨ i = .magic m ∧ s.phase = .rmagic) →
      (m = s.par.magic →
        exec i s = .next { s with inp := { s.inp with pos := s.inp.pos + 32 }, answers := s.answers.tail,
                                  phase := .deser }) ∧
      (m ≠ s.par.magic →
        exec i s = .next { s with inp := { s.inp with pos := s.inp.pos + 32 }, answers := s.answers.tail,
                                  errcode := .eFormat, phase := .fault })) ∧
    (s.inp.len < s.inp.pos + 32 →
      exec .rdMagic s = .next { s with answers := s.answers.tail, errcode := .eFormat, phase := .fault })

/-- DES.INT, and the token HDR.INT where it is the next (R141, R72): the tag bit 0 is consumed, NODE[NN] becomes an internal
node without children, it is attached (R140) and pushed. -/
def Obligations.ReadInternalToken : Prop :=
  ∀ (s : State) (i : Instr), (i = .desInt ∨ i = .hdrInt ∧ s.tokenPos = some .header) →
    s.nn < 513 → s.sp < 513 → s.answer = .ok → s.inp.pos + 1 ≤ s.inp.len → s.inp.next 1 = [false] → s.openTop →
    ∃ t, exec i s = .next t ∧
      t = { s with inp := { s.inp with pos := s.inp.pos + 1 }, answers := s.answers.tail, node := t.node,
                   nn := s.nn + 1, root := t.root, stk := t.stk, sp := s.sp + 1 } ∧
      t.nodeAt s.nn = some (.inner 0 none none false) ∧ Attached s t s.nn ∧
      (∃ c, Table.get? t.stk s.sp = some { n := some s.nn, code := c }) ∧
      ∀ p, p < s.sp → Table.get? t.stk p = Table.get? s.stk p

/-- DES.LEAF, and the token HDR.LEAF where it is the next (R142, R143, R73): the 10 bits are consumed, NODE[NN] becomes the
leaf of the symbol, it is attached, and the completed nodes on top of the stack are popped, no others. -/
def Obligations.ReadLeafToken : Prop :=
  ∀ (s : State) (i : Instr) (sym : Sym), (i = .desLeaf ∨ i = .hdrLeaf sym ∧ s.tokenPos = some .header) →
    s.nn < 513 → s.servesTwo → s.inp.pos + 10 ≤ s.inp.len → s.inp.next 10 = true :: bitsOf 9 sym.toNat →
    sym.toNat ≤ 256 → s.openStack →
    ∃ t, exec i s = .next t ∧
      t = { s with inp := { s.inp with pos := s.inp.pos + 10 }, answers := s.answers.tail.tail, node := t.node,
                   nn := s.nn + 1, root := t.root, sp := t.sp } ∧
      t.nodeAt s.nn = some (.leaf sym 0 false) ∧ Attached s t s.nn ∧ t.sp ≤ s.sp ∧
      (∀ p, t.sp ≤ p → p < s.sp → ∃ n c nd, Table.get? s.stk p = some { n := some n, code := c } ∧
        t.nodeAt n = some nd ∧ nd.right ≠ none) ∧
      (0 < t.sp → ∃ n c nd, t.top = some { n := some n, code := c } ∧ t.nodeAt n = some nd ∧ nd.right = none)

/-- The faults of the header and their order (R141, R142, R222): with 513 nodes E_TREEOVF before any read; no tag bit left,
E_HEADER with nothing consumed; fewer than 9 symbol bits, E_HEADER with the tag consumed; a symbol above 256, E_RSVSYM
with all 10 bits consumed. No node is allocated. -/
def Obligations.HeaderFaults : Prop :=
  ∀ s : State,
    (∀ i, (i = Instr.desInt ∨ i = Instr.desLeaf) →
      (s.nn = 513 → exec i s = .next { s with errcode := .eTreeovf, phase := .fault }) ∧
      (s.nn ≠ 513 → s.answer = .ok → s.inp.len < s.inp.pos + 1 →
        exec i s = .next { s with answers := s.answers.tail, errcode := .eHeader, phase := .fault })) ∧
    (s.nn ≠ 513 → s.servesTwo → s.inp.pos + 1 ≤ s.inp.len → s.inp.next 1 = [true] →
      (s.inp.len < s.inp.pos + 10 →
        exec .desLeaf s = .next { s with inp := { s.inp with pos := s.inp.pos + 1 }, answers := s.answers.tail.tail,
                                         errcode := .eHeader, phase := .fault }) ∧
      (∀ (i : Instr) (sym : Sym), (i = .desLeaf ∨ i = .hdrLeaf sym ∧ s.tokenPos = some .header) →
        s.inp.pos + 10 ≤ s.inp.len → s.inp.next 10 = true :: bitsOf 9 sym.toNat → 256 < sym.toNat →
        exec i s = .next { s with inp := { s.inp with pos := s.inp.pos + 10 }, answers := s.answers.tail.tail,
                                  errcode := .eRsvsym, phase := .fault }))

/-- DES.END (R144, R217), selected in P_DESER where NN > 0 and SP == 0: a root that is a leaf raises E_ROOTLEAF; else CUR is ROOT and PHASE is P_DECODE. It reads no
bit. -/
def Obligations.HeaderEnd : Prop :=
  ∀ (s : State) (r : Nat) (nd : Node), s.root = some r → s.nodeAt r = some nd →
    (s.phase = .deser → s.sp = 0 → decode (.select s.selector) = .ok .desEnd) ∧
    (nd.kindBit = true → exec .desEnd s = .next { s with errcode := .eRootleaf, phase := .fault }) ∧
    (nd.kindBit = false → exec .desEnd s = .next { s with cur := some r, phase := .decode })

/-- DEC.BIT, and the token PAY.BIT where it is the next (R178 to R181, R76): one bit consumed, left on 0, right on 1; on an
internal node the walk stays; on a literal leaf its byte is appended to OUT and CUR is ROOT; on the sentinel PHASE is
P_CLOSE and nothing is written; with no bit left E_TRUNC. -/
def Obligations.DecodeOneBit : Prop :=
  ∀ s : State, s.answer = .ok →
    (s.inp.len < s.inp.pos + 1 →
      exec .decBit s = .next { s with answers := s.answers.tail, errcode := .eTrunc, phase := .fault }) ∧
    (∀ (i : Instr) (b : Bool) (c w l r : Nat) (q : Bool) (m : Nat),
      (i = .decBit ∨ i = .payBit b ∧ s.phase = .decode) → s.inp.pos + 1 ≤ s.inp.len → s.inp.next 1 = [b] →
      s.cur = some c → s.nodeAt c = some (.inner w (some l) (some r) q) → m = (if b then r else l) →
      (∀ w' l' r' q', s.nodeAt m = some (.inner w' l' r' q') →
        exec i s = .next { s with inp := { s.inp with pos := s.inp.pos + 1 }, answers := s.answers.tail,
                                  cur := some m }) ∧
      (∀ sym w' q', s.nodeAt m = some (.leaf sym w' q') → sym.toNat = 256 →
        exec i s = .next { s with inp := { s.inp with pos := s.inp.pos + 1 }, answers := s.answers.tail,
                                  cur := some m, phase := .close }) ∧
      (∀ sym w' q', s.nodeAt m = some (.leaf sym w' q') → sym.toNat ≤ 255 → s.called.answer = .ok →
        exec i s = .next { s with inp := { s.inp with pos := s.inp.pos + 1 }, answers := s.answers.tail.tail,
                                  out := { s.out with bits := s.out.bits ++ bitsOf 8 sym.toNat }, cur := s.root }))

/-! ## What is not the next instruction -/

/-- A micro-operation whose first read, or whose popped node's kind, contradicts its selecting condition (R84), and a stream
token that does not stand at the cursor (R89), are not executed: each is refused by name. Nothing is said of the other
conditions of R84: exec does not check PHASE (log 22). -/
def Obligations.NotTheNextInstruction : Prop :=
  ∀ s : State,
    (s.answer = .ok → s.inp.len < s.inp.pos + 8 →
      exec .cntByte s = .refused .notSelected ∧ exec .encByte s = .refused .notSelected) ∧
    (s.answer = .ok → s.inp.pos + 8 ≤ s.inp.len →
      exec .cntEnd s = .refused .notSelected ∧ exec .encEod s = .refused .notSelected) ∧
    (s.answer = .ok → s.nn ≠ 513 → s.inp.pos + 1 ≤ s.inp.len →
      (s.inp.next 1 = [true] → exec .desInt s = .refused .notSelected) ∧
      (s.inp.next 1 = [false] → exec .desLeaf s = .refused .notSelected)) ∧
    (∀ n c nd, s.top = some { n := some n, code := c } → s.nodeAt n = some nd →
      (nd.kindBit = true → exec .serInt s = .refused .notSelected) ∧
      (nd.kindBit = false → exec .serLeaf s = .refused .notSelected)) ∧
    (∀ i : Instr, i.kind = .token → s.tokenAt ≠ some i → exec i s = .refused .notSelected)

/-! ## Failing and blocking calls -/

/-- Where the first channel call of a micro-operation returns IOERR(info), it raises E_IO (R214): IOINFO is info, no further
call is made (one answer is used up), nothing else of the core changes but what the pseudocode did before the call (the
pop of SER.INT and SER.LEAF), a read leaves OUT alone and a write IN. -/
def Obligations.FirstCallFails : Prop :=
  ∀ (s : State) (info : Word), s.answer = .ioerr info →
    (∀ i, (i ∈ [Instr.cntByte, .cntEnd, .encByte, .encEod, .rdMagic, .decBit] ∨
        (i = .desInt ∨ i = .desLeaf) ∧ s.nn ≠ 513) →
      ∃ t, exec i s = .next t ∧
        t = { s with errcode := .eIo, ioinfo := info, phase := .fault, answers := s.answers.tail,
                     inp := { s.inp with pos := t.inp.pos }, draws := t.draws }) ∧
    (∀ i, i ∈ [Instr.wrMagic, .close] →
      ∃ t, exec i s = .next t ∧
        t = { s with errcode := .eIo, ioinfo := info, phase := .fault, answers := s.answers.tail,
                     out := t.out, draws := t.draws }) ∧
    (∀ i n c nd, s.top = some { n := some n, code := c } → s.nodeAt n = some nd →
      (i = Instr.serInt ∧ nd.kindBit = false ∨ i = Instr.serLeaf ∧ nd.kindBit = true) →
      ∃ t, exec i s = .next t ∧
        t = { s with errcode := .eIo, ioinfo := info, phase := .fault, answers := s.answers.tail,
                     out := t.out, draws := t.draws, sp := s.sp - 1 })

/-- Where the second call of a step fails, the first has taken full effect (R223, R214): the rewind of CNT.END, the writes of
ENC.BYTE, ENC.EOD, SER.LEAF and DEC.BIT, the symbol read of DES.LEAF. -/
def Obligations.SecondCallFails : Prop :=
  ∀ (s : State) (info : Word), s.answer = .ok → s.called.answer = .ioerr info →
    (s.inp.len < s.inp.pos + 8 →
      (∃ t, exec .cntEnd s = .next t ∧
        t = { s with errcode := .eIo, ioinfo := info, phase := .fault, answers := s.answers.tail.tail,
                     inp := { s.inp with pos := t.inp.pos }, draws := t.draws, freq := t.freq } ∧
        ∀ i, t.freqAt i = if i = 256 then 1 else s.freqAt i) ∧
      (∃ t, exec .encEod s = .next t ∧
        t = { s with errcode := .eIo, ioinfo := info, phase := .fault, answers := s.answers.tail.tail,
                     out := t.out, draws := t.draws })) ∧
    (s.inp.pos + 8 ≤ s.inp.len → (s.codeAt (valOf (s.inp.next 8))).len ≠ 0 →
      ∃ t, exec .encByte s = .next t ∧
        t = { s with errcode := .eIo, ioinfo := info, phase := .fault, answers := s.answers.tail.tail,
                     inp := { s.inp with pos := s.inp.pos + 8 }, out := t.out, draws := t.draws }) ∧
    (∀ n c sym w q, s.top = some { n := some n, code := c } → s.nodeAt n = some (.leaf sym w q) →
      ∃ t, exec .serLeaf s = .next t ∧
        t = { s with errcode := .eIo, ioinfo := info, phase := .fault, answers := s.answers.tail.tail,
                     out := t.out, draws := t.draws, sp := s.sp - 1 }) ∧
    (s.nn ≠ 513 → s.inp.pos + 1 ≤ s.inp.len → s.inp.next 1 = [true] →
      ∃ t, exec .desLeaf s = .next t ∧
        t = { s with errcode := .eIo, ioinfo := info, phase := .fault, answers := s.answers.tail.tail,
                     inp := { s.inp with pos := t.inp.pos }, draws := t.draws }) ∧
    (∀ b c w l r q m sym w' q', s.inp.pos + 1 ≤ s.inp.len → s.inp.next 1 = [b] → s.cur = some c →
      s.nodeAt c = some (.inner w (some l) (some r) q) → m = (if b then r else l) →
      s.nodeAt m = some (.leaf sym w' q') → sym.toNat ≤ 255 →
      ∃ t, exec .decBit s = .next t ∧
        t = { s with errcode := .eIo, ioinfo := info, phase := .fault, answers := s.answers.tail.tail,
                     inp := { s.inp with pos := s.inp.pos + 1 }, out := t.out, draws := t.draws, cur := some m })

/-- A call that never returns (R50), the first of any micro-operation that makes one or the second where a step makes two: the
core keeps its phase and BUSY, with what the pseudocode did before the call (log 14); every later turn of the core changes
nothing; a hardware reset ends the wait. That the pending call leaves its own channel as it was before is the model's
choice (log 14): the spec says nothing of it. -/
def Obligations.BlockedCallWaits : Prop :=
  (∀ (s : State) (i : Instr), s.answer = .never →
    (i ∈ [Instr.cntByte, .cntEnd, .wrMagic, .encByte, .encEod, .close, .rdMagic, .decBit] ∨
      (i = .desInt ∨ i = .desLeaf) ∧ s.nn ≠ 513) →
    exec i s = .next { s with waiting := true, answers := s.answers.tail }) ∧
  (∀ (s : State) (i : Instr) (n : Nat) (c : Option Code) (nd : Node), s.answer = .never →
    s.top = some { n := some n, code := c } → s.nodeAt n = some nd →
    (i = .serInt ∧ nd.kindBit = false ∨ i = .serLeaf ∧ nd.kindBit = true) →
    exec i s = .next { s with waiting := true, answers := s.answers.tail, sp := s.sp - 1 }) ∧
  (∀ s : State, s.answer = .ok → s.called.answer = .never →
    (s.inp.len < s.inp.pos + 8 →
      (∃ t, exec .cntEnd s = .next t ∧
        t = { s with waiting := true, answers := s.answers.tail.tail, freq := t.freq } ∧
        ∀ i, t.freqAt i = if i = 256 then 1 else s.freqAt i) ∧
      exec .encEod s = .next { s with waiting := true, answers := s.answers.tail.tail }) ∧
    (s.inp.pos + 8 ≤ s.inp.len → (s.codeAt (valOf (s.inp.next 8))).len ≠ 0 →
      exec .encByte s = .next { s with waiting := true, answers := s.answers.tail.tail,
                                       inp := { s.inp with pos := s.inp.pos + 8 } }) ∧
    (∀ n c sym w q, s.top = some { n := some n, code := c } → s.nodeAt n = some (.leaf sym w q) →
      exec .serLeaf s = .next { s with waiting := true, answers := s.answers.tail.tail, sp := s.sp - 1,
                                       out := { s.out with bits := s.out.bits ++ [true] } }) ∧
    (s.nn ≠ 513 → s.inp.pos + 1 ≤ s.inp.len → s.inp.next 1 = [true] →
      exec .desLeaf s = .next { s with waiting := true, answers := s.answers.tail.tail,
                                       inp := { s.inp with pos := s.inp.pos + 1 } }) ∧
    (∀ b c w l r q m sym w' q', s.inp.pos + 1 ≤ s.inp.len → s.inp.next 1 = [b] → s.cur = some c →
      s.nodeAt c = some (.inner w (some l) (some r) q) → m = (if b then r else l) →
      s.nodeAt m = some (.leaf sym w' q') → sym.toNat ≤ 255 →
      exec .decBit s = .next { s with waiting := true, answers := s.answers.tail.tail, cur := some m,
                                      inp := { s.inp with pos := s.inp.pos + 1 } })) ∧
  (∀ s : State, s.waiting = true → s.moves = [] → step s = .next s) ∧
  (∀ (s t : State), s.waiting = true → step s = .next t → t.waiting = false → ∃ ms, s.moves = .reset :: ms)

/-! ## Whole-machine rules -/

/-- In P_IDLE, P_DONE and P_FAULT the core has no step: on its own nothing changes (R204), so a fault is final (R220). -/
def Obligations.QuiescentStays : Prop :=
  ∀ s : State, s.quiescent → s.moves = [] → step s = .next s

/-- The ways out of P_DONE and P_FAULT (R201, R225): a CR0 write of COMPRESS, DECOMPRESS or CLEAR, or a hardware reset; the
one further change is the reserved opcode, which leads into P_FAULT (R226). -/
def Obligations.WaysOutOfDoneAndFault : Prop :=
  ∀ s t : State, (s.phase = .done ∨ s.phase = .fault) → step s = .next t → t.phase ≠ s.phase →
    (∃ ms, s.moves = .reset :: ms) ∨
    ∃ w ms, s.moves = .write .cmd w :: ms ∧
      (decodeCommand w = .compress ∨ decodeCommand w = .decompress ∨ decodeCommand w = .clear ∨
        (∃ op, decodeCommand w = .cmdRsvd op) ∧ t.phase = .fault ∧ t.errcode = .eBadcmd)

/-- The order of phases (R155, R175): on the core's own steps a phase repeats, goes to the one successor its sequence gives,
or ends in P_FAULT where it makes channel calls. -/
def Obligations.PhasesFollowTheirOrder : Prop :=
  ∀ s t : State, s.moves = [] → step s = .next t → t.phase ∈ s.phase.successors

/-- Each table and working register is written only in its phases (R17, R19, R20, R22, R23, R57): FREQ in P_COUNT, CODE in
P_DERIVE, NODE and NN in P_LEAVES, P_MERGE and P_DESER, QN in P_LEAVES and P_MERGE, SCAN in P_LEAVES, ROOT in P_MERGE and
P_DESER, CUR in P_DESER and P_DECODE, STK and SP in P_MERGE, P_DERIVE, P_WMAGIC, P_SER and P_DESER; the tree is immutable
once built or read. -/
def Obligations.TablesAreWrittenOnlyInTheirPhases : Prop :=
  ∀ s t : State, s.moves = [] → step s = .next t →
    (s.phase ≠ .count → t.freq = s.freq) ∧ (s.phase ≠ .derive → t.code = s.code) ∧
    (s.phase ≠ .leaves → s.phase ≠ .merge → s.phase ≠ .deser → t.node = s.node ∧ t.nn = s.nn) ∧
    (s.phase ≠ .leaves → s.phase ≠ .merge → t.qn = s.qn) ∧ (s.phase ≠ .leaves → t.scan = s.scan) ∧
    (s.phase ≠ .merge → s.phase ≠ .deser → t.root = s.root) ∧
    (s.phase ≠ .deser → s.phase ≠ .decode → t.cur = s.cur) ∧
    (s.phase ∉ [Phase.merge, .derive, .wmagic, .ser, .deser] → t.stk = s.stk ∧ t.sp = s.sp)

/-- The channels over a step of the core: the parameters and the input's bytes never change (R42, R250) but by a rewind onto
a changed input (R58); OUT is not touched before the magic word is written or the tree header read (R155, R175); and where no
call fails OUT only grows (R45). -/
def Obligations.ChannelsOverOneStep : Prop :=
  ∀ s t : State, s.moves = [] → step s = .next t →
    t.par = s.par ∧
    (s.phase ≠ .count ∨ s.inp.again = none → t.inp.bytes = s.inp.bytes) ∧
    (s.phase ∈ [Phase.idle, .done, .fault, .count, .leaves, .merge, .derive, .rmagic, .deser] → t.out = s.out) ∧
    ((∀ a ∈ s.answers, a = .ok) → s.out.bits <+: t.out.bits)

/-! ## The invariant -/

/-- The state after reset meets the invariant. -/
def Obligations.ResetMeetsTheInvariant : Prop := State.reset.Inv

/-- Every step, whoever makes it, keeps the invariant: tables canonical and in range, registers in their ranges, ERRCODE set
exactly in P_FAULT, IOINFO zero outside it, and each phase's facts about the arena and the stack. -/
def Obligations.StepKeepsTheInvariant : Prop :=
  ∀ s t : State, s.Inv → step s = .next t → t.Inv

/-- From a state that meets the invariant no step reads an entry that holds no value, runs out of a table, or finds no row
of the phase map (R11, R128, R139, R145, R177): no step ends in a fault of the model. -/
def Obligations.NoStepReadsAnUnwrittenEntry : Prop :=
  ∀ (s : State) (f : Fault), s.Inv → step s ≠ .fault f

/-- Weights fit (R9): with counters of w bits, while the tree is built the weights in the structure sum to at most SCAN full
counters and no weight reaches 2^(w + 9). -/
def Obligations.WeightsNeverOverflow : Prop :=
  ∀ (s t : State) (w : Nat), s.Inv → s.par.cntW = some w → s.weightInv w → step s = .next t →
    t.weightInv w ∧ (t.phase = .leaves ∨ t.phase = .merge → ∀ i nd, t.nodeAt i = some nd → nd.wgt < 2 ^ (w + 9))

/-- Nothing carries over from one command to the next (R5, R196): two command starts on the same channels, parameters and
moves look the same for ever, whatever the states before held. -/
def Obligations.NothingCarriesOver : Prop :=
  ∀ (s s' : State) (p : Phase) (k : Nat) (u : State), (p = .count ∨ p = .rmagic) → s.Inv → s'.Inv →
    s.inp = s'.inp → s.out = s'.out → s.answers = s'.answers → s.par = s'.par → s.moves = s'.moves →
    s.waiting = s'.waiting → s.draws = s'.draws →
    run k (commandStart p s) = .next u → ∃ u', run k (commandStart p s') = .next u' ∧ u.view = u'.view

/-! ## Trees -/

/-- The codes of a tree (R129): prefix-free, of length at least 1 where the root is internal and below the number of leaves, so
at most 256 for at most 257 leaves, their Kraft sum exactly 1; a code leads to its leaf; and a tree of L leaves has
2 L - 1 nodes (R8). And so of the CODE table that P_DERIVE leaves of a tree with one leaf for each of its symbols: no
entry with a code is a prefix of another, every such LEN is 1 to 256, and the Kraft sum over the table is 1. -/
def Obligations.TreeCodesArePrefixFree : Prop :=
  (∀ t : HTree,
    (t.codes []).Pairwise (fun a b => ¬ a.2 <+: b.2 ∧ ¬ b.2 <+: a.2) ∧
    (∀ e ∈ t.codes [], (t.isNode = true → 1 ≤ e.2.length) ∧ e.2.length ≤ t.depth ∧
      (t.syms.length ≤ 257 → e.2.length ≤ 256)) ∧
    t.depth < t.syms.length ∧
    (∀ n, t.depth ≤ n → ((t.codes []).map fun e => 2 ^ (n - e.2.length)).sum = 2 ^ n) ∧
    t.size + 1 = 2 * t.syms.length ∧
    ∀ sym p, (sym, p) ∈ t.codes [] ↔ t.follow p = some sym) ∧
  ∀ (s : State) (r : Nat) (tr : HTree) (ns : List Nat), s.Alone → s.phase = .derive → s.code = [] →
    s.sp = 1 → s.top = some { n := some r, code := some { len := 0, bits := 0 } } → s.treeAt r tr ns →
    tr.isNode = true → tr.syms.Nodup →
    ∃ t, run (tr.size + 1) s = .next t ∧ t.phase = .wmagic ∧
      (∀ v, (t.codeAt v).len ≠ 0 → 1 ≤ (t.codeAt v).len ∧ (t.codeAt v).len ≤ 256) ∧
      (∀ v w, v ≠ w → (t.codeAt v).len ≠ 0 → (t.codeAt w).len ≠ 0 → ¬ (t.codeAt v).word <+: (t.codeAt w).word) ∧
      ((List.range 257).map fun v => if (t.codeAt v).len = 0 then 0 else 2 ^ (256 - (t.codeAt v).len)).sum = 2 ^ 256

/-! ## The phases as functions -/

/-- P_COUNT as a function (R103, R100): from command start, for an input of k bytes whose counts fit, after k + 1 steps
FREQ[s] is the number of bytes of value s, FREQ[256] is 1, the sum of all is k + 1, IN is at its start again, PHASE is
P_LEAVES; nothing else changes. -/
def Obligations.CountingPass : Prop :=
  ∀ s : State, s.Alone → s.phase = .count → s.freq = [] → s.inp.pos = 0 → s.inp.again = none →
    (∀ w v, s.par.cntW = some w → occurs v s.inp.bytes < 2 ^ w) →
    ∃ t, run (s.inp.bytes.length + 1) s = .next t ∧ t = { s with phase := .leaves, freq := t.freq } ∧
      t.freqAt 256 = 1 ∧ (∀ v, v < 256 → t.freqAt v = occurs v s.inp.bytes) ∧
      ((List.range 257).map t.freqAt).sum = s.inp.bytes.length + 1

/-- The builder (R110, R116): from P_LEAVES with FREQ[256] == 1 it reaches P_DERIVE in at most 515 steps (R256) with `Tree(ROOT)`,
an internal root at NN - 1, exactly one leaf for each symbol that occurs, besides only the placeholder 0 when no byte occurs,
and the stack holding (ROOT, 0, 0). -/
def Obligations.BuilderMakesTheTree : Prop :=
  ∀ s : State, s.Inv → s.Alone → s.phase = .leaves → s.scan = 0 → s.freqAt 256 = 1 →
    ∃ k t r tr ns, k ≤ 515 ∧ run k s = .next t ∧ t.phase = .derive ∧ t.root = some r ∧ r + 1 = t.nn ∧
      t.treeAt r tr ns ∧ ns.Nodup ∧ tr.isNode = true ∧ tr.syms.Nodup ∧
      (∀ sym : Sym, sym ∈ tr.syms ↔
        sym.toNat ≤ 256 ∧ 0 < s.freqAt sym.toNat ∨ sym = 0 ∧ ∀ v, v < 256 → s.freqAt v = 0) ∧
      t.sp = 1 ∧ t.top = some { n := some r, code := some { len := 0, bits := 0 } } ∧ t.qn = 0 ∧
      t.freq = s.freq ∧ t.code = s.code ∧ t.inp = s.inp ∧ t.out = s.out ∧ t.par = s.par ∧ t.Alone

/-- P_DERIVE as a function of the tree (R127): after one step per node and TBL.END, CODE[s] is the path to s for every leaf,
LEN with leading zeros kept, and every other entry has no code; NODE, FREQ and the channels are as before. -/
def Obligations.DerivedCodesArePaths : Prop :=
  ∀ (s : State) (r : Nat) (tr : HTree) (ns : List Nat), s.Alone → s.phase = .derive → s.code = [] →
    s.sp = 1 → s.top = some { n := some r, code := some { len := 0, bits := 0 } } → s.treeAt r tr ns →
    tr.depth ≤ 256 → tr.isNode = true → tr.syms.Nodup →
    ∃ t, run (tr.size + 1) s = .next t ∧ t = { s with phase := .wmagic, code := t.code, stk := t.stk, sp := 0 } ∧
      (∀ sym p, (sym, p) ∈ tr.codes [] →
        t.codeAt sym.toNat = { len := p.length, bits := BitVec.ofNat 256 (valOf p) }) ∧
      ∀ v, (∀ sym ∈ tr.syms, sym.toNat ≠ v) → t.codeAt v = { len := 0, bits := 0 }

/-- P_SER appends exactly the tree header (R138, R135), 10 bits a leaf and 1 bit an internal node, 11 L - 1 bits for L leaves:
one step per node and SER.END; NODE is not changed. -/
def Obligations.SerialiserAppendsTheHeader : Prop :=
  ∀ (s : State) (r : Nat) (c : Option Code) (tr : HTree) (ns : List Nat), s.Alone → s.phase = .ser →
    s.sp = 1 → s.top = some { n := some r, code := c } → s.treeAt r tr ns → tr.depth ≤ 256 →
    tr.header.length + 1 = 11 * tr.syms.length ∧
    ∃ t, run (tr.size + 1) s = .next t ∧
      t = { s with phase := .encode, stk := t.stk, sp := 0,
                   out := { s.out with bits := s.out.bits ++ tr.header } }

/-- The deserialiser inverts the serialiser (R146): on the header of a tree of at most 513 nodes with an internal root and
symbols up to 256, followed by any bits x, it builds that tree at node 0, enters P_DECODE with CUR == ROOT == 0 and leaves the
cursor on the first bit of x. -/
def Obligations.DeserialiserInvertsTheSerialiser : Prop :=
  ∀ (s : State) (tr : HTree) (x : Bits), s.Alone → s.phase = .deser → s.nn = 0 → s.sp = 0 → s.root = none →
    s.inp.pos ≤ s.inp.len → s.inp.rest = tr.header ++ x → tr.isNode = true → tr.size ≤ 513 →
    (∀ sym ∈ tr.syms, sym.toNat ≤ 256) →
    ∃ t ns, run (tr.size + 1) s = .next t ∧
      t = { s with phase := .decode, nn := tr.size, root := some 0, cur := some 0, node := t.node, stk := t.stk,
                   inp := { s.inp with pos := s.inp.pos + tr.header.length } } ∧
      t.treeAt 0 tr ns ∧ ns.Nodup ∧ t.inp.rest = x

/-- The decoder's walk (R178 to R180): on the code words of any literal leaves, then one of a sentinel leaf, then any bits x,
it writes the leaves' bytes in order, enters P_CLOSE at the sentinel, and never looks at x. It holds for any tree, also one
with several leaves of a symbol (R81). -/
def Obligations.DecoderWalksThePayload : Prop :=
  ∀ (s : State) (r : Nat) (tr : HTree) (ns : List Nat) (words : List (Bits × Sym)) (last x : Bits),
    s.Alone → s.phase = .decode → s.root = some r → s.cur = some r → s.treeAt r tr ns → tr.isNode = true →
    s.inp.pos ≤ s.inp.len → (∀ e ∈ words, tr.follow e.1 = some e.2 ∧ e.2.toNat ≤ 255) →
    tr.follow last = some 256 → s.inp.rest = (words.map Prod.fst).flatten ++ last ++ x →
    ∃ t, run ((words.map Prod.fst).flatten.length + last.length) s = .next t ∧
      t = { s with phase := .close, cur := t.cur,
                   inp := { s.inp with pos := s.inp.pos + (words.map Prod.fst).flatten.length + last.length },
                   out := { s.out with bits := s.out.bits ++ (words.map fun e => bitsOf 8 e.2.toNat).flatten } }

/-- COMPRESS as a function (R162): on an input shorter than 2^CNT_W bytes it ends in P_DONE without a fault, the cursor at the
end, OUT closed; OUT holds the magic word, the header of the tree at ROOT, and the code words of the input's bytes and of
the sentinel, `code(s)` being the bit string of CODE[s]; T and 0 to 7 pad bits are delivered. The tree is the one the
builder leaves at the end of P_MERGE from FREQ with the counts of the input (R103), one leaf for each symbol that occurs
and besides only the placeholder 0 for the empty input (R115, R116). -/
def Obligations.CompressAsAFunction : Prop :=
  ∀ (s : State) (w : Word) (d : List Byte), s.Inv → s.busy = false → s.answers = [] →
    s.moves = [.write .cmd w] → decodeCommand w = .compress → s.inp = { bytes := d, pos := 0, again := none } →
    s.out.bits = [] → s.out.closed = false → (∀ c, s.par.cntW = some c → d.length < 2 ^ c) →
    ∃ (j k : Nat) (u t : State) (r : Nat) (tr : HTree) (ns : List Nat) (payload pad : Bits),
      run j s = .next u ∧ u.phase = .derive ∧ u.freqAt 256 = 1 ∧ (∀ v, v < 256 → u.freqAt v = occurs v d) ∧
      u.root = some r ∧ u.treeAt r tr ns ∧ j ≤ k ∧
      run k s = .next t ∧
      t.phase = .done ∧ t.errcode = .eNone ∧ t.inp = { bytes := d, pos := 8 * d.length, again := none } ∧
      t.root = some r ∧ t.treeAt r tr ns ∧ ns.Nodup ∧ tr.isNode = true ∧ tr.syms.Nodup ∧
      (∀ sym : Sym, sym ∈ tr.syms ↔
        sym.toNat = 256 ∨ sym.toNat < 256 ∧ 0 < occurs sym.toNat d ∨ sym = 0 ∧ d = []) ∧
      (∀ sym ∈ tr.syms, tr.codeOf sym = some (t.codeAt sym.toNat).word) ∧ tr.data d = some payload ∧
      t.out.bits = bitsOf 32 s.par.magic.toNat ++ tr.header ++ payload ∧ t.out.closed = true ∧
      pad.length < 8 ∧ bitsOfBytes t.out.delivered = t.out.bits ++ pad

/-- Round trip (R183): what COMPRESS delivers for a byte sequence, padded in any way and followed by any further bytes,
DECOMPRESS on the same core turns back into that sequence, bit for bit, both ending in P_DONE; no call fails, and the input
is shorter than 2^CNT_W bytes. -/
def Obligations.RoundTrip : Prop :=
  ∀ (s : State) (d extra : List Byte), s.Inv → s.busy = false → s.answers = [] →
    s.moves = [.write .cmd 1] → s.inp = { bytes := d, pos := 0, again := none } →
    s.out = { bits := [], closed := false, delivered := [] } → (∀ c, s.par.cntW = some c → d.length < 2 ^ c) →
    ∃ k t, run k s = .next t ∧ t.phase = .done ∧
      ∃ k' u, run k' { t with moves := [.write .cmd 2],
                              inp := { bytes := t.out.delivered ++ extra, pos := 0, again := none },
                              out := { bits := [], closed := false, delivered := [] } } = .next u ∧
        u.phase = .done ∧ u.out.bits = bitsOfBytes d ∧ u.out.delivered = d
end

