-- ==== Sys2Proof/Laws/Bits.lean ====
section
/-! SUPPORT. Bit order: values and bit strings turn into each other (spec/20_memory.md R41, R43, R45). -/

namespace Sys2Proof

@[simp] theorem bitsOf_length (n v : Nat) : (bitsOf n v).length = n := by
  induction n with
  | zero => rfl
  | succ n ih => simp [bitsOf, ih]

theorem valOf_lt (bs : Bits) : valOf bs < 2 ^ bs.length := by
  induction bs with
  | nil => simp [valOf]
  | cons b r ih =>
    simp only [valOf, List.length_cons, Nat.pow_succ]
    cases b <;> simp <;> omega

/-- Writing `n` bits of `v` and reading them back gives the low `n` bits of `v`. -/
theorem valOf_bitsOf (n v : Nat) : valOf (bitsOf n v) = v % 2 ^ n := by
  induction n with
  | zero => simp [bitsOf, valOf, Nat.mod_one]
  | succ n ih =>
    simp only [bitsOf, valOf, bitsOf_length, ih]
    rw [Nat.pow_succ, Nat.mod_mul, Nat.testBit_eq_decide_div_mod_eq]
    rcases Nat.mod_two_eq_zero_or_one (v / 2 ^ n) with h | h <;> simp [h] <;> omega

theorem bitsOf_congr {n v w : Nat} (h : ∀ i, i < n → v.testBit i = w.testBit i) : bitsOf n v = bitsOf n w := by
  induction n with
  | zero => rfl
  | succ n ih => simp [bitsOf, h n (by omega), ih fun i hi => h i (by omega)]

/-- Reading a bit string and writing it back gives it again. -/
theorem bitsOf_valOf (bs : Bits) : bitsOf bs.length (valOf bs) = bs := by
  induction bs with
  | nil => rfl
  | cons b r ih =>
    have hlt := valOf_lt r
    simp only [List.length_cons, bitsOf, valOf]
    congr 1
    · rw [Nat.testBit_eq_decide_div_mod_eq, Nat.add_comm, Nat.add_mul_div_right _ _ (by positivity),
        Nat.div_eq_of_lt hlt]
      cases b <;> simp
    · conv_rhs => rw [← ih]
      refine bitsOf_congr fun i hi => ?_
      rw [Nat.mul_comm, Nat.testBit_two_pow_mul_add _ hlt, if_pos hi]

@[simp] theorem streamBits_length (bytes : List Byte) (pos n : Nat) : (streamBits bytes pos n).length = n := by
  induction n generalizing pos with
  | zero => rfl
  | succ n ih => simp [streamBits, ih]

/-- Reading `m + n` bits is reading `m`, then `n` (R46). -/
theorem streamBits_add (bytes : List Byte) (pos m n : Nat) :
    streamBits bytes pos (m + n) = streamBits bytes pos m ++ streamBits bytes (pos + m) n := by
  induction m generalizing pos with
  | zero => simp [streamBits]
  | succ m ih =>
    rw [Nat.add_right_comm]
    simp [streamBits, ih, Nat.add_assoc, Nat.add_comm 1 m]

@[simp] theorem bitsOfBytes_length (bytes : List Byte) : (bitsOfBytes bytes).length = 8 * bytes.length := by
  induction bytes with
  | nil => rfl
  | cons b r ih => simp [bitsOfBytes, ih]; omega

theorem padLen_lt (n : Nat) : padLen n < 8 := Nat.mod_lt _ (by omega)

theorem padLen_fills (n : Nat) : (n + padLen n) % 8 = 0 := by
  unfold padLen; omega

end Sys2Proof
end

