-- ==== Sys2Proof/Laws/Decode.lean ====
section
/-! SUPPORT. The equations of the token decoder and of the encoder, to be cited instead of unfolding them. -/

namespace Sys2Proof

@[simp] theorem tokenBits_magic (m : Word) : tokenBits (.magic m) = bitsOf 32 m.toNat := rfl
@[simp] theorem tokenBits_hdrInt : tokenBits .hdrInt = [false] := rfl
@[simp] theorem tokenBits_hdrLeaf (sym : Sym) : tokenBits (.hdrLeaf sym) = true :: bitsOf 9 sym.toNat := rfl
@[simp] theorem tokenBits_payBit (b : Bool) : tokenBits (.payBit b) = [b] := rfl

theorem decodeToken_magic_eq (bits : Bits) :
    decodeToken .magic bits =
      if bits.length < 32 then .error .cutShort
      else .ok (.magic (BitVec.ofNat 32 (valOf (bits.take 32))), bits.drop 32) := rfl

theorem decodeToken_header_leaf (r : Bits) :
    decodeToken .header (true :: r) =
      if r.length < 9 then .error .cutShort
      else .ok (.hdrLeaf (BitVec.ofNat 9 (valOf (r.take 9))), r.drop 9) := rfl

@[simp] theorem decodeToken_header_int (r : Bits) : decodeToken .header (false :: r) = .ok (.hdrInt, r) := rfl
@[simp] theorem decodeToken_header_nil : decodeToken .header [] = .error .cutShort := rfl
@[simp] theorem decodeToken_payload_cons (b : Bool) (r : Bits) : decodeToken .payload (b :: r) = .ok (.payBit b, r) :=
  rfl
@[simp] theorem decodeToken_payload_nil : decodeToken .payload [] = .error .cutShort := rfl

theorem take_bitsOf_append (n v : Nat) (r : Bits) : (bitsOf n v ++ r).take n = bitsOf n v := by
  rw [List.take_append_of_le_length (by simp), List.take_of_length_le (by simp)]

theorem drop_bitsOf_append (n v : Nat) (r : Bits) : (bitsOf n v ++ r).drop n = r := by
  have := List.drop_left (l₁ := bitsOf n v) (l₂ := r)
  rwa [bitsOf_length] at this

/-- The first `n` bits read as an `n`-bit word and written out again are those bits. -/
theorem bitsOf_ofNat_valOf_take {n : Nat} {bits : Bits} (h : n ≤ bits.length) :
    bitsOf n (BitVec.ofNat n (valOf (bits.take n))).toNat = bits.take n := by
  have hl : (bits.take n).length = n := by simp; omega
  have hlt := valOf_lt (bits.take n)
  have hb := bitsOf_valOf (bits.take n)
  rw [hl] at hlt hb
  rw [BitVec.toNat_ofNat, Nat.mod_eq_of_lt hlt, hb]

end Sys2Proof
end

