-- ==== Sys2Proof/Laws/State.lean ====
section
/-! SUPPORT. One lemma per field per named update of State, true by rfl. -/

namespace Sys2Proof.Machine

section
variable (s : State) (p : Phase)
@[simp] theorem State.enter_phase : (s.enter p).phase = p := rfl
@[simp] theorem State.enter_errcode : (s.enter p).errcode = s.errcode := rfl
@[simp] theorem State.enter_ioinfo : (s.enter p).ioinfo = s.ioinfo := rfl
@[simp] theorem State.enter_nn : (s.enter p).nn = s.nn := rfl
@[simp] theorem State.enter_qn : (s.enter p).qn = s.qn := rfl
@[simp] theorem State.enter_root : (s.enter p).root = s.root := rfl
@[simp] theorem State.enter_cur : (s.enter p).cur = s.cur := rfl
@[simp] theorem State.enter_scan : (s.enter p).scan = s.scan := rfl
@[simp] theorem State.enter_sp : (s.enter p).sp = s.sp := rfl
@[simp] theorem State.enter_freq : (s.enter p).freq = s.freq := rfl
@[simp] theorem State.enter_node : (s.enter p).node = s.node := rfl
@[simp] theorem State.enter_code : (s.enter p).code = s.code := rfl
@[simp] theorem State.enter_stk : (s.enter p).stk = s.stk := rfl
@[simp] theorem State.enter_inp : (s.enter p).inp = s.inp := rfl
@[simp] theorem State.enter_out : (s.enter p).out = s.out := rfl
@[simp] theorem State.enter_answers : (s.enter p).answers = s.answers := rfl
@[simp] theorem State.enter_par : (s.enter p).par = s.par := rfl
@[simp] theorem State.enter_waiting : (s.enter p).waiting = s.waiting := rfl
@[simp] theorem State.enter_draws : (s.enter p).draws = s.draws := rfl
@[simp] theorem State.enter_moves : (s.enter p).moves = s.moves := rfl
@[simp] theorem State.enter_hostSaw : (s.enter p).hostSaw = s.hostSaw := rfl
end

section
variable (s : State) (i v : Nat)
@[simp] theorem State.setFreq_phase : (s.setFreq i v).phase = s.phase := rfl
@[simp] theorem State.setFreq_errcode : (s.setFreq i v).errcode = s.errcode := rfl
@[simp] theorem State.setFreq_ioinfo : (s.setFreq i v).ioinfo = s.ioinfo := rfl
@[simp] theorem State.setFreq_nn : (s.setFreq i v).nn = s.nn := rfl
@[simp] theorem State.setFreq_qn : (s.setFreq i v).qn = s.qn := rfl
@[simp] theorem State.setFreq_root : (s.setFreq i v).root = s.root := rfl
@[simp] theorem State.setFreq_cur : (s.setFreq i v).cur = s.cur := rfl
@[simp] theorem State.setFreq_scan : (s.setFreq i v).scan = s.scan := rfl
@[simp] theorem State.setFreq_sp : (s.setFreq i v).sp = s.sp := rfl
@[simp] theorem State.setFreq_freq : (s.setFreq i v).freq = Table.put s.freq 0 i v := rfl
@[simp] theorem State.setFreq_node : (s.setFreq i v).node = s.node := rfl
@[simp] theorem State.setFreq_code : (s.setFreq i v).code = s.code := rfl
@[simp] theorem State.setFreq_stk : (s.setFreq i v).stk = s.stk := rfl
@[simp] theorem State.setFreq_inp : (s.setFreq i v).inp = s.inp := rfl
@[simp] theorem State.setFreq_out : (s.setFreq i v).out = s.out := rfl
@[simp] theorem State.setFreq_answers : (s.setFreq i v).answers = s.answers := rfl
@[simp] theorem State.setFreq_par : (s.setFreq i v).par = s.par := rfl
@[simp] theorem State.setFreq_waiting : (s.setFreq i v).waiting = s.waiting := rfl
@[simp] theorem State.setFreq_draws : (s.setFreq i v).draws = s.draws := rfl
@[simp] theorem State.setFreq_moves : (s.setFreq i v).moves = s.moves := rfl
@[simp] theorem State.setFreq_hostSaw : (s.setFreq i v).hostSaw = s.hostSaw := rfl
end

section
variable (s : State) (i : Nat) (c : Code)
@[simp] theorem State.setCode_phase : (s.setCode i c).phase = s.phase := rfl
@[simp] theorem State.setCode_errcode : (s.setCode i c).errcode = s.errcode := rfl
@[simp] theorem State.setCode_ioinfo : (s.setCode i c).ioinfo = s.ioinfo := rfl
@[simp] theorem State.setCode_nn : (s.setCode i c).nn = s.nn := rfl
@[simp] theorem State.setCode_qn : (s.setCode i c).qn = s.qn := rfl
@[simp] theorem State.setCode_root : (s.setCode i c).root = s.root := rfl
@[simp] theorem State.setCode_cur : (s.setCode i c).cur = s.cur := rfl
@[simp] theorem State.setCode_scan : (s.setCode i c).scan = s.scan := rfl
@[simp] theorem State.setCode_sp : (s.setCode i c).sp = s.sp := rfl
@[simp] theorem State.setCode_freq : (s.setCode i c).freq = s.freq := rfl
@[simp] theorem State.setCode_node : (s.setCode i c).node = s.node := rfl
@[simp] theorem State.setCode_code : (s.setCode i c).code = Table.put s.code Code.empty i c := rfl
@[simp] theorem State.setCode_stk : (s.setCode i c).stk = s.stk := rfl
@[simp] theorem State.setCode_inp : (s.setCode i c).inp = s.inp := rfl
@[simp] theorem State.setCode_out : (s.setCode i c).out = s.out := rfl
@[simp] theorem State.setCode_answers : (s.setCode i c).answers = s.answers := rfl
@[simp] theorem State.setCode_par : (s.setCode i c).par = s.par := rfl
@[simp] theorem State.setCode_waiting : (s.setCode i c).waiting = s.waiting := rfl
@[simp] theorem State.setCode_draws : (s.setCode i c).draws = s.draws := rfl
@[simp] theorem State.setCode_moves : (s.setCode i c).moves = s.moves := rfl
@[simp] theorem State.setCode_hostSaw : (s.setCode i c).hostSaw = s.hostSaw := rfl
end

section
variable (s : State) (i : Nat) (nd : Node)
@[simp] theorem State.setNode_phase : (s.setNode i nd).phase = s.phase := rfl
@[simp] theorem State.setNode_errcode : (s.setNode i nd).errcode = s.errcode := rfl
@[simp] theorem State.setNode_ioinfo : (s.setNode i nd).ioinfo = s.ioinfo := rfl
@[simp] theorem State.setNode_nn : (s.setNode i nd).nn = s.nn := rfl
@[simp] theorem State.setNode_qn : (s.setNode i nd).qn = s.qn := rfl
@[simp] theorem State.setNode_root : (s.setNode i nd).root = s.root := rfl
@[simp] theorem State.setNode_cur : (s.setNode i nd).cur = s.cur := rfl
@[simp] theorem State.setNode_scan : (s.setNode i nd).scan = s.scan := rfl
@[simp] theorem State.setNode_sp : (s.setNode i nd).sp = s.sp := rfl
@[simp] theorem State.setNode_freq : (s.setNode i nd).freq = s.freq := rfl
@[simp] theorem State.setNode_node : (s.setNode i nd).node = Table.set s.node i nd := rfl
@[simp] theorem State.setNode_code : (s.setNode i nd).code = s.code := rfl
@[simp] theorem State.setNode_stk : (s.setNode i nd).stk = s.stk := rfl
@[simp] theorem State.setNode_inp : (s.setNode i nd).inp = s.inp := rfl
@[simp] theorem State.setNode_out : (s.setNode i nd).out = s.out := rfl
@[simp] theorem State.setNode_answers : (s.setNode i nd).answers = s.answers := rfl
@[simp] theorem State.setNode_par : (s.setNode i nd).par = s.par := rfl
@[simp] theorem State.setNode_waiting : (s.setNode i nd).waiting = s.waiting := rfl
@[simp] theorem State.setNode_draws : (s.setNode i nd).draws = s.draws := rfl
@[simp] theorem State.setNode_moves : (s.setNode i nd).moves = s.moves := rfl
@[simp] theorem State.setNode_hostSaw : (s.setNode i nd).hostSaw = s.hostSaw := rfl
end

section
variable (s : State)
@[simp] theorem State.called_phase : (s.called).phase = s.phase := rfl
@[simp] theorem State.called_errcode : (s.called).errcode = s.errcode := rfl
@[simp] theorem State.called_ioinfo : (s.called).ioinfo = s.ioinfo := rfl
@[simp] theorem State.called_nn : (s.called).nn = s.nn := rfl
@[simp] theorem State.called_qn : (s.called).qn = s.qn := rfl
@[simp] theorem State.called_root : (s.called).root = s.root := rfl
@[simp] theorem State.called_cur : (s.called).cur = s.cur := rfl
@[simp] theorem State.called_scan : (s.called).scan = s.scan := rfl
@[simp] theorem State.called_sp : (s.called).sp = s.sp := rfl
@[simp] theorem State.called_freq : (s.called).freq = s.freq := rfl
@[simp] theorem State.called_node : (s.called).node = s.node := rfl
@[simp] theorem State.called_code : (s.called).code = s.code := rfl
@[simp] theorem State.called_stk : (s.called).stk = s.stk := rfl
@[simp] theorem State.called_inp : (s.called).inp = s.inp := rfl
@[simp] theorem State.called_out : (s.called).out = s.out := rfl
@[simp] theorem State.called_answers : (s.called).answers = s.answers.tail := rfl
@[simp] theorem State.called_par : (s.called).par = s.par := rfl
@[simp] theorem State.called_waiting : (s.called).waiting = s.waiting := rfl
@[simp] theorem State.called_draws : (s.called).draws = s.draws := rfl
@[simp] theorem State.called_moves : (s.called).moves = s.moves := rfl
@[simp] theorem State.called_hostSaw : (s.called).hostSaw = s.hostSaw := rfl
end

section
variable (s : State) (n : Nat)
@[simp] theorem State.advance_phase : (s.advance n).phase = s.phase := rfl
@[simp] theorem State.advance_errcode : (s.advance n).errcode = s.errcode := rfl
@[simp] theorem State.advance_ioinfo : (s.advance n).ioinfo = s.ioinfo := rfl
@[simp] theorem State.advance_nn : (s.advance n).nn = s.nn := rfl
@[simp] theorem State.advance_qn : (s.advance n).qn = s.qn := rfl
@[simp] theorem State.advance_root : (s.advance n).root = s.root := rfl
@[simp] theorem State.advance_cur : (s.advance n).cur = s.cur := rfl
@[simp] theorem State.advance_scan : (s.advance n).scan = s.scan := rfl
@[simp] theorem State.advance_sp : (s.advance n).sp = s.sp := rfl
@[simp] theorem State.advance_freq : (s.advance n).freq = s.freq := rfl
@[simp] theorem State.advance_node : (s.advance n).node = s.node := rfl
@[simp] theorem State.advance_code : (s.advance n).code = s.code := rfl
@[simp] theorem State.advance_stk : (s.advance n).stk = s.stk := rfl
@[simp] theorem State.advance_inp : (s.advance n).inp = { s.inp with pos := s.inp.pos + n } := rfl
@[simp] theorem State.advance_out : (s.advance n).out = s.out := rfl
@[simp] theorem State.advance_answers : (s.advance n).answers = s.answers := rfl
@[simp] theorem State.advance_par : (s.advance n).par = s.par := rfl
@[simp] theorem State.advance_waiting : (s.advance n).waiting = s.waiting := rfl
@[simp] theorem State.advance_draws : (s.advance n).draws = s.draws := rfl
@[simp] theorem State.advance_moves : (s.advance n).moves = s.moves := rfl
@[simp] theorem State.advance_hostSaw : (s.advance n).hostSaw = s.hostSaw := rfl
end

section
variable (s : State) (bs : Bits)
@[simp] theorem State.append_phase : (s.append bs).phase = s.phase := rfl
@[simp] theorem State.append_errcode : (s.append bs).errcode = s.errcode := rfl
@[simp] theorem State.append_ioinfo : (s.append bs).ioinfo = s.ioinfo := rfl
@[simp] theorem State.append_nn : (s.append bs).nn = s.nn := rfl
@[simp] theorem State.append_qn : (s.append bs).qn = s.qn := rfl
@[simp] theorem State.append_root : (s.append bs).root = s.root := rfl
@[simp] theorem State.append_cur : (s.append bs).cur = s.cur := rfl
@[simp] theorem State.append_scan : (s.append bs).scan = s.scan := rfl
@[simp] theorem State.append_sp : (s.append bs).sp = s.sp := rfl
@[simp] theorem State.append_freq : (s.append bs).freq = s.freq := rfl
@[simp] theorem State.append_node : (s.append bs).node = s.node := rfl
@[simp] theorem State.append_code : (s.append bs).code = s.code := rfl
@[simp] theorem State.append_stk : (s.append bs).stk = s.stk := rfl
@[simp] theorem State.append_inp : (s.append bs).inp = s.inp := rfl
@[simp] theorem State.append_out : (s.append bs).out = { s.out with bits := s.out.bits ++ bs } := rfl
@[simp] theorem State.append_answers : (s.append bs).answers = s.answers := rfl
@[simp] theorem State.append_par : (s.append bs).par = s.par := rfl
@[simp] theorem State.append_waiting : (s.append bs).waiting = s.waiting := rfl
@[simp] theorem State.append_draws : (s.append bs).draws = s.draws := rfl
@[simp] theorem State.append_moves : (s.append bs).moves = s.moves := rfl
@[simp] theorem State.append_hostSaw : (s.append bs).hostSaw = s.hostSaw := rfl
end

section
variable (s : State)
@[simp] theorem State.lostIn_phase : (s.lostIn).phase = s.phase := rfl
@[simp] theorem State.lostIn_errcode : (s.lostIn).errcode = s.errcode := rfl
@[simp] theorem State.lostIn_ioinfo : (s.lostIn).ioinfo = s.ioinfo := rfl
@[simp] theorem State.lostIn_nn : (s.lostIn).nn = s.nn := rfl
@[simp] theorem State.lostIn_qn : (s.lostIn).qn = s.qn := rfl
@[simp] theorem State.lostIn_root : (s.lostIn).root = s.root := rfl
@[simp] theorem State.lostIn_cur : (s.lostIn).cur = s.cur := rfl
@[simp] theorem State.lostIn_scan : (s.lostIn).scan = s.scan := rfl
@[simp] theorem State.lostIn_sp : (s.lostIn).sp = s.sp := rfl
@[simp] theorem State.lostIn_freq : (s.lostIn).freq = s.freq := rfl
@[simp] theorem State.lostIn_node : (s.lostIn).node = s.node := rfl
@[simp] theorem State.lostIn_code : (s.lostIn).code = s.code := rfl
@[simp] theorem State.lostIn_stk : (s.lostIn).stk = s.stk := rfl
@[simp] theorem State.lostIn_inp : (s.lostIn).inp = { s.inp with pos := Config.freePos s.draws % (s.inp.len + 1) } := rfl
@[simp] theorem State.lostIn_out : (s.lostIn).out = s.out := rfl
@[simp] theorem State.lostIn_answers : (s.lostIn).answers = s.answers := rfl
@[simp] theorem State.lostIn_par : (s.lostIn).par = s.par := rfl
@[simp] theorem State.lostIn_waiting : (s.lostIn).waiting = s.waiting := rfl
@[simp] theorem State.lostIn_draws : (s.lostIn).draws = s.draws + 1 := rfl
@[simp] theorem State.lostIn_moves : (s.lostIn).moves = s.moves := rfl
@[simp] theorem State.lostIn_hostSaw : (s.lostIn).hostSaw = s.hostSaw := rfl
end

section
variable (s : State)
@[simp] theorem State.lostOut_phase : (s.lostOut).phase = s.phase := rfl
@[simp] theorem State.lostOut_errcode : (s.lostOut).errcode = s.errcode := rfl
@[simp] theorem State.lostOut_ioinfo : (s.lostOut).ioinfo = s.ioinfo := rfl
@[simp] theorem State.lostOut_nn : (s.lostOut).nn = s.nn := rfl
@[simp] theorem State.lostOut_qn : (s.lostOut).qn = s.qn := rfl
@[simp] theorem State.lostOut_root : (s.lostOut).root = s.root := rfl
@[simp] theorem State.lostOut_cur : (s.lostOut).cur = s.cur := rfl
@[simp] theorem State.lostOut_scan : (s.lostOut).scan = s.scan := rfl
@[simp] theorem State.lostOut_sp : (s.lostOut).sp = s.sp := rfl
@[simp] theorem State.lostOut_freq : (s.lostOut).freq = s.freq := rfl
@[simp] theorem State.lostOut_node : (s.lostOut).node = s.node := rfl
@[simp] theorem State.lostOut_code : (s.lostOut).code = s.code := rfl
@[simp] theorem State.lostOut_stk : (s.lostOut).stk = s.stk := rfl
@[simp] theorem State.lostOut_inp : (s.lostOut).inp = s.inp := rfl
@[simp] theorem State.lostOut_out : (s.lostOut).out = { bits := Config.freeBits s.draws, closed := Config.freeClosed s.draws, delivered := Config.freeDelivered s.draws } := rfl
@[simp] theorem State.lostOut_answers : (s.lostOut).answers = s.answers := rfl
@[simp] theorem State.lostOut_par : (s.lostOut).par = s.par := rfl
@[simp] theorem State.lostOut_waiting : (s.lostOut).waiting = s.waiting := rfl
@[simp] theorem State.lostOut_draws : (s.lostOut).draws = s.draws + 1 := rfl
@[simp] theorem State.lostOut_moves : (s.lostOut).moves = s.moves := rfl
@[simp] theorem State.lostOut_hostSaw : (s.lostOut).hostSaw = s.hostSaw := rfl
end

section
variable (s : State)
@[simp] theorem toIdle_phase : (toIdle s).phase = .idle := rfl
@[simp] theorem toIdle_errcode : (toIdle s).errcode = .eNone := rfl
@[simp] theorem toIdle_ioinfo : (toIdle s).ioinfo = 0 := rfl
@[simp] theorem toIdle_nn : (toIdle s).nn = s.nn := rfl
@[simp] theorem toIdle_qn : (toIdle s).qn = s.qn := rfl
@[simp] theorem toIdle_root : (toIdle s).root = s.root := rfl
@[simp] theorem toIdle_cur : (toIdle s).cur = s.cur := rfl
@[simp] theorem toIdle_scan : (toIdle s).scan = s.scan := rfl
@[simp] theorem toIdle_sp : (toIdle s).sp = s.sp := rfl
@[simp] theorem toIdle_freq : (toIdle s).freq = s.freq := rfl
@[simp] theorem toIdle_node : (toIdle s).node = s.node := rfl
@[simp] theorem toIdle_code : (toIdle s).code = s.code := rfl
@[simp] theorem toIdle_stk : (toIdle s).stk = s.stk := rfl
@[simp] theorem toIdle_inp : (toIdle s).inp = s.inp := rfl
@[simp] theorem toIdle_out : (toIdle s).out = s.out := rfl
@[simp] theorem toIdle_answers : (toIdle s).answers = s.answers := rfl
@[simp] theorem toIdle_par : (toIdle s).par = s.par := rfl
@[simp] theorem toIdle_waiting : (toIdle s).waiting = s.waiting := rfl
@[simp] theorem toIdle_draws : (toIdle s).draws = s.draws := rfl
@[simp] theorem toIdle_moves : (toIdle s).moves = s.moves := rfl
@[simp] theorem toIdle_hostSaw : (toIdle s).hostSaw = s.hostSaw := rfl
end

section
variable (s : State) (p : Phase)
@[simp] theorem commandStart_phase : (commandStart p s).phase = p := rfl
@[simp] theorem commandStart_errcode : (commandStart p s).errcode = .eNone := rfl
@[simp] theorem commandStart_ioinfo : (commandStart p s).ioinfo = 0 := rfl
@[simp] theorem commandStart_nn : (commandStart p s).nn = 0 := rfl
@[simp] theorem commandStart_qn : (commandStart p s).qn = 0 := rfl
@[simp] theorem commandStart_root : (commandStart p s).root = none := rfl
@[simp] theorem commandStart_cur : (commandStart p s).cur = none := rfl
@[simp] theorem commandStart_scan : (commandStart p s).scan = 0 := rfl
@[simp] theorem commandStart_sp : (commandStart p s).sp = 0 := rfl
@[simp] theorem commandStart_freq : (commandStart p s).freq = [] := rfl
@[simp] theorem commandStart_node : (commandStart p s).node = s.node := rfl
@[simp] theorem commandStart_code : (commandStart p s).code = [] := rfl
@[simp] theorem commandStart_stk : (commandStart p s).stk = s.stk := rfl
@[simp] theorem commandStart_inp : (commandStart p s).inp = s.inp := rfl
@[simp] theorem commandStart_out : (commandStart p s).out = s.out := rfl
@[simp] theorem commandStart_answers : (commandStart p s).answers = s.answers := rfl
@[simp] theorem commandStart_par : (commandStart p s).par = s.par := rfl
@[simp] theorem commandStart_waiting : (commandStart p s).waiting = s.waiting := rfl
@[simp] theorem commandStart_draws : (commandStart p s).draws = s.draws := rfl
@[simp] theorem commandStart_moves : (commandStart p s).moves = s.moves := rfl
@[simp] theorem commandStart_hostSaw : (commandStart p s).hostSaw = s.hostSaw := rfl
end

section
variable (s : State)
@[simp] theorem hardReset_phase : (hardReset s).phase = .idle := rfl
@[simp] theorem hardReset_errcode : (hardReset s).errcode = .eNone := rfl
@[simp] theorem hardReset_ioinfo : (hardReset s).ioinfo = 0 := rfl
@[simp] theorem hardReset_nn : (hardReset s).nn = 0 := rfl
@[simp] theorem hardReset_qn : (hardReset s).qn = 0 := rfl
@[simp] theorem hardReset_root : (hardReset s).root = none := rfl
@[simp] theorem hardReset_cur : (hardReset s).cur = none := rfl
@[simp] theorem hardReset_scan : (hardReset s).scan = 0 := rfl
@[simp] theorem hardReset_sp : (hardReset s).sp = 0 := rfl
@[simp] theorem hardReset_freq : (hardReset s).freq = [] := rfl
@[simp] theorem hardReset_node : (hardReset s).node = [] := rfl
@[simp] theorem hardReset_code : (hardReset s).code = [] := rfl
@[simp] theorem hardReset_stk : (hardReset s).stk = [] := rfl
@[simp] theorem hardReset_inp : (hardReset s).inp = s.inp := rfl
@[simp] theorem hardReset_out : (hardReset s).out = s.out := rfl
@[simp] theorem hardReset_answers : (hardReset s).answers = s.answers := rfl
@[simp] theorem hardReset_par : (hardReset s).par = s.par := rfl
@[simp] theorem hardReset_waiting : (hardReset s).waiting = false := rfl
@[simp] theorem hardReset_draws : (hardReset s).draws = s.draws := rfl
@[simp] theorem hardReset_moves : (hardReset s).moves = s.moves := rfl
@[simp] theorem hardReset_hostSaw : (hardReset s).hostSaw = s.hostSaw := rfl
end

end Sys2Proof.Machine
end

