-- ==== Sys2Proof/Laws/Tables.lean ====
section
/-! SUPPORT. Tables: read after write, and every table operation keeps the canonical form. -/

namespace Sys2Proof

variable {α : Type}

@[simp] theorem Table.get?_nil (i : Nat) : Table.get? ([] : Table α) i = none := rfl

theorem Table.get?_cons (k : Nat) (v : α) (r : Table α) (i : Nat) :
    Table.get? ((k, v) :: r) i = if k = i then some v else Table.get? r i := rfl

theorem Table.get?_set (t : Table α) (i j : Nat) (x : α) :
    Table.get? (Table.set t i x) j = if i = j then some x else Table.get? t j := by
  induction t with
  | nil => simp [Table.set, Table.get?]
  | cons e r ih =>
    obtain ⟨k, v⟩ := e
    simp only [Table.set]
    split
    · simp [Table.get?_cons]
    · split
      · subst_vars; simp only [Table.get?_cons]; split <;> simp_all
      · simp only [Table.get?_cons, ih]; split <;> split <;> simp_all

@[simp] theorem Table.get?_set_self (t : Table α) (i : Nat) (x : α) : Table.get? (Table.set t i x) i = some x := by
  simp [Table.get?_set]

theorem Table.get?_set_ne (t : Table α) {i j : Nat} (x : α) (h : i ≠ j) :
    Table.get? (Table.set t i x) j = Table.get? t j := by
  simp [Table.get?_set, h]

theorem Table.mem_set {t : Table α} {i : Nat} {x : α} {e : Nat × α} (h : e ∈ Table.set t i x) :
    e = (i, x) ∨ e ∈ t := by
  induction t with
  | nil => simpa [Table.set] using h
  | cons f r ih =>
    obtain ⟨k, v⟩ := f
    simp only [Table.set] at h
    split at h
    · simpa using h
    · split at h
      · rcases List.mem_cons.1 h with h | h <;> simp [h]
      · rcases List.mem_cons.1 h with h | h
        · simp [h]
        · rcases ih h with h | h <;> simp [h]

theorem Table.mem_erase {t : Table α} {i : Nat} {e : Nat × α} (h : e ∈ Table.erase t i) : e ∈ t := by
  induction t with
  | nil => simpa [Table.erase] using h
  | cons f r ih =>
    obtain ⟨k, v⟩ := f
    simp only [Table.erase] at h
    split at h
    · simp [h]
    · rcases List.mem_cons.1 h with h | h
      · simp [h]
      · simp [ih h]

theorem Table.sorted_cons {k : Nat} {v : α} {r : Table α} :
    Table.sorted ((k, v) :: r) = true ↔ (∀ e ∈ r, k < e.1) ∧ Table.sorted r = true := by
  simp [Table.sorted]

theorem Table.sorted_set {t : Table α} (i : Nat) (x : α) (h : Table.sorted t = true) :
    Table.sorted (Table.set t i x) = true := by
  induction t with
  | nil => simp [Table.set, Table.sorted]
  | cons e r ih =>
    obtain ⟨k, v⟩ := e
    obtain ⟨h1, h2⟩ := Table.sorted_cons.1 h
    simp only [Table.set]
    split
    · refine Table.sorted_cons.2 ⟨?_, h⟩
      intro e he
      rcases List.mem_cons.1 he with rfl | he
      · assumption
      · have := h1 e he; omega
    · split
      · subst_vars; exact Table.sorted_cons.2 ⟨h1, h2⟩
      · refine Table.sorted_cons.2 ⟨?_, ih h2⟩
        intro e he
        rcases Table.mem_set he with rfl | he
        · show k < i
          omega
        · exact h1 e he

theorem Table.sorted_erase {t : Table α} (i : Nat) (h : Table.sorted t = true) :
    Table.sorted (Table.erase t i) = true := by
  induction t with
  | nil => simp [Table.erase, Table.sorted]
  | cons e r ih =>
    obtain ⟨k, v⟩ := e
    obtain ⟨h1, h2⟩ := Table.sorted_cons.1 h
    simp only [Table.erase]
    split
    · exact h2
    · exact Table.sorted_cons.2 ⟨fun e he => h1 e (Table.mem_erase he), ih h2⟩

theorem Table.wf_iff {cap : Nat} {t : Table α} :
    Table.wf cap t = true ↔ Table.sorted t = true ∧ ∀ e ∈ t, e.1 < cap := by
  simp [Table.wf]

/-- Writing an entry that exists keeps the canonical form. -/
theorem Table.wf_set {cap : Nat} {t : Table α} {i : Nat} (x : α) (hi : i < cap) (h : Table.wf cap t = true) :
    Table.wf cap (Table.set t i x) = true := by
  obtain ⟨h1, h2⟩ := Table.wf_iff.1 h
  refine Table.wf_iff.2 ⟨Table.sorted_set i x h1, fun e he => ?_⟩
  rcases Table.mem_set he with rfl | he
  · exact hi
  · exact h2 e he

theorem Table.wf_erase {cap : Nat} {t : Table α} (i : Nat) (h : Table.wf cap t = true) :
    Table.wf cap (Table.erase t i) = true := by
  obtain ⟨h1, h2⟩ := Table.wf_iff.1 h
  exact Table.wf_iff.2 ⟨Table.sorted_erase i h1, fun e he => h2 e (Table.mem_erase he)⟩

theorem Table.get?_none_of_below {t : Table α} {i : Nat} (h : ∀ e ∈ t, i < e.1) : Table.get? t i = none := by
  induction t with
  | nil => rfl
  | cons e r ih =>
    obtain ⟨k, v⟩ := e
    have hk : i < k := h (k, v) (by simp)
    have : k ≠ i := by omega
    simp [Table.get?_cons, this, ih fun e he => h e (by simp [he])]

theorem Table.get?_erase {t : Table α} (h : Table.sorted t = true) (i j : Nat) :
    Table.get? (Table.erase t i) j = if i = j then none else Table.get? t j := by
  induction t with
  | nil => simp [Table.erase]
  | cons e r ih =>
    obtain ⟨k, v⟩ := e
    obtain ⟨h1, h2⟩ := Table.sorted_cons.1 h
    simp only [Table.erase]
    split
    · rename_i hik
      subst hik
      split
      · rename_i hij
        subst hij
        exact Table.get?_none_of_below h1
      · rename_i hij
        simp [Table.get?_cons, hij]
    · rename_i hik
      simp only [Table.get?_cons, ih h2]
      split <;> split <;> simp_all

theorem Table.get?_mem {t : Table α} {i : Nat} {x : α} (h : Table.get? t i = some x) : (i, x) ∈ t := by
  induction t with
  | nil => simp at h
  | cons e r ih =>
    obtain ⟨k, v⟩ := e
    rw [Table.get?_cons] at h
    split at h
    · simp_all
    · simp [ih h]

theorem Table.get?_of_mem {t : Table α} (h : Table.sorted t = true) {i : Nat} {x : α} (hm : (i, x) ∈ t) :
    Table.get? t i = some x := by
  induction t with
  | nil => simp at hm
  | cons e r ih =>
    obtain ⟨k, v⟩ := e
    obtain ⟨h1, h2⟩ := Table.sorted_cons.1 h
    rw [Table.get?_cons]
    rcases List.mem_cons.1 hm with hm | hm
    · simp_all
    · have := h1 _ hm
      have hk : k ≠ i := by simp only at this; omega
      simp [hk, ih h2 hm]

section Default

variable [DecidableEq α]

theorem Table.wfD_iff {cap : Nat} {d : α} {t : Table α} :
    Table.wfD cap d t = true ↔ Table.wf cap t = true ∧ ∀ e ∈ t, e.2 ≠ d := by
  simp [Table.wfD]

/-- Reading after a write, in a table with a default. -/
theorem Table.getD_put {t : Table α} (h : Table.sorted t = true) (d : α) (i j : Nat) (x : α) :
    Table.getD (Table.put t d i x) d j = if i = j then x else Table.getD t d j := by
  unfold Table.getD Table.put
  split
  · rename_i hx
    subst hx
    rw [Table.get?_erase h]
    split <;> simp
  · rw [Table.get?_set]
    split <;> simp

/-- The same where the value written is not the default: no premise on the table is needed. -/
theorem Table.getD_put_of_ne (t : Table α) {d x : α} (hx : x ≠ d) (i j : Nat) :
    Table.getD (Table.put t d i x) d j = if i = j then x else Table.getD t d j := by
  unfold Table.getD Table.put
  rw [if_neg hx, Table.get?_set]
  split <;> simp

/-- Writing keeps the canonical form of a table with a default. -/
theorem Table.wfD_put {cap : Nat} {d : α} {t : Table α} {i : Nat} (x : α) (hi : i < cap)
    (h : Table.wfD cap d t = true) : Table.wfD cap d (Table.put t d i x) = true := by
  obtain ⟨h1, h2⟩ := Table.wfD_iff.1 h
  unfold Table.put
  split
  · exact Table.wfD_iff.2 ⟨Table.wf_erase i h1, fun e he => h2 e (Table.mem_erase he)⟩
  · rename_i hx
    refine Table.wfD_iff.2 ⟨Table.wf_set x hi h1, fun e he => ?_⟩
    rcases Table.mem_set he with rfl | he
    · exact hx
    · exact h2 e he

end Default

end Sys2Proof
end

