-- ==== Sys2Proof/Laws/Ops.lean ====
section
/-! SUPPORT. What each shared operation does, said once: where it goes on and with which state, and, the other way round,
what follows from its having answered a next state. -/

namespace Sys2Proof.Machine

/-! ## Reads through the named updates -/

theorem State.freqAt_setFreq (s : State) {i v : Nat} (hv : v ≠ 0) (j : Nat) :
    (s.setFreq i v).freqAt j = if i = j then v else s.freqAt j :=
  Table.getD_put_of_ne s.freq hv i j

theorem State.codeAt_setCode {s : State} (h : Table.wfD Config.nsym Code.empty s.code = true) (i : Nat) (c : Code)
    (j : Nat) : (s.setCode i c).codeAt j = if i = j then c else s.codeAt j :=
  Table.getD_put (Table.wf_iff.1 (Table.wfD_iff.1 h).1).1 Code.empty i j c

theorem State.nodeAt_setNode (s : State) (i : Nat) (nd : Node) (j : Nat) :
    (s.setNode i nd).nodeAt j = if i = j ∧ j < s.nn then some nd else s.nodeAt j := by
  simp only [State.nodeAt, State.setNode_nn, State.setNode_node, Table.get?_set]
  split <;> split <;> simp_all

theorem State.nodeAt_lt {s : State} {i : Nat} {nd : Node} (h : s.nodeAt i = some nd) : i < s.nn := by
  unfold State.nodeAt at h
  split at h
  · assumption
  · cases h

theorem State.nodeAt_get {s : State} {i : Nat} {nd : Node} (h : s.nodeAt i = some nd) :
    Table.get? s.node i = some nd := by
  have hi := s.nodeAt_lt h
  simpa [State.nodeAt, hi] using h

theorem State.top_pos {s : State} {e : StkEntry} (h : s.top = some e) :
    0 < s.sp ∧ Table.get? s.stk (s.sp - 1) = some e := by
  unfold State.top at h
  split at h
  · cases h
  · rename_i p hp
    simp [hp, h]

/-! ## Channel calls -/

theorem memRead_bits {n : Nat} {s : State} (k : Option Nat → State → Result) (ha : s.answer = .ok) (h : s.inp.has n) :
    memRead n s k = k (some (valOf (s.inp.next n))) (s.called.advance n) := by
  have : s.inp.pos + n ≤ s.inp.len := h
  simp [memRead, ha, this]

theorem memRead_eos {n : Nat} {s : State} (k : Option Nat → State → Result) (ha : s.answer = .ok)
    (h : ¬ s.inp.has n) : memRead n s k = k none s.called := by
  have : ¬ s.inp.pos + n ≤ s.inp.len := h
  simp [memRead, ha, this]

theorem memRead_ioerr {n : Nat} {s : State} {info : Word} (k : Option Nat → State → Result)
    (ha : s.answer = .ioerr info) : memRead n s k = raise .eIo info s.called.lostIn := by
  simp [memRead, ha]

theorem memRead_never {n : Nat} {s : State} (k : Option Nat → State → Result) (ha : s.answer = .never) :
    memRead n s k = block s.called := by
  simp [memRead, ha]

theorem memWrite_ok {n v : Nat} {s : State} (k : State → Result) (ha : s.answer = .ok) :
    memWrite n v s k = k (s.called.append (bitsOf n v)) := by
  simp [memWrite, ha]

theorem memWrite_ioerr {n v : Nat} {s : State} {info : Word} (k : State → Result) (ha : s.answer = .ioerr info) :
    memWrite n v s k = raise .eIo info s.called.lostOut := by
  simp [memWrite, ha]

theorem memWrite_never {n v : Nat} {s : State} (k : State → Result) (ha : s.answer = .never) :
    memWrite n v s k = block s.called := by
  simp [memWrite, ha]

theorem rewind_ok {s : State} (k : State → Result) (ha : s.answer = .ok) :
    rewind s k = k { s.called with inp := s.inp.rewound } := by
  simp [rewind, ha]

theorem rewind_ioerr {s : State} {info : Word} (k : State → Result) (ha : s.answer = .ioerr info) :
    rewind s k = raise .eIo info s.called.lostIn := by
  simp [rewind, ha]

theorem rewind_never {s : State} (k : State → Result) (ha : s.answer = .never) : rewind s k = block s.called := by
  simp [rewind, ha]

theorem closeOut_ok {s : State} (k : State → Result) (ha : s.answer = .ok) :
    closeOut s k = k { s.called with out := s.out.flushed s.draws, draws := s.draws + 1 } := by
  simp [closeOut, ha]

theorem closeOut_ioerr {s : State} {info : Word} (k : State → Result) (ha : s.answer = .ioerr info) :
    closeOut s k = raise .eIo info s.called.lostOut := by
  simp [closeOut, ha]

theorem closeOut_never {s : State} (k : State → Result) (ha : s.answer = .never) :
    closeOut s k = block s.called := by
  simp [closeOut, ha]

/-- Everything a read can do. -/
theorem memRead_cases (n : Nat) (s : State) (k : Option Nat → State → Result) :
    (s.answer = .ok ∧ s.inp.has n ∧ memRead n s k = k (some (valOf (s.inp.next n))) (s.called.advance n)) ∨
    (s.answer = .ok ∧ ¬ s.inp.has n ∧ memRead n s k = k none s.called) ∨
    (∃ info, s.answer = .ioerr info ∧ memRead n s k = raise .eIo info s.called.lostIn) ∨
    (s.answer = .never ∧ memRead n s k = block s.called) := by
  cases ha : s.answer with
  | ok =>
    by_cases h : s.inp.has n
    · exact .inl ⟨rfl, h, memRead_bits k ha h⟩
    · exact .inr (.inl ⟨rfl, h, memRead_eos k ha h⟩)
  | ioerr info => exact .inr (.inr (.inl ⟨info, rfl, memRead_ioerr k ha⟩))
  | never => exact .inr (.inr (.inr ⟨rfl, memRead_never k ha⟩))

/-- Everything a write can do. -/
theorem memWrite_cases (n v : Nat) (s : State) (k : State → Result) :
    (s.answer = .ok ∧ memWrite n v s k = k (s.called.append (bitsOf n v))) ∨
    (∃ info, s.answer = .ioerr info ∧ memWrite n v s k = raise .eIo info s.called.lostOut) ∨
    (s.answer = .never ∧ memWrite n v s k = block s.called) := by
  cases ha : s.answer with
  | ok => exact .inl ⟨rfl, memWrite_ok k ha⟩
  | ioerr info => exact .inr (.inl ⟨info, rfl, memWrite_ioerr k ha⟩)
  | never => exact .inr (.inr ⟨rfl, memWrite_never k ha⟩)

/-- Everything a rewind can do. -/
theorem rewind_cases (s : State) (k : State → Result) :
    (s.answer = .ok ∧ rewind s k = k { s.called with inp := s.inp.rewound }) ∨
    (∃ info, s.answer = .ioerr info ∧ rewind s k = raise .eIo info s.called.lostIn) ∨
    (s.answer = .never ∧ rewind s k = block s.called) := by
  cases ha : s.answer with
  | ok => exact .inl ⟨rfl, rewind_ok k ha⟩
  | ioerr info => exact .inr (.inl ⟨info, rfl, rewind_ioerr k ha⟩)
  | never => exact .inr (.inr ⟨rfl, rewind_never k ha⟩)

/-- Everything a close can do. -/
theorem closeOut_cases (s : State) (k : State → Result) :
    (s.answer = .ok ∧ closeOut s k = k { s.called with out := s.out.flushed s.draws, draws := s.draws + 1 }) ∨
    (∃ info, s.answer = .ioerr info ∧ closeOut s k = raise .eIo info s.called.lostOut) ∨
    (s.answer = .never ∧ closeOut s k = block s.called) := by
  cases ha : s.answer with
  | ok => exact .inl ⟨rfl, closeOut_ok k ha⟩
  | ioerr info => exact .inr (.inl ⟨info, rfl, closeOut_ioerr k ha⟩)
  | never => exact .inr (.inr ⟨rfl, closeOut_never k ha⟩)

/-! ## Stack and arena -/

theorem push_ok {e : StkEntry} {s : State} (k : State → Result) (h : s.sp < Config.stkCap) :
    push e s k = k { s with stk := Table.set s.stk s.sp e, sp := s.sp + 1 } := by
  simp only [push, if_pos h]

theorem pop_ok {e : StkEntry} {s : State} (k : StkEntry → State → Result) (h : s.top = some e) :
    pop s k = k e { s with sp := s.sp - 1 } := by
  simp only [pop, h]

theorem alloc_ok {nd : Node} {s : State} (k : Nat → State → Result) (h : s.nn < Config.nodeCap) :
    alloc nd s k = k s.nn { s with node := Table.set s.node s.nn nd, nn := s.nn + 1 } := by
  simp only [alloc, if_pos h]

theorem withNode_ok {i : Nat} {nd : Node} {s : State} (k : Nat → Node → Result) (h : s.nodeAt i = some nd) :
    withNode (some i) s k = k i nd := by
  simp only [withNode, h]

/-- Where `push` answers a next state, there was room. -/
theorem push_next {e : StkEntry} {s t : State} {k : State → Result} (h : push e s k = .next t) :
    s.sp < Config.stkCap ∧ k { s with stk := Table.set s.stk s.sp e, sp := s.sp + 1 } = .next t := by
  unfold push at h
  split at h
  · exact ⟨‹_›, h⟩
  · cases h

/-- Where `pop` answers a next state, the stack had a top. -/
theorem pop_next {s t : State} {k : StkEntry → State → Result} (h : pop s k = .next t) :
    ∃ e, s.top = some e ∧ k e { s with sp := s.sp - 1 } = .next t := by
  unfold pop at h
  split at h
  · cases h
  · exact ⟨_, ‹_›, h⟩

/-- Where `alloc` answers a next state, there was room. -/
theorem alloc_next {nd : Node} {s t : State} {k : Nat → State → Result} (h : alloc nd s k = .next t) :
    s.nn < Config.nodeCap ∧ k s.nn { s with node := Table.set s.node s.nn nd, nn := s.nn + 1 } = .next t := by
  unfold alloc at h
  split at h
  · exact ⟨‹_›, h⟩
  · cases h

/-- Where a read of a node goes on, the entry holds a value. -/
theorem withNode_next {i : Option Nat} {s t : State} {k : Nat → Node → Result} (h : withNode i s k = .next t) :
    ∃ j nd, i = some j ∧ s.nodeAt j = some nd ∧ k j nd = .next t := by
  unfold withNode at h
  split at h
  · cases h
  · split at h
    · cases h
    · exact ⟨_, _, rfl, ‹_›, h⟩

/-- Where removeMin goes on, a minimum was found (R112). -/
theorem removeMin_next {s t : State} {k : Nat → Node → State → Result} (h : removeMin s k = .next t) :
    0 < s.qn ∧ ∃ i nd, minInq s.nn s.node = some (i, nd) ∧
      k i nd { s.setNode i (nd.setInq false) with qn := s.qn - 1 } = .next t := by
  unfold removeMin at h
  split at h
  · cases h
  · split at h
    · cases h
    · rename_i hq _ i nd hm
      exact ⟨Nat.pos_of_ne_zero hq, i, nd, hm, h⟩

theorem removeMin_ok {s : State} {i : Nat} {nd : Node} (k : Nat → Node → State → Result) (hq : 0 < s.qn)
    (h : minInq s.nn s.node = some (i, nd)) :
    removeMin s k = k i nd { s.setNode i (nd.setInq false) with qn := s.qn - 1 } := by
  have : ¬ s.qn = 0 := by omega
  simp only [removeMin, if_neg this, h]

/-- Fault entry, spelled out (R220). -/
theorem raise_eq (c : Cause) (info : Word) (s : State) :
    raise c info s =
      .next { s with errcode := c, ioinfo := if c = .eIo then info else s.ioinfo, phase := .fault } := rfl

/-! ## Reset -/

theorem reset_tables_canonical :
    Table.wfD Config.nsym 0 State.reset.freq = true ∧ Table.wfD Config.nsym Code.empty State.reset.code = true ∧
      Table.wf Config.nodeCap State.reset.node = true ∧ Table.wf Config.stkCap State.reset.stk = true := by
  decide

end Sys2Proof.Machine
end

