-- ==== Sys2Proof/Laws/Ends.lean ====
section
/-! SUPPORT. How a result can end, as one predicate with one rule per shared operation: a proof about every outcome of a
meaning applies these rules in the order of the meaning's text and never unfolds an operation. -/

namespace Sys2Proof.Machine

/-- `r` ends well: a next state meets `Q`; a fault only where `F` allows it; a refusal is left open. -/
def Ends (F : Prop) (Q : State → Prop) : Result → Prop
  | .next t => Q t
  | .fault _ => F
  | .refused _ => True

variable {F : Prop} {Q : State → Prop}

@[simp] theorem ends_next (t : State) : Ends F Q (.next t) ↔ Q t := Iff.rfl
@[simp] theorem ends_fault (f : Fault) : Ends F Q (.fault f) ↔ F := Iff.rfl
@[simp] theorem ends_refused (r : Refusal) : Ends F Q (.refused r) := trivial

theorem ends_iff {r : Result} : Ends F Q r ↔ (∀ t, r = .next t → Q t) ∧ ∀ f, r = .fault f → F := by
  cases r <;> simp [Ends]

theorem ends_raise {c : Cause} {info : Word} {s : State}
    (h : Q { s with errcode := c, ioinfo := if c = .eIo then info else s.ioinfo, phase := .fault }) :
    Ends F Q (raise c info s) := h

theorem ends_memRead {n : Nat} {s : State} {k : Option Nat → State → Result}
    (hv : s.answer = .ok → s.inp.has n → Ends F Q (k (some (valOf (s.inp.next n))) (s.called.advance n)))
    (he : s.answer = .ok → ¬ s.inp.has n → Ends F Q (k none s.called))
    (hi : ∀ info, s.answer = .ioerr info → Ends F Q (raise .eIo info s.called.lostIn))
    (hn : s.answer = .never → Ends F Q (block s.called)) : Ends F Q (memRead n s k) := by
  rcases memRead_cases n s k with ⟨ha, h, e⟩ | ⟨ha, h, e⟩ | ⟨info, ha, e⟩ | ⟨ha, e⟩ <;> rw [e]
  exacts [hv ha h, he ha h, hi info ha, hn ha]

theorem ends_memWrite {n v : Nat} {s : State} {k : State → Result}
    (hk : s.answer = .ok → Ends F Q (k (s.called.append (bitsOf n v))))
    (hi : ∀ info, s.answer = .ioerr info → Ends F Q (raise .eIo info s.called.lostOut))
    (hn : s.answer = .never → Ends F Q (block s.called)) : Ends F Q (memWrite n v s k) := by
  rcases memWrite_cases n v s k with ⟨ha, e⟩ | ⟨info, ha, e⟩ | ⟨ha, e⟩ <;> rw [e]
  exacts [hk ha, hi info ha, hn ha]

theorem ends_rewind {s : State} {k : State → Result}
    (hk : s.answer = .ok → Ends F Q (k { s.called with inp := s.inp.rewound }))
    (hi : ∀ info, s.answer = .ioerr info → Ends F Q (raise .eIo info s.called.lostIn))
    (hn : s.answer = .never → Ends F Q (block s.called)) : Ends F Q (rewind s k) := by
  rcases rewind_cases s k with ⟨ha, e⟩ | ⟨info, ha, e⟩ | ⟨ha, e⟩ <;> rw [e]
  exacts [hk ha, hi info ha, hn ha]

theorem ends_closeOut {s : State} {k : State → Result}
    (hk : s.answer = .ok → Ends F Q (k { s.called with out := s.out.flushed s.draws, draws := s.draws + 1 }))
    (hi : ∀ info, s.answer = .ioerr info → Ends F Q (raise .eIo info s.called.lostOut))
    (hn : s.answer = .never → Ends F Q (block s.called)) : Ends F Q (closeOut s k) := by
  rcases closeOut_cases s k with ⟨ha, e⟩ | ⟨info, ha, e⟩ | ⟨ha, e⟩ <;> rw [e]
  exacts [hk ha, hi info ha, hn ha]

theorem ends_push {e : StkEntry} {s : State} {k : State → Result}
    (hk : s.sp < Config.stkCap → Ends F Q (k { s with stk := Table.set s.stk s.sp e, sp := s.sp + 1 }))
    (hf : ¬ s.sp < Config.stkCap → F) : Ends F Q (push e s k) := by
  unfold push
  split
  exacts [hk ‹_›, hf ‹_›]

theorem ends_pop {s : State} {k : StkEntry → State → Result}
    (hk : ∀ e, s.top = some e → Ends F Q (k e { s with sp := s.sp - 1 })) (hf : s.top = none → F) :
    Ends F Q (pop s k) := by
  unfold pop
  split
  exacts [hf ‹_›, hk _ ‹_›]

theorem ends_alloc {nd : Node} {s : State} {k : Nat → State → Result}
    (hk : s.nn < Config.nodeCap → Ends F Q (k s.nn { s with node := Table.set s.node s.nn nd, nn := s.nn + 1 }))
    (hf : ¬ s.nn < Config.nodeCap → F) : Ends F Q (alloc nd s k) := by
  unfold alloc
  split
  exacts [hk ‹_›, hf ‹_›]

theorem ends_withNode {i : Option Nat} {s : State} {k : Nat → Node → Result}
    (hk : ∀ j nd, i = some j → s.nodeAt j = some nd → Ends F Q (k j nd))
    (hf : (∀ j nd, i = some j → s.nodeAt j ≠ some nd) → F) : Ends F Q (withNode i s k) := by
  cases i with
  | none => exact hf (fun j nd h => by cases h)
  | some j =>
    cases h : s.nodeAt j with
    | none => simp only [withNode, h]; exact hf (fun i nd hi => by cases hi; simp [h])
    | some nd => rw [withNode_ok k h]; exact hk j nd rfl h

theorem ends_removeMin {s : State} {k : Nat → Node → State → Result}
    (hk : ∀ i nd, 0 < s.qn → minInq s.nn s.node = some (i, nd) →
      Ends F Q (k i nd { s.setNode i (nd.setInq false) with qn := s.qn - 1 }))
    (hf : s.qn = 0 ∨ minInq s.nn s.node = none → F) : Ends F Q (removeMin s k) := by
  unfold removeMin
  split
  · exact hf (.inl ‹_›)
  · cases h : minInq s.nn s.node with
    | none => exact hf (.inr h)
    | some p => exact hk p.1 p.2 (by omega) h

/-- Everything `attach` can do where a node can be attached (R140). -/
theorem attach_ok {n : Nat} {s : State} {k : State → Result} (h : s.openTop) :
    ∃ t, attach n s k = k t ∧ t = { s with node := t.node, root := t.root } ∧
      ((s.sp = 0 ∧ t.root = some n ∧ t.node = s.node ∧ ∀ i, t.nodeAt i = s.nodeAt i) ∨
        ∃ p c w l r q, s.top = some { n := some p, code := c } ∧ s.nodeAt p = some (.inner w l r q) ∧ t.root = s.root ∧
          t.nodeAt p = some (if l = none then .inner w (some n) r q else .inner w l (some n) q) ∧
          (∃ nd, t.node = Table.set s.node p nd) ∧ ∀ i, i ≠ p → t.nodeAt i = s.nodeAt i) := by
  by_cases h0 : s.sp = 0
  · simp only [attach, if_pos h0]
    exact ⟨_, rfl, rfl, .inl ⟨h0, rfl, rfl, fun i => rfl⟩⟩
  · rcases h with h | ⟨p, c, w, l, r, q, h1, h2⟩
    · exact absurd h h0
    · simp only [attach, if_neg h0, h1]
      rw [withNode_ok _ h2]
      by_cases hl : l = none <;> simp only [hl, if_true, if_false]
      · refine ⟨_, rfl, rfl, .inr ⟨p, c, w, none, r, q, rfl, hl ▸ h2, rfl, ?_, ⟨_, rfl⟩, fun i hi => ?_⟩⟩
        · rw [State.nodeAt_setNode]; simp [State.nodeAt_lt h2]
        · rw [State.nodeAt_setNode]; simp [Ne.symm hi]
      · refine ⟨_, rfl, rfl, .inr ⟨p, c, w, l, r, q, rfl, h2, rfl, ?_, ⟨_, rfl⟩, fun i hi => ?_⟩⟩
        · rw [State.nodeAt_setNode]; simp [State.nodeAt_lt h2, hl]
        · rw [State.nodeAt_setNode]; simp [Ne.symm hi]

/-- Everything `popComplete` can do on a stack of internal nodes (R142): it pops the complete nodes on top, no others. -/
theorem popComplete_ok (s : State) (k : State → Result) (p : Nat)
    (h : ∀ j, j < p → ∃ n c w l r q, Table.get? s.stk j = some { n := some n, code := c } ∧
      s.nodeAt n = some (.inner w l r q)) :
    ∃ q, q ≤ p ∧ popComplete p s k = k { s with sp := q } ∧
      (∀ j, q ≤ j → j < p → ∃ n c nd, Table.get? s.stk j = some { n := some n, code := c } ∧ s.nodeAt n = some nd ∧
        nd.right ≠ none) ∧
      (0 < q → ∃ n c nd, Table.get? s.stk (q - 1) = some { n := some n, code := c } ∧ s.nodeAt n = some nd ∧
        nd.right = none) := by
  induction p with
  | zero => exact ⟨0, le_refl _, rfl, fun j h1 h2 => by omega, fun h => by omega⟩
  | succ p ih =>
    obtain ⟨n, c, w, l, r, q, h1, h2⟩ := h p (by omega)
    simp only [popComplete, h1]
    rw [withNode_ok _ h2]
    by_cases hr : (Node.inner w l r q).right = none
    · rw [if_pos hr]
      exact ⟨p + 1, le_refl _, rfl, fun j h1 h2 => by omega, fun _ => ⟨n, c, _, h1, h2, hr⟩⟩
    · rw [if_neg hr]
      obtain ⟨q', a1, a2, a3, a4⟩ := ih fun j hj => h j (by omega)
      refine ⟨q', by omega, a2, fun j b1 b2 => ?_, a4⟩
      by_cases hj : j = p
      · exact ⟨n, c, _, hj ▸ h1, h2, hr⟩
      · exact a3 j b1 (by omega)

/-! ## The minimum of the priority structure -/

/-- What `minInq` finds: a least entry of the structure, or that there is none (R112). -/
theorem minInq_spec (nn : Nat) (l : List (Nat × Node)) :
    (∀ i nd, minInq nn l = some (i, nd) → (i, nd) ∈ l ∧ i < nn ∧ nd.inq = true ∧
      ∀ j md, (j, md) ∈ l → j < nn → md.inq = true → nd.wgt < md.wgt ∨ nd.wgt = md.wgt ∧ i ≤ j) ∧
    (minInq nn l = none → ∀ j md, (j, md) ∈ l → j < nn → md.inq = true → False) := by
  induction l with
  | nil => simp [minInq]
  | cons e r ih =>
    obtain ⟨k, kd⟩ := e
    obtain ⟨ih1, ih2⟩ := ih
    simp only [minInq]
    cases hm : minInq nn r with
    | none =>
      have h0 := ih2 hm
      simp only
      split
      · rename_i hc
        refine ⟨fun i nd h => ?_, by simp⟩
        cases h
        refine ⟨by simp, hc.1, hc.2, fun j md hj hj2 hj3 => ?_⟩
        rcases List.mem_cons.1 hj with he | hj
        · cases he; exact .inr ⟨rfl, le_refl _⟩
        · exact (h0 j md hj hj2 hj3).elim
      · rename_i hc
        refine ⟨by simp, fun _ j md hj hj2 hj3 => ?_⟩
        rcases List.mem_cons.1 hj with he | hj
        · cases he; exact hc ⟨hj2, hj3⟩
        · exact h0 j md hj hj2 hj3
    | some p =>
      obtain ⟨j0, md0⟩ := p
      obtain ⟨a1, a2, a3, a4⟩ := ih1 j0 md0 hm
      simp only
      split
      · rename_i hc
        refine ⟨fun i nd h => ?_, by simp⟩
        cases h
        refine ⟨by simp, hc.1, hc.2.1, fun j md hj hj2 hj3 => ?_⟩
        rcases List.mem_cons.1 hj with he | hj
        · cases he; exact .inr ⟨rfl, le_refl _⟩
        · have := a4 j md hj hj2 hj3
          omega
      · rename_i hc
        refine ⟨fun i nd h => ?_, by simp⟩
        cases h
        refine ⟨by simp [a1], a2, a3, fun j md hj hj2 hj3 => ?_⟩
        rcases List.mem_cons.1 hj with he | hj
        · obtain ⟨rfl, rfl⟩ := Prod.mk.inj he
          by_contra hne
          exact hc ⟨hj2, hj3, by omega⟩
        · exact a4 j md hj hj2 hj3

theorem State.nodeAt_iff {s : State} (hw : Table.wf Config.nodeCap s.node = true) {i : Nat} {nd : Node} :
    s.nodeAt i = some nd ↔ i < s.nn ∧ (i, nd) ∈ s.node := by
  refine ⟨fun h => ⟨State.nodeAt_lt h, Table.get?_mem (State.nodeAt_get h)⟩, fun ⟨h1, h2⟩ => ?_⟩
  simp [State.nodeAt, h1, Table.get?_of_mem (Table.wf_iff.1 hw).1 h2]

/-- The core's turn, by phase: what it does where it is not waiting. -/
theorem coreStep_eq {s : State} (h : s.waiting = false) :
    coreStep s = match decode (.select s.selector) with
      | .ok i => exec i s
      | .error .quiescent => .next s
      | .error _ => .fault .noEnabledRow :=
  if_neg (by simp [h])

end Sys2Proof.Machine
end

