-- ==== Sys2Proof/Laws/PerInstr.lean ====
section
/-! SUPPORT. The family EncodeDecodes: the decoder gives back every well-formed instruction from its encoding, one lemma
per constructor. -/

namespace Sys2Proof.Laws.EncodeDecodes

/-- The decoder gives `i` back from its encoding. -/
def Statement (i : Instr) : Prop := i.wellFormed = true → decode (encode i) = .ok i

/-- Nothing of an `n`-bit string lies beyond its first `n` bits. -/
theorem take_bitsOf (n v : Nat) : (bitsOf n v).take n = bitsOf n v :=
  List.take_of_length_le (by simp)

/-- A word's bits, read back, are the word. -/
theorem ofNat_valOf_bitsOf {n : Nat} (v : BitVec n) : BitVec.ofNat n (valOf (bitsOf n v.toNat)) = v := by
  rw [valOf_bitsOf, Nat.mod_eq_of_lt v.isLt, BitVec.ofNat_toNat, BitVec.setWidth_eq]

theorem decodeToken_magic {bits : Bits} (h : bits.length = 32) :
    decodeToken .magic bits = .ok (.magic (BitVec.ofNat 32 (valOf bits)), []) := by
  have h1 : ¬ bits.length < Config.magicW := by simp [h]
  simp only [decodeToken, if_neg h1]
  rw [List.take_of_length_le (by simp [h]), List.drop_of_length_le (by simp [h])]

theorem decodeToken_leaf {bits : Bits} (h : bits.length = 9) :
    decodeToken .header (true :: bits) = .ok (.hdrLeaf (BitVec.ofNat 9 (valOf bits)), []) := by
  have h1 : ¬ bits.length < Config.symW := by simp [h]
  simp only [decodeToken, if_neg h1]
  rw [List.take_of_length_le (by simp [h]), List.drop_of_length_le (by simp [h])]

theorem magic (m : Word) : Statement (.magic m) := by
  unfold Statement
  intro _
  show decode (.token .magic (bitsOf 32 m.toNat)) = _
  rw [decode, decodeToken_magic (bitsOf_length 32 m.toNat), ofNat_valOf_bitsOf]

theorem hdrInt : Statement .hdrInt := fun _ => rfl

theorem hdrLeaf (sym : Sym) : Statement (.hdrLeaf sym) := by
  unfold Statement
  intro _
  show decode (.token .header (true :: bitsOf 9 sym.toNat)) = _
  rw [decode, decodeToken_leaf (bitsOf_length 9 sym.toNat), ofNat_valOf_bitsOf]

theorem payBit (b : Bool) : Statement (.payBit b) := fun _ => rfl
theorem nop : Statement .nop := fun _ => rfl
theorem compress : Statement .compress := fun _ => rfl
theorem decompress : Statement .decompress := fun _ => rfl
theorem clear : Statement .clear := fun _ => rfl

theorem cmdRsvd (op : BitVec 3) : Statement (.cmdRsvd op) := by
  revert op
  unfold Statement
  decide

theorem cntByte : Statement .cntByte := fun _ => rfl
theorem cntEnd : Statement .cntEnd := fun _ => rfl
theorem pqLeaf : Statement .pqLeaf := fun _ => rfl
theorem pqScanEnd : Statement .pqScanEnd := fun _ => rfl
theorem pqWrap : Statement .pqWrap := fun _ => rfl
theorem pqRoot : Statement .pqRoot := fun _ => rfl
theorem pqMerge : Statement .pqMerge := fun _ => rfl
theorem tblStep : Statement .tblStep := fun _ => rfl
theorem tblEnd : Statement .tblEnd := fun _ => rfl
theorem wrMagic : Statement .wrMagic := fun _ => rfl
theorem serInt : Statement .serInt := fun _ => rfl
theorem serLeaf : Statement .serLeaf := fun _ => rfl
theorem serEnd : Statement .serEnd := fun _ => rfl
theorem encByte : Statement .encByte := fun _ => rfl
theorem encEod : Statement .encEod := fun _ => rfl
theorem close : Statement .close := fun _ => rfl
theorem rdMagic : Statement .rdMagic := fun _ => rfl
theorem desInt : Statement .desInt := fun _ => rfl
theorem desLeaf : Statement .desLeaf := fun _ => rfl
theorem desEnd : Statement .desEnd := fun _ => rfl
theorem decBit : Statement .decBit := fun _ => rfl

end Sys2Proof.Laws.EncodeDecodes
end

