-- ==== Sys2Proof/Laws/Select.lean ====
section
/-! SUPPORT. What the sequencer selects in each phase, read off the state (R84). -/

namespace Sys2Proof.Machine

theorem select_count {s : State} (h : s.phase = .count) :
    decode (.select s.selector) = .ok (if (s.peek 8).isSome then .cntByte else .cntEnd) := by
  simp [decode, selectOp, State.selector, h, Phase.code, Phase.ofCode, Phase.firstRead]

theorem select_leaves {s : State} (h : s.phase = .leaves) :
    decode (.select s.selector) =
      if s.scan ≤ 256 then .ok .pqLeaf else if s.scan = 257 then .ok .pqScanEnd else .error .noRow := by
  simp [decode, selectOp, State.selector, h, Phase.code, Phase.ofCode, Phase.firstRead]

theorem select_merge {s : State} (h : s.phase = .merge) :
    decode (.select s.selector) =
      if 2 ≤ s.qn then .ok .pqMerge
      else if s.qn = 1 ∧ s.nn = 1 then .ok .pqWrap
      else if s.qn = 1 ∧ 1 < s.nn then .ok .pqRoot
      else .error .noRow := by
  simp [decode, selectOp, State.selector, h, Phase.code, Phase.ofCode, Phase.firstRead]

theorem select_derive {s : State} (h : s.phase = .derive) :
    decode (.select s.selector) = .ok (if 0 < s.sp then .tblStep else .tblEnd) := by
  simp [decode, selectOp, State.selector, h, Phase.code, Phase.ofCode, Phase.firstRead]

theorem select_wmagic {s : State} (h : s.phase = .wmagic) : decode (.select s.selector) = .ok .wrMagic := by
  simp [decode, selectOp, State.selector, h, Phase.code, Phase.ofCode, Phase.firstRead]

theorem select_ser {s : State} (h : s.phase = .ser) :
    decode (.select s.selector) =
      .ok (if 0 < s.sp then (if s.topLeaf then .serLeaf else .serInt) else .serEnd) := by
  simp [decode, selectOp, State.selector, h, Phase.code, Phase.ofCode, Phase.firstRead]

theorem select_encode {s : State} (h : s.phase = .encode) :
    decode (.select s.selector) = .ok (if (s.peek 8).isSome then .encByte else .encEod) := by
  simp [decode, selectOp, State.selector, h, Phase.code, Phase.ofCode, Phase.firstRead]

theorem select_close {s : State} (h : s.phase = .close) : decode (.select s.selector) = .ok .close := by
  simp [decode, selectOp, State.selector, h, Phase.code, Phase.ofCode, Phase.firstRead]

theorem select_rmagic {s : State} (h : s.phase = .rmagic) : decode (.select s.selector) = .ok .rdMagic := by
  simp [decode, selectOp, State.selector, h, Phase.code, Phase.ofCode, Phase.firstRead]

theorem select_deser {s : State} (h : s.phase = .deser) :
    decode (.select s.selector) =
      .ok (if s.nn = 0 ∨ 0 < s.sp then (if s.peek 1 = some 1 then .desLeaf else .desInt) else .desEnd) := by
  simp [decode, selectOp, State.selector, h, Phase.code, Phase.ofCode, Phase.firstRead]

theorem select_decode {s : State} (h : s.phase = .decode) : decode (.select s.selector) = .ok .decBit := by
  simp [decode, selectOp, State.selector, h, Phase.code, Phase.ofCode, Phase.firstRead]

theorem select_quiescent {s : State} (h : s.phase = .idle ∨ s.phase = .done ∨ s.phase = .fault) :
    decode (.select s.selector) = .error .quiescent := by
  rcases h with h | h | h <;> simp [decode, selectOp, State.selector, h, Phase.code, Phase.ofCode]

/-- A read that the sequencer looked ahead at and that is served returns what it saw. -/
theorem peek_ok {s : State} {n : Nat} (h : s.answer = .ok) :
    s.peek n = if s.inp.pos + n ≤ s.inp.len then some (valOf (s.inp.next n)) else none := by
  simp [State.peek, h]

/-- A bit that was read is 0 or 1, and says which bit stood there. -/
theorem valOf_next_one (c : InChan) :
    (valOf (c.next 1) = 0 ∧ c.next 1 = [false]) ∨ (valOf (c.next 1) = 1 ∧ c.next 1 = [true]) := by
  have h : c.next 1 = [streamBit c.bytes c.pos] := rfl
  rw [h]
  cases streamBit c.bytes c.pos <;> simp [valOf]

end Sys2Proof.Machine
end

