-- ==== Sys2Proof/Tests/Slice0.lean ====
section
/-! SUPPORT. Tests of the model against the spec's examples, one or two per instruction, and for every statement with
hypotheses a concrete state and operands that meet them all. -/

namespace Sys2Proof.Tests

open Sys2Proof.Machine

/-! ## Helpers -/

/-- The state a result goes on with; the state after reset where it does not. -/
def after : Result → State
  | .next t => t
  | _ => State.reset

/-- The result is a next state. -/
def goesOn : Result → Bool
  | .next _ => true
  | _ => false

/-- The reason of a refusal. -/
def refusal : Result → Option Refusal
  | .refused r => some r
  | _ => none

/-- IN holds `bytes` from its start, the core stands in `p`. -/
def reading (p : Phase) (bytes : List Byte) : State :=
  { State.reset with phase := p, inp := { bytes := bytes, pos := 0, again := none } }

/-- The tree `(#97 (#98 EOD))` as the builder leaves it for "aab" (R113, R114), root 4, stack empty. -/
def withTree (s : State) : State :=
  { s with
    node := [(0, .leaf 97 2 false), (1, .leaf 98 1 false), (2, .leaf 256 1 false),
      (3, .inner 2 (some 1) (some 2) false), (4, .inner 4 (some 0) (some 3) false)]
    nn := 5, root := some 4, cur := some 4 }

/-- One entry on the stack. -/
def withTop (n : Nat) (c : Option Code) (s : State) : State := { s with stk := [(0, { n := some n, code := c })], sp := 1 }

/-! ## Well-formedness -/

/-- R79: 257 is no Symbol; R83: a reserved opcode has bit 2 set. -/
theorem test_ill_formed_leaf : (Instr.hdrLeaf 257).wellFormed = false := by decide
theorem test_ill_formed_reserved : (Instr.cmdRsvd 1).wellFormed = false := by decide
theorem test_well_formed_bounds :
    (Instr.hdrLeaf 256).wellFormed = true ∧ (Instr.cmdRsvd 4).wellFormed = true ∧ (Instr.cmdRsvd 7).wellFormed = true := by
  decide

/-! ## Decoding, by words written out from the spec -/

/-- R82, R83; V70: OP is the low three bits, the others are ignored. -/
theorem test_decode_commands :
    [0x00000000, 0x00000001, 0x00000002, 0x00000003, 0x00000004, 0x00000005, 0x00000006, 0x00000007, 0xFFFFFFF8,
      0x80000009].map decodeCommand =
    [.nop, .compress, .decompress, .clear, .cmdRsvd 4, .cmdRsvd 5, .cmdRsvd 6, .cmdRsvd 7, .nop, .compress] := by decide

/-- R147: the header of `(#97 (#98 EOD))` is 0 1001100001 0 1001100010 1100000000; read token by token. -/
theorem test_decode_header :
    decodeToken .header [false, true] = .ok (.hdrInt, [true]) ∧
    decodeToken .header [true, false, false, true, true, false, false, false, false, true, false] =
      .ok (.hdrLeaf 97, [false]) ∧
    decodeToken .header [true, false, false, true, true, false, false, false, true, false] = .ok (.hdrLeaf 98, []) ∧
    decodeToken .header [true, true, false, false, false, false, false, false, false, false] = .ok (.hdrLeaf 256, []) ∧
    decodeToken .header [true, true, false, false, false, false, false, false, false] = .error .cutShort := by decide

/-- R71: the bytes FA CE 82 01, most significant bit first; R76: a payload bit. -/
theorem test_decode_magic_and_payload :
    decodeToken .magic (bitsOfBytes [0xFA, 0xCE, 0x82, 0x01]) = .ok (.magic 0xFACE8201, []) ∧
    decodeToken .payload [true] = .ok (.payBit true, []) ∧ decodeToken .payload [] = .error .cutShort := by decide

/-- R84: every row, at the ends of its condition's range. -/
theorem test_select_rows :
    let c : Selector := { code := 0, first := none, scan := 0, nn := 0, qn := 0, sp := 0, topLeaf := false }
    [{ c with code := 1, first := some 255 }, { c with code := 1 }, { c with code := 2, scan := 256 },
      { c with code := 2, scan := 257 }, { c with code := 3, qn := 1, nn := 1 }, { c with code := 3, qn := 1, nn := 2 },
      { c with code := 3, qn := 2, nn := 2 }, { c with code := 4, sp := 1 }, { c with code := 4 }, { c with code := 5 },
      { c with code := 6, sp := 1 }, { c with code := 6, sp := 1, topLeaf := true }, { c with code := 6 },
      { c with code := 7, first := some 0 }, { c with code := 7 }, { c with code := 8 }, { c with code := 9 },
      { c with code := 10, first := some 0 }, { c with code := 10, first := some 1, nn := 513, sp := 1 },
      { c with code := 10, nn := 1 }, { c with code := 11 }].map selectOp =
    [.cntByte, .cntEnd, .pqLeaf, .pqScanEnd, .pqWrap, .pqRoot, .pqMerge, .tblStep, .tblEnd, .wrMagic, .serInt, .serLeaf,
      .serEnd, .encByte, .encEod, .close, .rdMagic, .desInt, .desLeaf, .desEnd, .decBit].map Except.ok := by decide

/-- R84: the quiescent phases select nothing, 14 and 15 are no phase, and a phase none of whose rows holds selects
nothing. -/
theorem test_select_none :
    let c : Selector := { code := 0, first := none, scan := 0, nn := 0, qn := 0, sp := 0, topLeaf := false }
    [c, { c with code := 12 }, { c with code := 13 }, { c with code := 14 }, { c with code := 15 },
      { c with code := 2, scan := 258 }, { c with code := 3 }].map selectOp =
    [.error .quiescent, .error .quiescent, .error .quiescent, .error .noSuchPhase, .error .noSuchPhase, .error .noRow,
      .error .noRow] := by decide

/-- Log 20: what the words of the opcode table stand for. -/
theorem test_table_words :
    [(32, 0xFACE8201), (8, 0), (8, 3), (8, 4), (8, 5), (8, 8), (8, 9), (8, 11), (8, 13), (8, 15), (16, 512 + 97), (16, 0)].map
      (fun e => decodeTableWord e.1 e.2) =
    [some (.magic 0xFACE8201), some .nop, some .clear, some (.cmdRsvd 4), some .wrMagic, some .close, some .rdMagic, some .decBit,
      none, none, some (.hdrLeaf 97), some .hdrInt] := by decide

/-! ## Placing an instruction (log 21) -/

/-- Every instruction is placed so that the very next step goes on. -/
theorem test_place_steps :
    [Instr.magic 0xFACE8201, .hdrInt, .hdrLeaf 256, .payBit true, .nop, .compress, .decompress, .clear, .cmdRsvd 5,
      .cntByte, .cntEnd, .pqLeaf, .pqScanEnd, .pqWrap, .pqRoot, .pqMerge, .tblStep, .tblEnd, .wrMagic, .serInt, .serLeaf,
      .serEnd, .encByte, .encEod, .close, .rdMagic, .desInt, .desLeaf, .desEnd, .decBit].all
      (fun i => goesOn (step (State.reset.place i))) = true := by decide

/-- Every micro-operation is placed so that the sequencer selects it. -/
theorem test_place_selects :
    let ops := [Instr.cntByte, .cntEnd, .pqLeaf, .pqScanEnd, .pqWrap, .pqRoot, .pqMerge, .tblStep, .tblEnd, .wrMagic,
      .serInt, .serLeaf, .serEnd, .encByte, .encEod, .close, .rdMagic, .desInt, .desLeaf, .desEnd, .decBit]
    ops.map (fun i => decode (.select (State.reset.place i).selector)) = ops.map Except.ok := by decide

/-- Every stream token is placed at the cursor. -/
theorem test_place_tokens :
    let tokens := [Instr.magic 0xFACE8201, .magic 7, .hdrInt, .hdrLeaf 0, .hdrLeaf 256, .payBit false, .payBit true]
    tokens.map (fun i => (State.reset.place i).tokenAt) = tokens.map some := by decide

/-! ## One step of each instruction, by the spec's examples -/

/-- R101: FREQ[0x41] == 4, next byte 0x41. -/
theorem test_cnt_byte :
    let t := after (exec .cntByte { reading .count [0x41, 0x42] with freq := [(0x41, 4)] })
    t.freqAt 0x41 = 5 ∧ t.inp.pos = 8 ∧ t.phase = .count := by decide

/-- R104: a counter at its maximum raises E_CNTOVF, unchanged, the byte consumed. -/
theorem test_cnt_byte_overflow :
    let t := after (exec .cntByte { reading .count [9] with freq := [(9, 15)], par := { magic := 0, cntW := some 4 } })
    t.freqAt 9 = 15 ∧ t.inp.pos = 8 ∧ t.phase = .fault ∧ t.errcode = .eCntovf := by decide

/-- R102: after "aab". -/
theorem test_cnt_end :
    let t := after (exec .cntEnd
      { reading .count [0x61] with freq := [(97, 2), (98, 1)], inp := { bytes := [0x61], pos := 8, again := none } })
    [t.freqAt 97, t.freqAt 98, t.freqAt 256, t.freqAt 0] = [2, 1, 1, 0] ∧ t.inp.pos = 0 ∧ t.phase = .leaves := by decide

/-- R111: FREQ[97] == 2 makes the leaf NODE[0]. -/
theorem test_pq_leaf :
    let t := after (exec .pqLeaf { State.reset with phase := .leaves, scan := 97, freq := [(97, 2)] })
    t.nodeAt 0 = some (.leaf 97 2 true) ∧ t.nn = 1 ∧ t.qn = 1 ∧ t.scan = 98 := by decide

/-- R111: a symbol with count 0 gets no leaf. -/
theorem test_pq_leaf_none :
    let t := after (exec .pqLeaf { State.reset with phase := .leaves, scan := 98, freq := [(97, 2)] })
    t.nn = 0 ∧ t.qn = 0 ∧ t.scan = 99 := by decide

theorem test_pq_scan_end : (after (exec .pqScanEnd { State.reset with scan := 257 })).phase = .merge := by decide

/-- R113: the leaves of "aab"; removeMin gives 1, then 2. -/
theorem test_pq_merge :
    let t := after (exec .pqMerge
      { State.reset with
        phase := .merge, nn := 3, qn := 3
        node := [(0, .leaf 97 2 true), (1, .leaf 98 1 true), (2, .leaf 256 1 true)] })
    t.nodeAt 3 = some (.inner 2 (some 1) (some 2) true) ∧ t.nodeAt 0 = some (.leaf 97 2 true) ∧
      t.nodeAt 1 = some (.leaf 98 1 false) ∧ t.nn = 4 ∧ t.qn = 2 := by decide

/-- R115: the empty input's tree. -/
theorem test_pq_wrap :
    let t := after (exec .pqWrap { State.reset with phase := .merge, nn := 1, qn := 1, node := [(0, .leaf 256 1 true)] })
    t.node = [(0, .leaf 256 1 false), (1, .leaf 0 0 false), (2, .inner 1 (some 0) (some 1) true)] ∧ t.nn = 3 ∧
      t.qn = 1 ∧ t.phase = .merge := by decide

/-- R114. -/
theorem test_pq_root :
    let t := after (exec .pqRoot ((withTree { State.reset with phase := .merge, qn := 1 }).setNode 4
      (.inner 4 (some 0) (some 3) true)))
    t.root = some 4 ∧ t.qn = 0 ∧ t.top = some { n := some 4, code := some { len := 0, bits := 0 } } ∧
      t.phase = .derive := by decide

/-- R126: pop (4, 0, 0), push (3, 1, 1) and (0, 1, 0). -/
theorem test_tbl_step_inner :
    let t := after (exec .tblStep (withTop 4 (some { len := 0, bits := 0 }) (withTree State.reset)))
    t.stk = [(0, { n := some 3, code := some { len := 1, bits := 1 } }),
      (1, { n := some 0, code := some { len := 1, bits := 0 } })] ∧ t.sp = 2 := by decide

/-- R126: leaf 98 with the path 10. -/
theorem test_tbl_step_leaf :
    let t := after (exec .tblStep (withTop 1 (some { len := 2, bits := 2 }) (withTree State.reset)))
    t.codeAt 98 = { len := 2, bits := 2 } ∧ t.codeAt 97 = { len := 0, bits := 0 } ∧ t.sp = 0 := by decide

theorem test_tbl_end : (after (exec .tblEnd { State.reset with phase := .derive })).phase = .wmagic := by decide

/-- R156: the bytes FA CE 82 01. -/
theorem test_wr_magic :
    let t := after (exec .wrMagic (withTree { State.reset with phase := .wmagic }))
    bytesOfBits t.out.bits = [0xFA, 0xCE, 0x82, 0x01] ∧ t.top.map (fun e => e.n) = some (some 4) ∧ t.phase = .ser := by
  decide

/-- R136: writes 0, pushes 3 then 0. -/
theorem test_ser_int :
    let t := after (exec .serInt (withTop 4 none (withTree State.reset)))
    t.out.bits = [false] ∧ t.stk.map (fun e => e.2.n) = [some 3, some 0] ∧ t.sp = 2 := by decide

/-- R137: leaf 97 is 1 001100001. -/
theorem test_ser_leaf :
    let t := after (exec .serLeaf (withTop 0 none (withTree State.reset)))
    t.out.bits = [true, false, false, true, true, false, false, false, false, true] ∧ t.sp = 0 := by decide

theorem test_ser_end : (after (exec .serEnd { State.reset with phase := .ser })).phase = .encode := by decide

/-- R158: CODE[98] == (2, 10); byte 0x62. -/
theorem test_enc_byte :
    let t := after (exec .encByte { reading .encode [0x62] with code := [(98, { len := 2, bits := 2 })] })
    t.out.bits = [true, false] ∧ t.inp.pos = 8 ∧ t.phase = .encode := by decide

/-- R159: a byte without a code. -/
theorem test_enc_byte_no_code :
    let t := after (exec .encByte (reading .encode [0x62]))
    t.out.bits = [] ∧ t.inp.pos = 8 ∧ t.phase = .fault ∧ t.errcode = .eNocode := by decide

/-- R160: CODE[256] == (2, 11). -/
theorem test_enc_eod :
    let t := after (exec .encEod { reading .encode [] with code := [(256, { len := 2, bits := 3 })] })
    t.out.bits = [true, true] ∧ t.phase = .close := by decide

/-- R161: a whole number of bytes needs no pad. -/
theorem test_close :
    let t := after (exec .close
      { State.reset with phase := .close, out := { bits := bitsOfBytes [0x61, 0x62], closed := false, delivered := [] } })
    t.phase = .done ∧ t.out.closed = true ∧ t.out.delivered = [0x61, 0x62] := by decide

/-- R161: 70 bits become 9 bytes. -/
theorem test_close_pads :
    let t := after (exec .close
      { State.reset with phase := .close, out := { bits := List.replicate 70 true, closed := false, delivered := [] } })
    t.out.delivered.length = 9 ∧ t.out.bits.length = 70 := by decide

/-- R176: the default magic word is accepted. -/
theorem test_rd_magic :
    let t := after (exec .rdMagic (reading .rmagic [0xFA, 0xCE, 0x82, 0x01]))
    t.phase = .deser ∧ t.inp.pos = 32 := by decide

/-- R176: FA CE 82 00 raises E_FORMAT. -/
theorem test_rd_magic_wrong :
    let t := after (exec .rdMagic (reading .rmagic [0xFA, 0xCE, 0x82, 0x00]))
    t.phase = .fault ∧ t.errcode = .eFormat ∧ t.ioinfo = 0 := by decide

/-- R141: the first token 0 makes NODE[0] internal, ROOT 0, stack [0]. -/
theorem test_des_int :
    let t := after (exec .desInt (reading .deser [0x4C]))
    t.nodeAt 0 = some (.inner 0 none none false) ∧ t.root = some 0 ∧ t.top = some { n := some 0, code := none } ∧
      t.inp.pos = 1 := by decide

/-- R142: 1 001100001 is attached as NODE[0].LEFT and the stack stays. -/
theorem test_des_leaf :
    let t := after (exec .desLeaf
      (withTop 0 none { reading .deser [0x98, 0x40] with nn := 1, node := [(0, .inner 0 none none false)], root := some 0 }))
    t.nodeAt 0 = some (.inner 0 (some 1) none false) ∧ t.nodeAt 1 = some (.leaf 97 0 false) ∧ t.sp = 1 ∧
      t.inp.pos = 10 := by decide

/-- R143: the right child completes the root, which is popped. -/
theorem test_des_leaf_completes :
    let t := after (exec .desLeaf
      (withTop 0 none
        { reading .deser [0xC0, 0x00] with
          nn := 2, node := [(0, .inner 0 (some 1) none false), (1, .leaf 97 0 false)], root := some 0 }))
    t.nodeAt 0 = some (.inner 0 (some 1) (some 2) false) ∧ t.nodeAt 2 = some (.leaf 256 0 false) ∧ t.sp = 0 := by decide

/-- R144. -/
theorem test_des_end :
    let t := after (exec .desEnd { withTree { State.reset with phase := .deser } with cur := none })
    t.cur = some 4 ∧ t.phase = .decode := by decide

/-- R217. -/
theorem test_des_end_leaf :
    let t := after (exec .desEnd { State.reset with phase := .deser, nn := 1, node := [(0, .leaf 97 0 false)], root := some 0 })
    t.phase = .fault ∧ t.errcode = .eRootleaf := by decide

/-- R178: bit 0 reaches leaf 97, which is written, and CUR is ROOT again. -/
theorem test_dec_bit_leaf :
    let t := after (exec .decBit (withTree (reading .decode [0x2C])))
    t.out.bits = bitsOf 8 0x61 ∧ t.cur = some 4 ∧ t.inp.pos = 1 ∧ t.phase = .decode := by decide

/-- R178: bit 1 reaches the internal node 3. -/
theorem test_dec_bit_inner :
    let t := after (exec .decBit (withTree (reading .decode [0x80])))
    t.out.bits = [] ∧ t.cur = some 3 ∧ t.phase = .decode := by decide

/-- R71 and R89: the token interpreted as an instruction; elsewhere it is not the next one. -/
theorem test_token_magic : (after (exec (.magic 0xFACE8201) (reading .rmagic [0xFA, 0xCE, 0x82, 0x01]))).phase = .deser := by
  decide
theorem test_token_elsewhere :
    refusal (exec (.magic 0xFACE8201) (reading .deser [0xFA, 0xCE, 0x82, 0x01])) = some .notSelected := by decide

theorem test_token_hdr_int : (after (exec .hdrInt (reading .deser [0x4C]))).nn = 1 := by decide

/-- R79: 257 decodes and is refused as E_RSVSYM when it is read. -/
theorem test_token_hdr_leaf_reserved :
    let t := after (exec (.hdrLeaf 257) (reading .deser [0xC0, 0x40]))
    t.phase = .fault ∧ t.errcode = .eRsvsym ∧ t.inp.pos = 10 ∧ t.nn = 0 := by decide
theorem test_token_hdr_leaf : (after (exec (.hdrLeaf 256) (reading .deser [0xC0, 0x00]))).root = some 0 := by decide

/-- R180: bits 1 and 1 reach the sentinel. -/
theorem test_token_pay_bit :
    let t := after (exec (.payBit true) { withTree (reading .decode [0x80]) with cur := some 3 })
    t.phase = .close ∧ t.out.bits = [] := by decide

/-- R198, R196. -/
theorem test_compress :
    let t := after (exec .compress { withTree State.reset with phase := .done, freq := [(1, 2)] })
    t.phase = .count ∧ t.nn = 0 ∧ t.root = none ∧ t.freqAt 1 = 0 ∧ t.statusWord = 0x00000101 := by decide

/-- R199. -/
theorem test_decompress : (after (exec .decompress State.reset)).statusWord = 0x00000901 := by decide

/-- R201: STATUS 0x00000D34 becomes 0x00000000. -/
theorem test_clear :
    let s := { State.reset with phase := .fault, errcode := .eTrunc }
    s.statusWord = 0x00000D34 ∧ (after (exec .clear s)).statusWord = 0x00000000 := by decide

/-- R197: STATUS is 0x00000C02 before and after. -/
theorem test_nop : (after (exec .nop { State.reset with phase := .done })).statusWord = 0x00000C02 := by decide

/-- R202: writing 7 in P_IDLE gives STATUS 0x00000DA4. -/
theorem test_cmd_rsvd :
    (after (step { State.reset with moves := [.write .cmd 7] })).statusWord = 0x00000DA4 := by decide

/-! ## Witnesses: a concrete state and operands for the hypotheses of each statement -/

/-- The host is about to write COMPRESS on the input "aab"; OUT is open and empty. -/
def aboutToCompress : State :=
  { State.reset with moves := [.write .cmd 1], inp := { bytes := [0x61, 0x61, 0x62], pos := 0, again := none } }

/-- P_LEAVES as CNT.END leaves it for the empty input. -/
def leavesOfNothing : State := { State.reset with phase := .leaves, freq := [(256, 1)] }

/-- P_DECODE on the tree `(#97 (#98 EOD))` with the payload of "aab" and its padding. -/
def decoding : State := withTree (reading .decode [0x2C])

/-- An earlier command has left tables and registers behind. -/
def usedBefore : State :=
  { withTree State.reset with phase := .done, freq := [(97, 2)], code := [(97, { len := 1, bits := 0 })], scan := 257 }

theorem witness_DecodeOfEncodeIsTheInstruction :
    (Instr.hdrLeaf 256).wellFormed = true ∧ encode (.hdrLeaf 256) = .token .header (tokenBits (.hdrLeaf 256)) ∧
    (Instr.cmdRsvd 7).wellFormed = true ∧ (Instr.cmdRsvd 7).kind = .command ∧
    (0xFFFFFFFF : Word).extractLsb' 0 3 = (commandWord (.cmdRsvd 7)).extractLsb' 0 3 := by decide

theorem witness_DecodedTokenIsWhatStood :
    decodeToken .header [true, true, false, false, false, false, false, false, false, false, true] =
      .ok (.hdrLeaf 256, [true]) := by decide

theorem witness_CommandWordOpcodes :
    (0xFFFFFFF8 : Word).extractLsb' 0 3 = 0 ∧ (0x80000001 : Word).extractLsb' 0 3 = 1 ∧
    (2 : Word).extractLsb' 0 3 = 2 ∧ (3 : Word).extractLsb' 0 3 = 3 ∧ 4 ≤ ((4 : Word).extractLsb' 0 3).toNat ∧
    (0xFFFFFFF8 : Word).extractLsb' 0 3 = (0 : Word).extractLsb' 0 3 := by decide

/-- `test_select_rows` and `test_select_none` run every clause at the ends of its range; here the two that meet. -/
theorem witness_PhaseMapSelects :
    let c : Selector := { code := 10, first := some 1, scan := 0, nn := 1, qn := 0, sp := 1, topLeaf := false }
    c.code = 10 ∧ (c.nn = 0 ∨ 0 < c.sp) ∧ c.first = some 1 ∧
      (let d : Selector := { c with sp := 0 }; 0 < d.nn ∧ d.sp = 0 ∧ ¬(d.nn = 0 ∨ 0 < d.sp)) := by decide

theorem witness_StepRunsTheDecodedInstruction :
    let s := reading .rmagic [0xFA, 0xCE, 0x82, 0x01]
    s.moves = [] ∧ s.waiting = false ∧ decode (.select s.selector) = .ok .rdMagic ∧
    s.tokenAt = some (.magic 0xFACE8201) ∧ aboutToCompress.moves = .write .cmd 1 :: [] := by decide

theorem witness_HostAccesses :
    ({ decoding with moves := [.read .status] } : State).moves = .read .status :: [] ∧
    ({ decoding with moves := [.write .ioinfo 5] } : State).moves = .write .ioinfo 5 :: [] ∧
      CtrlReg.ioinfo ≠ .cmd := by decide

theorem witness_HardwareReset :
    ({ decoding with waiting := true, moves := [.reset] } : State).moves = .reset :: [] := by decide

theorem witness_ChannelsAreTheHostsOnlyWhenNotBusy :
    let m := Move.attachIn [1] 8 none
    ({ decoding with moves := [m] } : State).moves = m :: [] ∧ decoding.busy = true ∧
      State.reset.busy = false ∧ 8 ≤ 8 * [(1 : Byte)].length ∧
      ({ decoding with moves := [.attachOut] } : State).moves = .attachOut :: [] := by decide

theorem witness_CommandStart : usedBefore.busy = false := by decide

theorem witness_BusyDropsCommands :
    decoding.busy = true ∧ Instr.kind .clear = .command ∧
      ({ decoding with moves := [.write .cmd 3] } : State).moves = .write .cmd 3 :: [] := by decide

theorem witness_NopClearReserved :
    usedBefore.busy = false ∧ ({ usedBefore with moves := [.write .cmd 8] } : State).moves = .write .cmd 8 :: [] ∧
    (8 : Word).extractLsb' 0 3 = 0 ∧ (0xFFFFFFFB : Word).extractLsb' 0 3 = 3 ∧
    4 ≤ ((4 : Word).extractLsb' 0 3).toNat ∧ 4 ≤ ((7 : Word).extractLsb' 0 3).toNat := by decide

theorem witness_FaultEntry :
    ({ decoding with answers := [.ioerr 7] } : State).answer = .ioerr 7 ∧
      (after (raise .eTrunc 0 decoding)).moves = [] := by decide

theorem witness_StreamBitOrder : 15 < 8 * [(1 : Byte), 2].length ∧ 8 < 9 := by decide

theorem witness_ReadBits :
    let s := { decoding with inp := { decoding.inp with pos := 7 } }
    s.answer = .ok ∧ s.inp.pos + 1 ≤ s.inp.len ∧ s.inp.len < s.inp.pos + 2 := by decide

theorem witness_CallBoundariesAreNotObservable :
    1 ≤ 8 ∧ decoding.servesTwo ∧ decoding.inp.pos + 8 ≤ decoding.inp.len := ⟨by decide, ⟨by decide, by decide⟩, by decide⟩

theorem witness_CountByte :
    let s := { reading .count [9] with freq := [(9, 15)], par := { magic := 0, cntW := some 4 } }
    s.answer = .ok ∧ s.inp.pos + 8 ≤ s.inp.len ∧ valOf (s.inp.next 8) = 9 ∧ s.par.cntW = some 4 ∧
      s.freqAt 9 = 2 ^ 4 - 1 := by decide

theorem witness_CountByte_below :
    let s := { reading .count [9] with freq := [(9, 14)], par := { magic := 0, cntW := some 4 } }
    s.answer = .ok ∧ s.inp.pos + 8 ≤ s.inp.len ∧ valOf (s.inp.next 8) = 9 ∧
      ∀ w, s.par.cntW = some w → s.freqAt 9 ≠ 2 ^ w - 1 := by
  refine ⟨by decide, by decide, by decide, fun w hw => ?_⟩
  cases hw
  decide

theorem witness_CountEnd :
    let s := reading .count []
    s.servesTwo ∧ s.inp.len < s.inp.pos + 8 := ⟨⟨by decide, by decide⟩, by decide⟩

theorem witness_ExamineSymbol :
    let s := { leavesOfNothing with scan := 256 }
    s.scan ≤ 256 ∧ s.nn < 513 ∧ 0 < s.freqAt s.scan ∧ s.phase = .leaves ∧ leavesOfNothing.freqAt 0 = 0 := by decide

/-- The arena of "aab" before the first merge. -/
def threeLeaves : State :=
  { State.reset with
    phase := .merge, nn := 3, qn := 3
    node := [(0, .leaf 97 2 true), (1, .leaf 98 1 true), (2, .leaf 256 1 true)] }

theorem threeLeaves_only {j : Nat} {md : Node} (h : threeLeaves.nodeAt j = some md) :
    j = 0 ∧ md = .leaf 97 2 true ∨ j = 1 ∧ md = .leaf 98 1 true ∨ j = 2 ∧ md = .leaf 256 1 true := by
  have hj : j < 3 := threeLeaves.nodeAt_lt h
  have : j = 0 ∨ j = 1 ∨ j = 2 := by omega
  rcases this with rfl | rfl | rfl
  · exact .inl ⟨rfl, (Option.some.inj h).symm⟩
  · exact .inr (.inl ⟨rfl, (Option.some.inj h).symm⟩)
  · exact .inr (.inr ⟨rfl, (Option.some.inj h).symm⟩)

theorem threeLeaves_least : threeLeaves.least 1 (.leaf 98 1 true) := by
  refine ⟨rfl, rfl, fun j md h _ => ?_⟩
  rcases threeLeaves_only h with ⟨rfl, rfl⟩ | ⟨rfl, rfl⟩ | ⟨rfl, rfl⟩ <;> decide

theorem witness_RemoveMinTakesTheLeast :
    Table.wf 513 threeLeaves.node = true ∧ 0 < threeLeaves.qn ∧ threeLeaves.least 1 (.leaf 98 1 true) ∧
      ∃ i nd, threeLeaves.nodeAt i = some nd ∧ nd.inq = true :=
  ⟨by decide, by decide, threeLeaves_least, 1, .leaf 98 1 true, rfl, rfl⟩

theorem witness_MergeTheTwoLeast :
    Table.wf 513 threeLeaves.node = true ∧ 2 ≤ threeLeaves.qn ∧ threeLeaves.nn < 513 ∧
      threeLeaves.least 1 (.leaf 98 1 true) ∧ threeLeaves.leastBut 1 2 (.leaf 256 1 true) ∧
      threeLeaves.phase = .merge := by
  refine ⟨by decide, by decide, by decide, threeLeaves_least, ⟨by decide, rfl, rfl, fun j md hj h _ => ?_⟩, rfl⟩
  rcases threeLeaves_only h with ⟨rfl, rfl⟩ | ⟨rfl, rfl⟩ | ⟨rfl, rfl⟩
  · decide
  · exact absurd rfl hj
  · decide

theorem witness_WrapTheLoneLeaf :
    let s := { State.reset with phase := .merge, nn := 1, qn := 1, node := [(0, .leaf 256 1 true)] }
    s.nodeAt 0 = some (.leaf 256 1 true) ∧ s.phase = .merge ∧ s.qn = 1 ∧ s.nn = 1 := by decide

/-- P_MERGE with only the root of `(#97 (#98 EOD))` left. -/
def oneLeft : State := (withTree { State.reset with phase := .merge, qn := 1 }).setNode 4 (.inner 4 (some 0) (some 3) true)

theorem witness_LastNodeIsTheRoot :
    Table.wf 513 oneLeft.node = true ∧ 0 < oneLeft.qn ∧ oneLeft.sp < 513 ∧
      oneLeft.least 4 (.inner 4 (some 0) (some 3) true) ∧ oneLeft.phase = .merge ∧ oneLeft.qn = 1 ∧ 1 < oneLeft.nn := by
  refine ⟨by decide, by decide, by decide, ⟨by decide, rfl, fun j md h hq => ?_⟩, by decide, by decide, by decide⟩
  have hj : j < 5 := oneLeft.nodeAt_lt h
  have : j = 0 ∨ j = 1 ∨ j = 2 ∨ j = 3 ∨ j = 4 := by omega
  rcases this with rfl | rfl | rfl | rfl | rfl <;> cases Option.some.inj h <;>
    first | (cases hq; done) | exact .inr ⟨rfl, le_refl _⟩

theorem witness_VisitOneNode :
    let s := withTop 4 (some { len := 255, bits := 0 }) (withTree { State.reset with phase := .derive })
    s.top = some { n := some 4, code := some { len := 255, bits := 0 } } ∧ s.phase = .derive ∧
      s.nodeAt 4 = some (.inner 4 (some 0) (some 3) false) ∧ 255 + 1 ≤ 256 ∧ s.sp ≤ 512 := by decide

theorem witness_VisitOneNode_leaf :
    let s := withTop 2 (some { len := 2, bits := 3 }) (withTree State.reset)
    s.top = some { n := some 2, code := some { len := 2, bits := 3 } } ∧ s.nodeAt 2 = some (.leaf 256 1 false) ∧
      (256 : Sym).toNat ≤ 256 ∧ Table.wfD 257 { len := 0, bits := 0 } s.code = true := by decide

theorem witness_WriteTheMagicWord : usedBefore.answer = .ok ∧ usedBefore.sp < 513 := by decide

theorem witness_SerialiseOneNode :
    let s := withTop 4 none (withTree State.reset)
    let u := withTop 2 none (withTree State.reset)
    s.top = some { n := some 4, code := none } ∧ s.nodeAt 4 = some (.inner 4 (some 0) (some 3) false) ∧
      s.answer = .ok ∧ s.sp ≤ 512 ∧ u.top = some { n := some 2, code := none } ∧
      u.nodeAt 2 = some (.leaf 256 1 false) ∧ u.answer = .ok ∧ u.called.answer = .ok := by decide

theorem witness_EncodePayload :
    let s := { reading .encode [98] with code := [(98, { len := 2, bits := 2 })] }
    s.answer = .ok ∧ s.inp.pos + 8 ≤ s.inp.len ∧ (s.codeAt (valOf (s.inp.next 8))).len ≠ 0 ∧ s.called.answer = .ok ∧
      (State.codeAt { s with code := [] } 98).len = 0 ∧ (reading .encode []).inp.len < (reading .encode []).inp.pos + 8 := by
  decide

theorem witness_CloseDelivers : decoding.answer = .ok := by decide

theorem witness_CheckTheMagicWord :
    let s := reading .rmagic [0xFA, 0xCE, 0x82, 0x01]
    s.answer = .ok ∧ s.inp.pos + 32 ≤ s.inp.len ∧ s.inp.next 32 = bitsOf 32 (0xFACE8201 : Word).toNat ∧
      s.phase = .rmagic ∧ (0xFACE8201 : Word) = s.par.magic ∧ (0xFACE8200 : Word) ≠ s.par.magic ∧
      (reading .rmagic [0xFA, 0xCE, 0x82]).inp.len < (reading .rmagic [0xFA, 0xCE, 0x82]).inp.pos + 32 := by decide

theorem witness_ReadInternalToken :
    let s := withTop 0 none { reading .deser [0x4C] with nn := 1, node := [(0, .inner 0 none none false)], root := some 0 }
    s.tokenPos = some .header ∧ s.nn < 513 ∧ s.sp < 513 ∧ s.answer = .ok ∧ s.inp.pos + 1 ≤ s.inp.len ∧
      s.inp.next 1 = [false] ∧ s.openTop :=
  ⟨by decide, by decide, by decide, by decide, by decide, by decide, .inr ⟨0, none, 0, none, none, false, by decide, by decide⟩⟩

/-- The root is open with its left child set; the sentinel's leaf is next. -/
def closingHeader : State :=
  withTop 0 none
    { reading .deser [0xC0, 0x00] with
      nn := 2, node := [(0, .inner 0 (some 1) none false), (1, .leaf 97 0 false)], root := some 0 }

theorem witness_ReadLeafToken :
    closingHeader.tokenPos = some .header ∧ closingHeader.nn < 513 ∧ closingHeader.servesTwo ∧
      closingHeader.inp.pos + 10 ≤ closingHeader.inp.len ∧
      closingHeader.inp.next 10 = true :: bitsOf 9 (256 : Sym).toNat ∧ (256 : Sym).toNat ≤ 256 ∧
      closingHeader.openStack := by
  refine ⟨by decide, by decide, ⟨by decide, by decide⟩, by decide, by decide, by decide, fun p hp => ?_⟩
  have : p = 0 := by have : p < 1 := hp; omega
  subst this
  exact ⟨0, none, 0, some 1, none, false, by decide, by decide⟩

theorem witness_HeaderFaults :
    let full := { closingHeader with nn := 513 }
    let noBit := { closingHeader with inp := { closingHeader.inp with pos := 16 } }
    let noSymbol := { closingHeader with inp := { bytes := [0x01], pos := 7, again := none } }
    let reserved := { closingHeader with inp := { bytes := [0xC0, 0x40], pos := 0, again := none } }
    full.nn = 513 ∧ noBit.nn ≠ 513 ∧ noBit.answer = .ok ∧ noBit.inp.len < noBit.inp.pos + 1 ∧
      noSymbol.nn ≠ 513 ∧ noSymbol.answer = .ok ∧ noSymbol.called.answer = .ok ∧
      noSymbol.inp.pos + 1 ≤ noSymbol.inp.len ∧ noSymbol.inp.next 1 = [true] ∧
      noSymbol.inp.len < noSymbol.inp.pos + 10 ∧ reserved.tokenPos = some .header ∧
      reserved.inp.pos + 10 ≤ reserved.inp.len ∧ reserved.inp.next 10 = true :: bitsOf 9 (257 : Sym).toNat ∧
      256 < (257 : Sym).toNat := by decide

theorem witness_HeaderEnd :
    let s := withTree { State.reset with phase := .deser }
    s.root = some 4 ∧ s.nodeAt 4 = some (.inner 4 (some 0) (some 3) false) ∧ s.phase = .deser ∧ s.sp = 0 ∧
      Node.kindBit (.inner 4 (some 0) (some 3) false) = false ∧
      ({ s with root := some 0 } : State).nodeAt 0 = some (.leaf 97 2 false) ∧ Node.kindBit (.leaf 97 2 false) = true := by
  decide

theorem witness_DecodeOneBit :
    decoding.answer = .ok ∧ decoding.phase = .decode ∧ decoding.inp.pos + 1 ≤ decoding.inp.len ∧
      decoding.inp.next 1 = [false] ∧ decoding.cur = some 4 ∧
      decoding.nodeAt 4 = some (.inner 4 (some 0) (some 3) false) ∧ 0 = (if false then 3 else 0) ∧
      decoding.nodeAt 0 = some (.leaf 97 2 false) ∧ (97 : Sym).toNat ≤ 255 ∧ decoding.called.answer = .ok := by decide

theorem witness_DecodeOneBit_others :
    let atNode3 := { decoding with cur := some 3, inp := { bytes := [0x80], pos := 0, again := none } }
    let ended := { decoding with inp := { decoding.inp with pos := 8 } }
    atNode3.inp.next 1 = [true] ∧ atNode3.nodeAt 3 = some (.inner 2 (some 1) (some 2) false) ∧
      atNode3.nodeAt 2 = some (.leaf 256 1 false) ∧ (256 : Sym).toNat = 256 ∧
      atNode3.nodeAt 4 = some (.inner 4 (some 0) (some 3) false) ∧
      atNode3.nodeAt 3 = some (.inner 2 (some 1) (some 2) false) ∧ ended.inp.len < ended.inp.pos + 1 := by decide

theorem witness_NotTheNextInstruction :
    let s := closingHeader
    let e := reading .count []
    e.answer = .ok ∧ e.inp.len < e.inp.pos + 8 ∧ s.answer = .ok ∧ s.inp.pos + 8 ≤ s.inp.len ∧ s.nn ≠ 513 ∧
      s.inp.next 1 = [true] ∧ decoding.inp.next 1 = [false] ∧ Instr.kind .hdrInt = .token ∧
      s.tokenAt ≠ some .hdrInt ∧
      (let u := withTop 4 none (withTree State.reset)
       u.top = some { n := some 4, code := none } ∧ u.nodeAt 4 = some (.inner 4 (some 0) (some 3) false) ∧
        Node.kindBit (.inner 4 (some 0) (some 3) false) = false) ∧
      (let u := withTop 2 none (withTree State.reset)
       u.top = some { n := some 2, code := none } ∧ u.nodeAt 2 = some (.leaf 256 1 false) ∧
        Node.kindBit (.leaf 256 1 false) = true) := by decide

theorem witness_FirstCallFails :
    let s := { withTop 4 none (withTree (reading .ser [])) with answers := [.ioerr 7] }
    s.answer = .ioerr 7 ∧ s.top = some { n := some 4, code := none } ∧
      s.nodeAt 4 = some (.inner 4 (some 0) (some 3) false) ∧ Node.kindBit (.inner 4 (some 0) (some 3) false) = false ∧
      Instr.cntByte ∈ [Instr.cntByte, .cntEnd, .encByte, .encEod, .rdMagic, .decBit] ∧ s.nn ≠ 513 := by decide

theorem witness_SecondCallFails :
    let fails (s : State) : State := { s with answers := [.ok, .ioerr 7] }
    let s := fails { reading .encode [98] with code := [(98, { len := 2, bits := 2 })] }
    let u := fails (withTop 2 none (withTree (reading .ser [])))
    let d := fails closingHeader
    let b := fails decoding
    s.answer = .ok ∧ s.called.answer = .ioerr 7 ∧ s.inp.pos + 8 ≤ s.inp.len ∧
      (s.codeAt (valOf (s.inp.next 8))).len ≠ 0 ∧ u.answer = .ok ∧ u.called.answer = .ioerr 7 ∧
      u.inp.len < u.inp.pos + 8 ∧ u.top = some { n := some 2, code := none } ∧
      u.nodeAt 2 = some (.leaf 256 1 false) ∧ d.nn ≠ 513 ∧ d.inp.pos + 1 ≤ d.inp.len ∧ d.inp.next 1 = [true] ∧
      b.inp.pos + 1 ≤ b.inp.len ∧ b.inp.next 1 = [false] ∧ b.cur = some 4 ∧
      b.nodeAt 4 = some (.inner 4 (some 0) (some 3) false) ∧ b.nodeAt 0 = some (.leaf 97 2 false) := by decide

theorem witness_BlockedCallWaits :
    let s := { decoding with answers := [.never] }
    let t := after (exec .decBit s)
    s.answer = .never ∧ Instr.decBit ∈ [Instr.cntByte, .cntEnd, .wrMagic, .encByte, .encEod, .close, .rdMagic, .decBit] ∧
      closingHeader.nn ≠ 513 ∧ t.waiting = true ∧ t.moves = [] ∧ t.busy = true ∧
      (after (step { t with moves := [.reset] })).waiting = false := by decide

theorem witness_BlockedCallWaits_serialiser :
    let s := { withTop 4 none (withTree (reading .ser [])) with answers := [.never] }
    let u := { withTop 2 none (withTree (reading .ser [])) with answers := [.never] }
    s.answer = .never ∧ s.top = some { n := some 4, code := none } ∧
      s.nodeAt 4 = some (.inner 4 (some 0) (some 3) false) ∧ u.answer = .never ∧
      u.top = some { n := some 2, code := none } ∧ u.nodeAt 2 = some (.leaf 256 1 false) ∧
      Node.kindBit (.inner 4 (some 0) (some 3) false) = false ∧ Node.kindBit (.leaf 256 1 false) = true := by decide

theorem witness_BlockedCallWaits_second_call :
    let blocks (s : State) : State := { s with answers := [.ok, .never] }
    let s := blocks { reading .encode [98] with code := [(98, { len := 2, bits := 2 })] }
    let u := blocks (withTop 2 none (withTree (reading .ser [])))
    let d := blocks closingHeader
    let b := blocks decoding
    s.answer = .ok ∧ s.called.answer = .never ∧ s.inp.pos + 8 ≤ s.inp.len ∧
      (s.codeAt (valOf (s.inp.next 8))).len ≠ 0 ∧ u.answer = .ok ∧ u.called.answer = .never ∧
      u.inp.len < u.inp.pos + 8 ∧ u.top = some { n := some 2, code := none } ∧
      u.nodeAt 2 = some (.leaf 256 1 false) ∧ d.answer = .ok ∧ d.called.answer = .never ∧ d.nn ≠ 513 ∧
      d.inp.pos + 1 ≤ d.inp.len ∧ d.inp.next 1 = [true] ∧ b.answer = .ok ∧ b.called.answer = .never ∧
      b.inp.pos + 1 ≤ b.inp.len ∧ b.inp.next 1 = [false] ∧ b.cur = some 4 ∧
      b.nodeAt 4 = some (.inner 4 (some 0) (some 3) false) ∧ b.nodeAt 0 = some (.leaf 97 2 false) := by decide

theorem witness_QuiescentStays : usedBefore.quiescent ∧ usedBefore.moves = [] := ⟨.inr (.inl rfl), rfl⟩

theorem witness_WaysOutOfDoneAndFault :
    let s := { usedBefore with moves := [.write .cmd 7] }
    s.phase = .done ∧ step s = .next (after (step s)) ∧ (after (step s)).phase ≠ s.phase := ⟨rfl, rfl, by decide⟩

theorem witness_PhasesFollowTheirOrder :
    leavesOfNothing.moves = [] ∧ step leavesOfNothing = .next (after (step leavesOfNothing)) ∧
      decoding.moves = [] ∧ step decoding = .next (after (step decoding)) := ⟨rfl, rfl, rfl, rfl⟩

/-- In each of the two states every phase of the other's clauses is another one; the step of the first writes SCAN, of the
second CUR and OUT. -/
theorem witness_TablesAreWrittenOnlyInTheirPhases :
    leavesOfNothing.moves = [] ∧ step leavesOfNothing = .next (after (step leavesOfNothing)) ∧
      leavesOfNothing.phase ∉ [Phase.count, .derive, .merge, .deser, .decode] ∧
      (after (step leavesOfNothing)).scan = 1 ∧
      decoding.moves = [] ∧ step decoding = .next (after (step decoding)) ∧
      decoding.phase ∉ [Phase.count, .derive, .leaves, .merge, .wmagic, .ser, .deser] ∧
      (after (step decoding)).out ≠ decoding.out :=
  ⟨rfl, rfl, by decide, by decide, rfl, rfl, by decide, by decide⟩

theorem witness_ChannelsOverOneStep :
    decoding.moves = [] ∧ step decoding = .next (after (step decoding)) ∧ decoding.phase ≠ .count ∧
      leavesOfNothing.phase ∈ [Phase.idle, .done, .fault, .count, .leaves, .merge, .derive, .rmagic, .deser] ∧
      ∀ a ∈ decoding.answers, a = .ok := ⟨rfl, rfl, by decide, by decide, by simp [decoding, withTree, reading, State.reset]⟩

/-! ### The invariant, and the phases as functions -/

/-- A table of one counter fits 32 bits; an entry without a code is a legal one. -/
theorem count_fits {k n i : Nat} (h : n < 2 ^ 32) : Table.getD [(k, n)] 0 i < 2 ^ 32 := by
  simp only [Table.getD, Table.get?]
  split
  · exact h
  · decide

theorem no_code : Code.empty.len ≤ 256 ∧ Code.empty.bits.toNat < 2 ^ Code.empty.len := ⟨by decide, by decide⟩

theorem leavesOfNothing_inv : leavesOfNothing.Inv where
  freqWf := by decide
  codeWf := rfl
  nodeWf := rfl
  stkWf := rfl
  nnLe := by decide
  qnLe := by decide
  scanLe := by decide
  spLe := by decide
  rootLt := fun _ h => nomatch h
  curLt := fun _ h => nomatch h
  posLe := by decide
  cntPos := by decide
  counts := fun w i h => by cases h; exact count_fits (by decide)
  codes := fun _ => no_code
  errIff := by decide
  ioinfoZero := fun _ => rfl
  waitBusy := fun h => nomatch h
  here := fun _ =>
    ⟨⟨by decide, rfl, fun i h => absurd h (Nat.not_lt_zero i)⟩, rfl, Nat.le_refl _, rfl, by decide, fun h => nomatch h⟩

theorem usedBefore_inv : usedBefore.Inv where
  freqWf := by decide
  codeWf := by decide
  nodeWf := by decide
  stkWf := rfl
  nnLe := by decide
  qnLe := by decide
  scanLe := by decide
  spLe := by decide
  rootLt := fun i h => by cases h; decide
  curLt := fun i h => by cases h; decide
  posLe := by decide
  cntPos := by decide
  counts := fun w i h => by cases h; exact count_fits (by decide)
  codes := fun i => by
    simp only [State.codeAt, Table.getD, Table.get?, usedBefore]
    split <;> exact ⟨by decide, by decide⟩
  errIff := by decide
  ioinfoZero := fun _ => rfl
  waitBusy := fun h => nomatch h
  here := fun _ => trivial

theorem aboutToCompress_inv : aboutToCompress.Inv where
  freqWf := rfl
  codeWf := rfl
  nodeWf := rfl
  stkWf := rfl
  nnLe := by decide
  qnLe := by decide
  scanLe := by decide
  spLe := by decide
  rootLt := fun _ h => nomatch h
  curLt := fun _ h => nomatch h
  posLe := by decide
  cntPos := by decide
  counts := fun w i h => by cases h; exact (by decide : (0 : Nat) < 2 ^ 32)
  codes := fun _ => no_code
  errIff := by decide
  ioinfoZero := fun _ => rfl
  waitBusy := fun h => nomatch h
  here := fun _ => trivial

/-- A state of the builder and one about to start. -/
theorem witness_StepKeepsTheInvariant :
    leavesOfNothing.Inv ∧ step leavesOfNothing = .next (after (step leavesOfNothing)) ∧
      aboutToCompress.Inv ∧ step aboutToCompress = .next (after (step aboutToCompress)) :=
  ⟨leavesOfNothing_inv, rfl, aboutToCompress_inv, rfl⟩

theorem witness_NoStepReadsAnUnwrittenEntry : leavesOfNothing.Inv ∧ usedBefore.Inv ∧ usedBefore.node ≠ [] :=
  ⟨leavesOfNothing_inv, usedBefore_inv, by decide⟩

theorem witness_WeightsNeverOverflow :
    leavesOfNothing.Inv ∧ leavesOfNothing.par.cntW = some 32 ∧ leavesOfNothing.weightInv 32 ∧
      step leavesOfNothing = .next (after (step leavesOfNothing)) :=
  ⟨leavesOfNothing_inv, rfl, fun _ => ⟨Nat.zero_le _, fun _ _ h => nomatch leavesOfNothing.nodeAt_lt h⟩, rfl⟩

theorem witness_NothingCarriesOver :
    let s := { aboutToCompress with moves := [], inp := usedBefore.inp }
    usedBefore.Inv ∧ State.reset.inp = usedBefore.inp ∧ s.out = usedBefore.out ∧ s.par = usedBefore.par ∧
      s.answers = usedBefore.answers ∧ s.moves = usedBefore.moves ∧ s.waiting = usedBefore.waiting ∧
      s.draws = usedBefore.draws ∧ s.node ≠ usedBefore.node ∧
      run 1 (commandStart .count usedBefore) = .next (after (run 1 (commandStart .count usedBefore))) :=
  ⟨usedBefore_inv, rfl, rfl, rfl, rfl, rfl, rfl, rfl, by decide, rfl⟩

theorem witness_CountingPass :
    let s := reading .count [97, 97, 98]
    s.Alone ∧ s.phase = .count ∧ s.freq = [] ∧ s.inp.pos = 0 ∧ s.inp.again = none ∧
      ∀ w v, s.par.cntW = some w → occurs v s.inp.bytes < 2 ^ w := by
  refine ⟨⟨rfl, rfl, rfl⟩, rfl, rfl, rfl, rfl, fun w v h => ?_⟩
  cases h
  exact Nat.lt_of_le_of_lt List.countP_le_length (by decide)

theorem witness_BuilderMakesTheTree :
    leavesOfNothing.Inv ∧ leavesOfNothing.Alone ∧ leavesOfNothing.phase = .leaves ∧ leavesOfNothing.scan = 0 ∧
      leavesOfNothing.freqAt 256 = 1 := ⟨leavesOfNothing_inv, ⟨rfl, rfl, rfl⟩, rfl, rfl, rfl⟩

/-- `(#97 (#98 EOD))`. -/
def threeTree : HTree := .node (.leaf 97) (.node (.leaf 98) (.leaf 256))

/-- The clauses about one tree; `witness_DerivedCodesArePaths` meets every hypothesis of the clause about CODE. -/
theorem witness_TreeCodesArePrefixFree :
    threeTree.isNode = true ∧ threeTree.depth ≤ 2 ∧ threeTree.syms.length ≤ 257 ∧
      ((256 : Sym), [true, true]) ∈ threeTree.codes [] := by decide

theorem threeTree_at {s : State} (hn : s.node = (withTree State.reset).node) (hc : s.nn = 5) :
    s.treeAt 4 threeTree [4, 0, 3, 1, 2] := by
  have h (i : Nat) : s.nodeAt i = (withTree State.reset).nodeAt i := by simp only [State.nodeAt, hn, hc]; rfl
  exact ⟨4, false, 0, 3, [0], [3, 1, 2], h 4, ⟨rfl, by decide, 2, false, h 0⟩,
    ⟨2, false, 1, 2, [1], [2], h 3, ⟨rfl, by decide, 1, false, h 1⟩, ⟨rfl, by decide, 1, false, h 2⟩, rfl⟩, rfl⟩

theorem witness_DerivedCodesArePaths :
    let s := withTop 4 (some { len := 0, bits := 0 }) (withTree { State.reset with phase := .derive })
    s.Alone ∧ s.phase = .derive ∧ s.code = [] ∧ s.sp = 1 ∧
      s.top = some { n := some 4, code := some { len := 0, bits := 0 } } ∧ s.treeAt 4 threeTree [4, 0, 3, 1, 2] ∧
      threeTree.depth ≤ 256 ∧ threeTree.isNode = true ∧ threeTree.syms.Nodup :=
  ⟨⟨rfl, rfl, rfl⟩, rfl, rfl, rfl, rfl, threeTree_at rfl rfl, by decide, rfl, by decide⟩

theorem witness_SerialiserAppendsTheHeader :
    let s := withTop 4 none (withTree { State.reset with phase := .ser })
    s.Alone ∧ s.phase = .ser ∧ s.sp = 1 ∧ s.top = some { n := some 4, code := none } ∧
      s.treeAt 4 threeTree [4, 0, 3, 1, 2] ∧ threeTree.depth ≤ 256 :=
  ⟨⟨rfl, rfl, rfl⟩, rfl, rfl, rfl, threeTree_at rfl rfl, by decide⟩

/-- R147: the header of `(#97 (#98 EOD))` is 32 bits, 4C 29 8B 00. -/
theorem witness_DeserialiserInvertsTheSerialiser :
    let s := reading .deser [0x4C, 0x29, 0x8B, 0x00, 0x2C]
    s.Alone ∧ s.phase = .deser ∧ s.nn = 0 ∧ s.sp = 0 ∧ s.root = none ∧ s.inp.pos ≤ s.inp.len ∧
      s.inp.rest = threeTree.header ++ bitsOf 8 0x2C ∧ threeTree.isNode = true ∧ threeTree.size ≤ 513 ∧
      ∀ sym ∈ threeTree.syms, sym.toNat ≤ 256 :=
  ⟨⟨rfl, rfl, rfl⟩, rfl, rfl, rfl, rfl, by decide, by decide, rfl, by decide, by decide⟩

/-- The payload of "aab": 0, 0, 10, then the sentinel's 11, then padding. -/
theorem witness_DecoderWalksThePayload :
    let words : List (Bits × Sym) := [([false], 97), ([false], 97), ([true, false], 98)]
    decoding.Alone ∧ decoding.phase = .decode ∧ decoding.root = some 4 ∧ decoding.cur = some 4 ∧
      decoding.treeAt 4 threeTree [4, 0, 3, 1, 2] ∧ threeTree.isNode = true ∧ decoding.inp.pos ≤ decoding.inp.len ∧
      (∀ e ∈ words, threeTree.follow e.1 = some e.2 ∧ e.2.toNat ≤ 255) ∧ threeTree.follow [true, true] = some 256 ∧
      decoding.inp.rest = (words.map Prod.fst).flatten ++ [true, true] ++ [false, false] :=
  ⟨⟨rfl, rfl, rfl⟩, rfl, rfl, rfl, threeTree_at rfl rfl, rfl, by decide, by decide, rfl, by decide⟩

theorem witness_CompressAsAFunction :
    aboutToCompress.Inv ∧ aboutToCompress.busy = false ∧ aboutToCompress.answers = [] ∧
      aboutToCompress.moves = [.write .cmd 1] ∧ decodeCommand 1 = .compress ∧
      aboutToCompress.inp = { bytes := [0x61, 0x61, 0x62], pos := 0, again := none } ∧
      aboutToCompress.out = { bits := [], closed := false, delivered := [] } ∧
      ∀ c, aboutToCompress.par.cntW = some c → [(0x61 : Byte), 0x61, 0x62].length < 2 ^ c :=
  ⟨aboutToCompress_inv, rfl, rfl, rfl, by decide, rfl, rfl, fun c h => by cases h; decide⟩

theorem witness_RoundTrip :
    aboutToCompress.Inv ∧ aboutToCompress.busy = false ∧ aboutToCompress.answers = [] ∧
      aboutToCompress.moves = [.write .cmd 1] ∧
      aboutToCompress.inp = { bytes := [0x61, 0x61, 0x62], pos := 0, again := none } ∧
      aboutToCompress.out = { bits := [], closed := false, delivered := [] } ∧
      ∀ c, aboutToCompress.par.cntW = some c → [(0x61 : Byte), 0x61, 0x62].length < 2 ^ c :=
  ⟨aboutToCompress_inv, rfl, rfl, rfl, rfl, rfl, fun c h => by cases h; decide⟩

end Sys2Proof.Tests
end

/-! ## PROOFS: the host's channels and the weights of the tree builder (spec/00_scope.md R4, R9) -/

section

namespace Sys2Proof.Machine

/-! ### The host's channel moves -/

theorem step_of_moves {s : State} {m : Move} {ms : List Move} (h : s.moves = m :: ms) :
    step s = makeMove m { s with moves := ms } := by
  simp only [step, nextMove, h]

theorem onChannels_busy {s : State} (t : State) (h : s.busy = true) : onChannels s t = .refused .channelWhileBusy :=
  if_pos h

theorem onChannels_free {s : State} (t : State) (h : s.busy = false) : onChannels s t = .next t :=
  if_neg (by simp [h])

/-- Settles O11: an attach move goes through `onChannels`, which the busy bit alone decides. -/
theorem channelsAreTheHostsOnlyWhenNotBusy : Obligations.ChannelsAreTheHostsOnlyWhenNotBusy := by
  refine fun s ms => ⟨fun bytes pos again hm => ?_, fun hm => ?_⟩ <;> rw [step_of_moves hm]
  · refine ⟨fun hb => onChannels_busy _ hb, fun hb hpos => ?_⟩
    rw [makeMove, Nat.min_eq_left hpos]
    exact onChannels_free _ hb
  · exact ⟨fun hb => onChannels_busy _ hb, fun hb => onChannels_free _ hb⟩

/-! ### The order of phases (R155, R175) -/

section PhaseRules

variable {ps : List Phase} {s : State}

/-- Where `r` goes on, it goes on in one of the phases `ps`. -/
abbrev PhaseIn (ps : List Phase) (r : Result) : Prop := Ends True (fun t => t.phase ∈ ps) r

theorem phaseIn_raise (c : Cause) (info : Word) (hf : .fault ∈ ps) : PhaseIn ps (raise c info s) := hf

theorem phaseIn_memRead {n : Nat} {k : Option Nat → State → Result} (hs : s.phase ∈ ps) (hf : .fault ∈ ps)
    (hk : ∀ got t, t.phase = s.phase → PhaseIn ps (k got t)) : PhaseIn ps (memRead n s k) :=
  ends_memRead (fun _ _ => hk _ _ rfl) (fun _ _ => hk _ _ rfl) (fun _ _ => hf) fun _ => hs

theorem phaseIn_memWrite {n v : Nat} {k : State → Result} (hs : s.phase ∈ ps) (hf : .fault ∈ ps)
    (hk : ∀ t, t.phase = s.phase → PhaseIn ps (k t)) : PhaseIn ps (memWrite n v s k) :=
  ends_memWrite (fun _ => hk _ rfl) (fun _ _ => hf) fun _ => hs

theorem phaseIn_rewind {k : State → Result} (hs : s.phase ∈ ps) (hf : .fault ∈ ps)
    (hk : ∀ t, t.phase = s.phase → PhaseIn ps (k t)) : PhaseIn ps (rewind s k) :=
  ends_rewind (fun _ => hk _ rfl) (fun _ _ => hf) fun _ => hs

theorem phaseIn_closeOut {k : State → Result} (hs : s.phase ∈ ps) (hf : .fault ∈ ps)
    (hk : ∀ t, t.phase = s.phase → PhaseIn ps (k t)) : PhaseIn ps (closeOut s k) :=
  ends_closeOut (fun _ => hk _ rfl) (fun _ _ => hf) fun _ => hs

theorem phaseIn_push {e : StkEntry} {k : State → Result} (hk : ∀ t, t.phase = s.phase → PhaseIn ps (k t)) :
    PhaseIn ps (push e s k) :=
  ends_push (fun _ => hk _ rfl) fun _ => trivial

theorem phaseIn_pop {k : StkEntry → State → Result} (hk : ∀ e t, t.phase = s.phase → PhaseIn ps (k e t)) :
    PhaseIn ps (pop s k) :=
  ends_pop (fun _ _ => hk _ _ rfl) fun _ => trivial

theorem phaseIn_alloc {nd : Node} {k : Nat → State → Result} (hk : ∀ i t, t.phase = s.phase → PhaseIn ps (k i t)) :
    PhaseIn ps (alloc nd s k) :=
  ends_alloc (fun _ => hk _ _ rfl) fun _ => trivial

theorem phaseIn_withNode {i : Option Nat} {k : Nat → Node → Result} (hk : ∀ j nd, PhaseIn ps (k j nd)) :
    PhaseIn ps (withNode i s k) :=
  ends_withNode (fun j nd _ _ => hk j nd) fun _ => trivial

theorem phaseIn_removeMin {k : Nat → Node → State → Result}
    (hk : ∀ i nd t, t.phase = s.phase → PhaseIn ps (k i nd t)) : PhaseIn ps (removeMin s k) :=
  ends_removeMin (fun _ _ _ _ => hk _ _ _ rfl) fun _ => trivial

theorem phaseIn_attach {n : Nat} {k : State → Result} (hk : ∀ t, t.phase = s.phase → PhaseIn ps (k t)) :
    PhaseIn ps (attach n s k) := by
  unfold attach
  split
  · exact hk _ rfl
  · split
    · trivial
    · refine phaseIn_withNode fun p nd => ?_
      cases nd with
      | leaf => trivial
      | inner w l r q => dsimp only; split <;> exact hk _ rfl

theorem phaseIn_popComplete {p : Nat} {k : State → Result} (hk : ∀ t, t.phase = s.phase → PhaseIn ps (k t)) :
    PhaseIn ps (popComplete p s k) := by
  induction p with
  | zero => exact hk _ rfl
  | succ p ih =>
    unfold popComplete
    split
    · trivial
    · refine phaseIn_withNode fun _ nd => ?_
      split
      exacts [hk _ rfl, ih]

end PhaseRules

section PhasesOfInstructions

variable {s : State}

theorem phaseIn_count (h : s.phase = .count) :
    PhaseIn [.count, .leaves, .fault] (execCntByte s) ∧ PhaseIn [.count, .leaves, .fault] (execCntEnd s) := by
  refine ⟨phaseIn_memRead (by simp [h]) (by simp) fun got t ht => ?_,
    phaseIn_memRead (by simp [h]) (by simp) fun got t ht => ?_⟩
  · cases got with
    | none => trivial
    | some v =>
      dsimp only
      split
      · exact phaseIn_raise _ _ (by simp)
      · simp [ht, h]
  · cases got with
    | none => exact phaseIn_rewind (by simp [ht, h]) (by simp) fun u _ => by simp
    | some v => trivial

theorem phaseIn_leaves (h : s.phase = .leaves) : PhaseIn [.leaves, .merge] (execPqLeaf s) := by
  unfold execPqLeaf
  split
  · split
    · exact phaseIn_alloc fun _ t ht => by simp [ht, h]
    · simp [h]
  · trivial

theorem phaseIn_merge (h : s.phase = .merge) :
    PhaseIn [.merge, .derive] (execPqMerge s) ∧ PhaseIn [.merge, .derive] (execPqWrap s) ∧
      PhaseIn [.merge, .derive] (execPqRoot s) := by
  refine ⟨phaseIn_removeMin fun _ _ t ht => phaseIn_removeMin fun _ _ u hu => phaseIn_alloc fun _ v hv => ?_,
    phaseIn_withNode fun _ nd => ?_, phaseIn_removeMin fun _ _ t ht => phaseIn_push fun u hu => ?_⟩
  · simp [hv, hu, ht, h]
  · simp [h]
  · simp

theorem phaseIn_derive (h : s.phase = .derive) : PhaseIn [.derive, .wmagic] (execTblStep s) := by
  refine phaseIn_pop fun e t ht => phaseIn_withNode fun _ nd => ?_
  split
  · trivial
  · cases nd with
    | leaf sym w q =>
      dsimp only
      split
      · simp [ht, h]
      · trivial
    | inner w l r q =>
      dsimp only
      split
      · exact phaseIn_push fun u hu => phaseIn_push fun v hv => by simp [hv, hu, ht, h]
      · trivial

theorem phaseIn_wmagic (h : s.phase = .wmagic) : PhaseIn [.wmagic, .ser, .fault] (execWrMagic s) :=
  phaseIn_memWrite (by simp [h]) (by simp) fun _ _ => phaseIn_push fun _ _ => by simp

theorem phaseIn_ser (h : s.phase = .ser) :
    PhaseIn [.ser, .encode, .fault] (execSerInt s) ∧ PhaseIn [.ser, .encode, .fault] (execSerLeaf s) := by
  refine ⟨phaseIn_pop fun e t ht => phaseIn_withNode fun _ nd => ?_,
    phaseIn_pop fun e t ht => phaseIn_withNode fun _ nd => ?_⟩
  · cases nd with
    | leaf => trivial
    | inner w l r q =>
      exact phaseIn_memWrite (by simp [ht, h]) (by simp) fun u hu =>
        phaseIn_push fun v hv => phaseIn_push fun x hx => by simp [hx, hv, hu, ht, h]
  · cases nd with
    | inner => trivial
    | leaf sym w q =>
      exact phaseIn_memWrite (by simp [ht, h]) (by simp) fun u hu =>
        phaseIn_memWrite (by simp [hu, ht, h]) (by simp) fun v hv => by simp [hv, hu, ht, h]

theorem phaseIn_encode (h : s.phase = .encode) :
    PhaseIn [.encode, .close, .fault] (execEncByte s) ∧ PhaseIn [.encode, .close, .fault] (execEncEod s) := by
  refine ⟨phaseIn_memRead (by simp [h]) (by simp) fun got t ht => ?_,
    phaseIn_memRead (by simp [h]) (by simp) fun got t ht => ?_⟩
  · cases got with
    | none => trivial
    | some v =>
      dsimp only
      split
      · exact phaseIn_raise _ _ (by simp)
      · exact phaseIn_memWrite (by simp [ht, h]) (by simp) fun u hu => by simp [hu, ht, h]
  · cases got with
    | none => exact phaseIn_memWrite (by simp [ht, h]) (by simp) fun u _ => by simp
    | some v => trivial

theorem phaseIn_close (h : s.phase = .close) : PhaseIn [.close, .done, .fault] (execClose s) :=
  phaseIn_closeOut (by simp [h]) (by simp) fun _ _ => by simp

theorem phaseIn_rmagic (h : s.phase = .rmagic) : PhaseIn [.rmagic, .deser, .fault] (execRdMagic s) := by
  unfold execRdMagic checkMagic
  refine phaseIn_memRead (by simp [h]) (by simp) fun got t _ => ?_
  cases got with
  | none => exact phaseIn_raise _ _ (by simp)
  | some m =>
    dsimp only
    split
    · simp
    · exact phaseIn_raise _ _ (by simp)

theorem phaseIn_desTag {k : Nat → State → Result} (h : s.phase = .deser)
    (hk : ∀ b t, t.phase = .deser → PhaseIn [.deser, .decode, .fault] (k b t)) :
    PhaseIn [.deser, .decode, .fault] (desTag s k) := by
  unfold desTag
  split
  · exact phaseIn_raise _ _ (by simp)
  · refine phaseIn_memRead (by simp [h]) (by simp) fun got t ht => ?_
    cases got with
    | none => exact phaseIn_raise _ _ (by simp)
    | some b => exact hk b t (ht.trans h)

theorem phaseIn_desOpen (h : s.phase = .deser) : PhaseIn [.deser, .decode, .fault] (desOpen s) :=
  phaseIn_alloc fun _ t ht => phaseIn_attach fun u hu => phaseIn_push fun v hv => by simp [hv, hu, ht, h]

theorem phaseIn_desSymbol (h : s.phase = .deser) : PhaseIn [.deser, .decode, .fault] (desSymbol s) := by
  unfold desSymbol
  refine phaseIn_memRead (by simp [h]) (by simp) fun got t ht => ?_
  cases got with
  | none => exact phaseIn_raise _ _ (by simp)
  | some v =>
    dsimp only
    split
    · exact phaseIn_raise _ _ (by simp)
    · exact phaseIn_alloc fun _ u hu => phaseIn_attach fun x hx => phaseIn_popComplete fun y hy => by
        simp [hy, hx, hu, ht, h]

theorem phaseIn_deser (h : s.phase = .deser) :
    PhaseIn [.deser, .decode, .fault] (execDesInt s) ∧ PhaseIn [.deser, .decode, .fault] (execDesLeaf s) ∧
      PhaseIn [.deser, .decode, .fault] (execDesEnd s) := by
  refine ⟨phaseIn_desTag h fun b t ht => ?_, phaseIn_desTag h fun b t ht => ?_, phaseIn_withNode fun _ nd => ?_⟩
  · split
    exacts [phaseIn_desOpen ht, trivial]
  · split
    exacts [phaseIn_desSymbol ht, trivial]
  · split
    · exact phaseIn_raise _ _ (by simp)
    · simp

theorem phaseIn_decode (h : s.phase = .decode) : PhaseIn [.decode, .close, .fault] (execDecBit s) := by
  unfold execDecBit walkBit
  refine phaseIn_memRead (by simp [h]) (by simp) fun got t ht => ?_
  cases got with
  | none => exact phaseIn_raise _ _ (by simp)
  | some b =>
    refine phaseIn_withNode fun _ nd => ?_
    unfold arrive
    refine phaseIn_withNode fun _ md => ?_
    cases md with
    | inner => simp [ht, h]
    | leaf sym w q =>
      dsimp only
      split
      · simp
      · exact phaseIn_memWrite (by simp [ht, h]) (by simp) fun u hu => by simp [hu, ht, h]

end PhasesOfInstructions

theorem coreStep_of_waiting {s : State} (h : s.waiting = true) : coreStep s = .next s := if_pos h

theorem coreStep_of_selects {s : State} {i : Instr} (hw : s.waiting = false) (h : decode (.select s.selector) = .ok i) :
    coreStep s = exec i s := by
  rw [coreStep_eq hw, h]

theorem coreStep_of_quiescent {s : State} (hw : s.waiting = false) (h : s.quiescent) : coreStep s = .next s := by
  rw [coreStep_eq hw, select_quiescent h]

theorem coreStep_of_noRow {s : State} (hw : s.waiting = false) (h : decode (.select s.selector) = .error .noRow) :
    coreStep s = .fault .noEnabledRow := by
  rw [coreStep_eq hw, h]

/-- In P_LEAVES the core scans a symbol or ends the scan; any other SCAN selects nothing (R84). -/
theorem coreStep_leaves {s : State} (hw : s.waiting = false) (h : s.phase = .leaves) :
    coreStep s = execPqLeaf s ∨ coreStep s = execPqScanEnd s ∨ coreStep s = .fault .noEnabledRow := by
  have hsel := select_leaves h
  split at hsel
  · exact .inl (coreStep_of_selects hw hsel)
  · split at hsel
    · exact .inr (.inl (coreStep_of_selects hw hsel))
    · exact .inr (.inr (coreStep_of_noRow hw hsel))

/-- In P_MERGE the core merges, wraps a lone leaf or pushes the root, as QN and NN say (R84). -/
theorem coreStep_merge {s : State} (hw : s.waiting = false) (h : s.phase = .merge) :
    coreStep s = execPqMerge s ∨ (s.qn = 1 ∧ s.nn = 1 ∧ coreStep s = execPqWrap s) ∨ coreStep s = execPqRoot s ∨
      coreStep s = .fault .noEnabledRow := by
  have hsel := select_merge h
  split at hsel
  · exact .inl (coreStep_of_selects hw hsel)
  · split at hsel
    next hone => exact .inr (.inl ⟨hone.1, hone.2, coreStep_of_selects hw hsel⟩)
    next =>
      split at hsel
      · exact .inr (.inr (.inl (coreStep_of_selects hw hsel)))
      · exact .inr (.inr (.inr (coreStep_of_noRow hw hsel)))

/-- On the core's turn a phase repeats or goes to one of its successors (R155, R175). -/
theorem phaseIn_coreStep (s : State) : PhaseIn s.phase.successors (coreStep s) := by
  cases hw : s.waiting with
  | true =>
    rw [coreStep_of_waiting hw]
    cases h : s.phase <;> simp [h, Phase.successors]
  | false =>
    cases h : s.phase with
    | idle => rw [coreStep_of_quiescent hw (.inl h)]; simp [h, Phase.successors]
    | done => rw [coreStep_of_quiescent hw (.inr (.inl h))]; simp [h, Phase.successors]
    | fault => rw [coreStep_of_quiescent hw (.inr (.inr h))]; simp [h, Phase.successors]
    | count =>
      rw [coreStep_of_selects hw (select_count h)]
      split
      exacts [(phaseIn_count h).1, (phaseIn_count h).2]
    | leaves =>
      rcases coreStep_leaves hw h with e | e | e <;> rw [e]
      · exact phaseIn_leaves h
      · simp [execPqScanEnd, Phase.successors]
      · trivial
    | merge =>
      obtain ⟨hmerge, hwrap, hroot⟩ := phaseIn_merge h
      rcases coreStep_merge hw h with e | ⟨_, _, e⟩ | e | e <;> rw [e]
      exacts [hmerge, hwrap, hroot, trivial]
    | derive =>
      rw [coreStep_of_selects hw (select_derive h)]
      split
      · exact phaseIn_derive h
      · simp [exec, execTblEnd, Phase.successors]
    | wmagic => rw [coreStep_of_selects hw (select_wmagic h)]; exact phaseIn_wmagic h
    | ser =>
      rw [coreStep_of_selects hw (select_ser h)]
      split
      · split
        exacts [(phaseIn_ser h).2, (phaseIn_ser h).1]
      · simp [exec, execSerEnd, Phase.successors]
    | encode =>
      rw [coreStep_of_selects hw (select_encode h)]
      split
      exacts [(phaseIn_encode h).1, (phaseIn_encode h).2]
    | close => rw [coreStep_of_selects hw (select_close h)]; exact phaseIn_close h
    | rmagic => rw [coreStep_of_selects hw (select_rmagic h)]; exact phaseIn_rmagic h
    | deser =>
      obtain ⟨hint, hleaf, hend⟩ := phaseIn_deser h
      rw [coreStep_of_selects hw (select_deser h)]
      split
      · split
        exacts [hleaf, hint]
      · exact hend
    | decode => rw [coreStep_of_selects hw (select_decode h)]; exact phaseIn_decode h

end Sys2Proof.Machine
end

section
/-! ## PROOFS: weights of the tree builder (spec/00_scope.md R9) -/

namespace Sys2Proof

/-- A sum over the entries listed below `n` is the sum over the indices below `n`: a sorted table lists an index once. -/
theorem Table.sum_filter_eq_sum_range {α : Type} {t : Table α} (h : Table.sorted t = true) (n : Nat) (p : α → Bool)
    (f : α → Nat) :
    ((t.filter fun e => decide (e.1 < n) && p e.2).map fun e => f e.2).sum =
      ∑ i ∈ Finset.range n, (Table.get? t i).elim 0 fun x => if p x then f x else 0 := by
  induction t with
  | nil => simp
  | cons e r ih =>
    obtain ⟨k, v⟩ := e
    obtain ⟨habove, hr⟩ := Table.sorted_cons.1 h
    have hk : Table.get? r k = none := Table.get?_none_of_below habove
    have hsplit (i : Nat) : ((Table.get? ((k, v) :: r) i).elim 0 fun x => if p x then f x else 0) =
        (if k = i then (if p v then f v else 0) else 0) + (Table.get? r i).elim 0 fun x => if p x then f x else 0 := by
      by_cases hi : k = i
      · subst hi; simp [Table.get?_cons, hk]
      · simp [Table.get?_cons, hi]
    simp only [hsplit, Finset.sum_add_distrib, Finset.sum_ite_eq, Finset.mem_range, ← ih hr, List.filter_cons]
    by_cases hn : k < n <;> cases hp : p v <;> simp [hn]

namespace Machine

/-! ### The sum of the priority structure over the arena's operations -/

/-- What a node adds to the priority structure's sum. -/
def Node.queuedWgt (nd : Node) : Nat := if nd.inq then nd.wgt else 0

@[simp] theorem Node.wgt_inner (w : Nat) (l r : Option Nat) (q : Bool) : (Node.inner w l r q).wgt = w := rfl
@[simp] theorem Node.wgt_setInq (nd : Node) (q : Bool) : (nd.setInq q).wgt = nd.wgt := by cases nd <;> rfl
@[simp] theorem Node.inq_setInq (nd : Node) (q : Bool) : (nd.setInq q).inq = q := by cases nd <;> rfl
theorem Node.queuedWgt_of_inq {nd : Node} (h : nd.inq = true) : nd.queuedWgt = nd.wgt := if_pos h
theorem Node.queuedWgt_of_not_inq {nd : Node} (h : nd.inq = false) : nd.queuedWgt = 0 := if_neg (by simp [h])

/-- The state that `alloc` goes on with. -/
def State.allocated (s : State) (nd : Node) : State := { s with node := Table.set s.node s.nn nd, nn := s.nn + 1 }

theorem State.nodeAt_allocated (s : State) (nd : Node) (i : Nat) :
    (s.allocated nd).nodeAt i = if i = s.nn then some nd else s.nodeAt i := by
  simp only [State.nodeAt, State.allocated, Table.get?_set]
  grind

theorem State.inqSum_eq {s : State} (h : Table.sorted s.node = true) :
    s.inqSum = ∑ i ∈ Finset.range s.nn, (s.nodeAt i).elim 0 Node.queuedWgt := by
  rw [State.inqSum, Table.sum_filter_eq_sum_range h s.nn Node.inq Node.wgt]
  refine Finset.sum_congr rfl fun i hi => ?_
  simp only [State.nodeAt, if_pos (Finset.mem_range.1 hi)]
  rfl

theorem State.inqSum_allocated {s : State} (h : Table.sorted s.node = true) (nd : Node) :
    (s.allocated nd).inqSum = s.inqSum + nd.queuedWgt := by
  rw [State.inqSum_eq (Table.sorted_set _ _ h), State.inqSum_eq h, show (s.allocated nd).nn = s.nn + 1 from rfl,
    Finset.sum_range_succ]
  congr 1
  · refine Finset.sum_congr rfl fun i hi => ?_
    rw [State.nodeAt_allocated, if_neg (Finset.mem_range.1 hi).ne]
  · simp [State.nodeAt_allocated]

theorem State.inqSum_setNode {s : State} (h : Table.sorted s.node = true) {i : Nat} {old : Node}
    (hold : s.nodeAt i = some old) (nd : Node) :
    (s.setNode i nd).inqSum + old.queuedWgt = s.inqSum + nd.queuedWgt := by
  have hi : i ∈ Finset.range s.nn := Finset.mem_range.2 (State.nodeAt_lt hold)
  have hnew : (s.setNode i nd).nodeAt i = some nd := by simp [State.nodeAt_setNode, State.nodeAt_lt hold]
  have hrest : ∑ j ∈ (Finset.range s.nn).erase i, ((s.setNode i nd).nodeAt j).elim 0 Node.queuedWgt =
      ∑ j ∈ (Finset.range s.nn).erase i, (s.nodeAt j).elim 0 Node.queuedWgt :=
    Finset.sum_congr rfl fun j hj => by
      rw [State.nodeAt_setNode, if_neg fun hij => (Finset.mem_erase.1 hj).1 hij.1.symm]
  rw [State.inqSum_eq (Table.sorted_set _ _ h), State.inqSum_eq h, State.setNode_nn, ← Finset.add_sum_erase _ _ hi,
    ← Finset.add_sum_erase _ _ hi, hrest, hold, hnew, Option.elim_some, Option.elim_some]
  omega

/-- An entry listed below NN is allocated. -/
theorem State.nodeAt_of_mem {s : State} (h : Table.sorted s.node = true) {i : Nat} {nd : Node} (hi : i < s.nn)
    (hm : (i, nd) ∈ s.node) : s.nodeAt i = some nd := by
  rw [State.nodeAt, if_pos hi, Table.get?_of_mem h hm]

theorem nodeAt_of_minInq {s : State} (h : Table.sorted s.node = true) {i : Nat} {nd : Node}
    (hm : minInq s.nn s.node = some (i, nd)) : s.nodeAt i = some nd ∧ nd.inq = true := by
  obtain ⟨hmem, hlt, hinq, -⟩ := (minInq_spec s.nn s.node).1 i nd hm
  exact ⟨State.nodeAt_of_mem h hlt hmem, hinq⟩

/-- A node that leaves the structure takes its weight out of the sum. -/
theorem State.inqSum_dequeue {s : State} (h : Table.sorted s.node = true) {i : Nat} {nd : Node}
    (hn : s.nodeAt i = some nd) (hq : nd.inq = true) : (s.setNode i (nd.setInq false)).inqSum + nd.wgt = s.inqSum := by
  have hsum := State.inqSum_setNode h hn (nd.setInq false)
  rwa [Node.queuedWgt_of_inq hq, Node.queuedWgt_of_not_inq (by simp)] at hsum

/-! ### The bound of R9 -/

/-- No allocated node outweighs `b`. -/
def State.lightNodes (s : State) (b : Nat) : Prop := ∀ i nd, s.nodeAt i = some nd → nd.wgt ≤ b

theorem State.lightNodes.setNode {s : State} {b : Nat} (h : s.lightNodes b) {nd : Node} (hb : nd.wgt ≤ b) (i : Nat) :
    (s.setNode i nd).lightNodes b := by
  intro j md hj
  rw [State.nodeAt_setNode] at hj
  split at hj
  · cases hj; exact hb
  · exact h j md hj

theorem State.lightNodes.allocated {s : State} {b : Nat} (h : s.lightNodes b) {nd : Node} (hb : nd.wgt ≤ b) :
    (s.allocated nd).lightNodes b := by
  intro j md hj
  rw [State.nodeAt_allocated] at hj
  split at hj
  · cases hj; exact hb
  · exact h j md hj

/-- `weightInv` without its phases, for counters of at most `c`. -/
structure Weighs (c : Nat) (s : State) : Prop where
  sum : s.inqSum ≤ s.scan * c
  light : s.lightNodes (Config.nsym * c)

theorem weightInv_iff {s : State} {w : Nat} :
    s.weightInv w ↔ (s.phase = .leaves ∨ s.phase = .merge → Weighs (2 ^ w - 1) s) :=
  forall_congr' fun _ => ⟨fun h => ⟨h.1, h.2⟩, fun h => ⟨h.sum, h.light⟩⟩

theorem Weighs.of_nn_zero {c : Nat} {s : State} (h : s.nn = 0) : Weighs c s where
  sum := by simp [State.inqSum, h]
  light _ _ hi := by simp [State.nodeAt, h] at hi

theorem ends_removeMin_weighed {s : State} {b : Nat} {Q : State → Prop} {k : Nat → Node → State → Result}
    (hs : Table.sorted s.node = true) (hl : s.lightNodes b)
    (hk : ∀ i nd t, Table.sorted t.node = true → t.lightNodes b → t.inqSum + nd.wgt = s.inqSum → t.scan = s.scan →
      Ends True Q (k i nd t)) : Ends True Q (removeMin s k) := by
  refine ends_removeMin (fun i nd _ hm => ?_) fun _ => trivial
  obtain ⟨hn, hq⟩ := nodeAt_of_minInq hs hm
  have hlight := hl.setNode (nd := nd.setInq false) (by simpa using hl i nd hn) i
  exact hk i nd _ (Table.sorted_set _ _ hs) hlight (State.inqSum_dequeue hs hn hq) rfl

section Builder

variable {s : State} {c : Nat}

theorem execPqLeaf_weighs (hs : Table.sorted s.node = true) (hf : ∀ i, s.freqAt i ≤ c) (h : Weighs c s) :
    Ends True (Weighs c) (execPqLeaf s) := by
  have hsum := h.sum
  unfold execPqLeaf
  split
  · split
    · refine ends_alloc (fun _ => ⟨?_, ?_⟩) fun _ => trivial
      · show (s.allocated _).inqSum ≤ (s.scan + 1) * c
        rw [State.inqSum_allocated hs, Node.queuedWgt_of_inq rfl, Nat.succ_mul]
        exact Nat.add_le_add hsum (hf _)
      · exact h.light.allocated ((hf _).trans (Nat.le_mul_of_pos_left c (by decide)))
    · exact ⟨hsum.trans (Nat.mul_le_mul_right c (Nat.le_succ _)), h.light⟩
  · trivial

/-- A merge takes two weights out of the sum and puts their sum back; two queued weights together are at most the sum. -/
theorem execPqMerge_weighs (hs : Table.sorted s.node = true) (hscan : s.scan ≤ Config.nsym) (h : Weighs c s) :
    Ends True (Weighs c) (execPqMerge s) := by
  refine ends_removeMin_weighed hs h.light fun a na t ht htl hta hts =>
    ends_removeMin_weighed ht htl fun b nb u hu hul hub hus => ends_alloc (fun _ => ⟨?_, ?_⟩) fun _ => trivial
  · show (u.allocated _).inqSum ≤ u.scan * c
    rw [State.inqSum_allocated hu, Node.queuedWgt_of_inq rfl, hus, hts]
    refine le_trans (le_of_eq ?_) h.sum
    rw [Node.wgt_inner]
    omega
  · refine hul.allocated (le_trans ?_ (h.sum.trans (Nat.mul_le_mul_right c hscan)))
    rw [Node.wgt_inner]
    omega

/-- With one node, and that one queued, wrapping takes it out of the structure and puts its weight back (R115). -/
theorem execPqWrap_weighs (hs : Table.sorted s.node = true) (hnn : s.nn = 1) (hq : s.inqCount = 1) (h : Weighs c s) :
    Ends True (Weighs c) (execPqWrap s) := by
  have hqueued (nd : Node) (hn : s.nodeAt 0 = some nd) : nd.inq = true := by
    obtain ⟨⟨i, md⟩, hmem⟩ := List.exists_mem_of_length_pos (hq ▸ Nat.one_pos : 0 < s.inqCount)
    obtain ⟨hmem, hlt, hinq⟩ : (i, md) ∈ s.node ∧ i < s.nn ∧ md.inq = true := by simpa using hmem
    obtain rfl : i = 0 := by omega
    rw [State.nodeAt_of_mem hs hlt hmem] at hn
    cases hn
    exact hinq
  refine ends_withNode (fun i nd hi hn => ?_) fun _ => trivial
  cases hi
  let t := (s.setNode 0 (nd.setInq false)).allocated (.leaf Config.placeholderSym 0 false)
  have hs0 := Table.sorted_set 0 (nd.setInq false) hs
  have hl : t.lightNodes _ := (h.light.setNode (by simpa using h.light 0 nd hn) 0).allocated (Nat.zero_le _)
  have ht : t.inqSum + nd.wgt = s.inqSum := by
    rw [State.inqSum_allocated hs0, Node.queuedWgt_of_not_inq rfl]
    exact State.inqSum_dequeue hs hn (hqueued nd hn)
  suffices Weighs c (t.allocated (.inner (nd.wgt + 0) (some 0) (some 1) true)) by
    simpa [t, State.allocated, State.setNode, hnn] using this
  refine ⟨?_, hl.allocated (h.light 0 nd hn)⟩
  rw [State.inqSum_allocated (Table.sorted_set _ _ hs0), Node.queuedWgt_of_inq rfl]
  exact ht.le.trans h.sum

theorem execCntByte_nn : Ends True (fun t => t.nn = s.nn) (execCntByte s) := by
  refine ends_memRead (fun _ _ => ?_) (fun _ _ => trivial) (fun _ _ => rfl) fun _ => rfl
  dsimp only
  split <;> rfl

theorem execCntEnd_nn : Ends True (fun t => t.nn = s.nn) (execCntEnd s) :=
  ends_memRead (fun _ _ => trivial) (fun _ _ => ends_rewind (fun _ => rfl) (fun _ _ => rfl) fun _ => rfl)
    (fun _ _ => rfl) fun _ => rfl

end Builder

/-- What the builder's bound needs of the invariant, and keeps where only the host's move list changes. -/
structure Buildable (w : Nat) (s : State) : Prop where
  sorted : Table.sorted s.node = true
  scanLe : s.scan ≤ Config.nsym
  counts : ∀ i, s.freqAt i ≤ 2 ^ w - 1
  counting : s.waiting = false → s.phase = .count → s.nn = 0
  merging : s.waiting = false → s.phase = .merge → s.inqCount = s.qn

theorem State.Inv.buildable {s : State} {w : Nat} (h : s.Inv) (hc : s.par.cntW = some w) (ms : List Move) :
    Buildable w { s with moves := ms } where
  sorted := (Table.wf_iff.1 h.nodeWf).1
  scanLe := h.scanLe
  counts i := Nat.le_sub_one_of_lt (h.counts w i hc)
  counting hw hp := by
    have hhere := h.here hw
    rw [phaseInv, hp] at hhere
    exact hhere.1
  merging hw hp := by
    have hhere := h.here hw
    rw [phaseInv, hp] at hhere
    exact hhere.2.1

/-- Outside P_COUNT, P_LEAVES and P_MERGE no turn of the core leads into the builder. -/
theorem successors_not_builder {p q : Phase} (hq : q ∈ p.successors) (hc : p ≠ .count) (hl : p ≠ .leaves)
    (hm : p ≠ .merge) : ¬ (q = .leaves ∨ q = .merge) := by
  rintro (rfl | rfl) <;> cases p <;> simp_all [Phase.successors]

theorem Ends.weaken {F : Prop} {P Q : State → Prop} {r : Result} (h : Ends F P r) (hpq : ∀ t, P t → Q t) :
    Ends F Q r := by
  cases r with
  | next t => exact hpq t h
  | fault f => exact h
  | refused f => exact h

theorem coreStep_keeps_weightInv {s : State} {w : Nat} (hb : Buildable w s) (h : s.weightInv w) :
    Ends True (fun t => t.weightInv w) (coreStep s) := by
  have lift {r : Result} (hr : Ends True (Weighs (2 ^ w - 1)) r) : Ends True (fun t => t.weightInv w) r :=
    hr.weaken fun _ ht => weightInv_iff.2 fun _ => ht
  cases hwait : s.waiting with
  | true => rw [coreStep_of_waiting hwait]; exact h
  | false =>
    by_cases hcount : s.phase = .count
    · have fresh {r : Result} (hr : Ends True (fun t => t.nn = s.nn) r) : Ends True (fun t => t.weightInv w) r :=
        lift (hr.weaken fun _ ht => Weighs.of_nn_zero (ht.trans (hb.counting hwait hcount)))
      rw [coreStep_of_selects hwait (select_count hcount)]
      split
      exacts [fresh execCntByte_nn, fresh execCntEnd_nn]
    by_cases hleaves : s.phase = .leaves
    · have hs := weightInv_iff.1 h (.inl hleaves)
      rcases coreStep_leaves hwait hleaves with e | e | e <;> rw [e]
      exacts [lift (execPqLeaf_weighs hb.sorted hb.counts hs), lift ⟨hs.sum, hs.light⟩, trivial]
    by_cases hmerge : s.phase = .merge
    · have hs := weightInv_iff.1 h (.inr hmerge)
      rcases coreStep_merge hwait hmerge with e | ⟨hq, hnn, e⟩ | e | e
      · rw [e]; exact lift (execPqMerge_weighs hb.sorted hb.scanLe hs)
      · rw [e]; exact lift (execPqWrap_weighs hb.sorted hnn ((hb.merging hwait hmerge).trans hq) hs)
      · rw [e]
        exact ends_removeMin (fun _ _ _ _ => ends_push (fun _ hp => by simp at hp) fun _ => trivial) fun _ => trivial
      · rw [e]; trivial
    exact (phaseIn_coreStep s).weaken fun t ht hbuild => absurd hbuild (successors_not_builder ht hcount hleaves hmerge)

theorem ends_accept {F : Prop} {Q : State → Prop} {s : State} {k : Result} (hbusy : s.busy = true → Q s)
    (hfree : s.busy = false → Ends F Q k) : Ends F Q (accept s k) := by
  unfold accept
  split
  exacts [hbusy ‹_›, hfree (Bool.eq_false_iff.2 ‹_›)]

/-- A command leaves the state as it is, or leads out of the builder. -/
theorem hostCommand_keeps_weightInv {s : State} {w : Nat} (h : s.weightInv w) (cmd : Word) :
    Ends True (fun t => t.weightInv w) (exec (decodeCommand cmd) s) := by
  have away {t : State} (ht : t.phase = .idle ∨ t.phase = .count ∨ t.phase = .rmagic ∨ t.phase = .fault) :
      t.weightInv w := fun hp => by rcases hp with hp | hp <;> simp [hp] at ht
  unfold decodeCommand
  split
  · exact ends_accept (fun _ => h) fun _ => h
  · exact ends_accept (fun _ => h) fun _ => away (by simp)
  · exact ends_accept (fun _ => h) fun _ => away (by simp)
  · exact ends_accept (fun _ => h) fun _ => away (by simp)
  · exact ends_accept (fun _ => h) fun _ => ends_raise (away (by simp))

theorem onChannels_keeps_weightInv {s t : State} {w : Nat} (ht : t.weightInv w) :
    Ends True (fun t => t.weightInv w) (onChannels s t) := by
  unfold onChannels
  split
  exacts [trivial, ht]

theorem step_keeps_weightInv {s : State} {w : Nat} (hi : s.Inv) (hc : s.par.cntW = some w) (h : s.weightInv w) :
    Ends True (fun t => t.weightInv w) (step s) := by
  cases hm : s.moves with
  | nil =>
    rw [step, nextMove, hm]
    exact coreStep_keeps_weightInv (hi.buildable hc s.moves) h
  | cons m ms =>
    rw [step_of_moves hm]
    cases m with
    | core => exact coreStep_keeps_weightInv (hi.buildable hc ms) h
    | write r cmd =>
      cases r with
      | cmd => exact hostCommand_keeps_weightInv (s := { s with moves := ms }) h cmd
      | status => exact h
      | ioinfo => exact h
    | read r => exact h
    | reset => exact fun hp => by simp at hp
    | attachIn bytes pos again => exact onChannels_keeps_weightInv h
    | attachOut => exact onChannels_keeps_weightInv h

/-- Settles O50: every step keeps `weightInv`, and 257 full counters of `w` bits stay below 2^(w + 9). -/
theorem weightsNeverOverflow : Obligations.WeightsNeverOverflow := by
  intro s t w hi hc h hstep
  have ht : t.weightInv w := (ends_iff.1 (step_keeps_weightInv hi hc h)).1 t hstep
  refine ⟨ht, fun hp i nd hn => ?_⟩
  calc nd.wgt ≤ Config.nsym * (2 ^ w - 1) := (weightInv_iff.1 ht hp).light i nd hn
    _ < 512 * 2 ^ w := by have := Nat.two_pow_pos w; show 257 * (2 ^ w - 1) < _; omega
    _ = 2 ^ (w + 9) := by rw [Nat.pow_add, Nat.mul_comm]

end Machine
end Sys2Proof
end

section
/-! ## PROOFS: nothing carries over from one command to the next (spec/00_scope.md R5, spec/10_state.md R11)

The two runs go in lockstep. The states may differ in the dead entries of NODE (at or above NN) and of STK (at
or above SP) and in the host's own record, and no operation can see the difference. -/

namespace Sys2Proof.Machine

/-! ### States that differ in dead entries only -/

/-- `s` with other lists for NODE and STK and another record of the host's last read. -/
def State.withDead (s : State) (node : List (Nat × Node)) (stk : List (Nat × StkEntry)) (saw : Option Word) : State :=
  { s with node := node, stk := stk, hostSaw := saw }

/-- `s'` is `s` but for NODE at or above NN, STK at or above SP and the host's record. -/
structure Alike (s s' : State) : Prop where
  rest : s' = s.withDead s'.node s'.stk s'.hostSaw
  sorted : Table.sorted s.node = true
  sorted' : Table.sorted s'.node = true
  node : ∀ i, i < s.nn → Table.get? s'.node i = Table.get? s.node i
  stk : ∀ p, p < s.sp → Table.get? s'.stk p = Table.get? s.stk p

namespace Alike

section
variable {s s' : State} (h : Alike s s')
include h

theorem phase : s'.phase = s.phase := (congrArg State.phase h.rest :)
theorem nn : s'.nn = s.nn := (congrArg State.nn h.rest :)
theorem qn : s'.qn = s.qn := (congrArg State.qn h.rest :)
theorem root : s'.root = s.root := (congrArg State.root h.rest :)
theorem cur : s'.cur = s.cur := (congrArg State.cur h.rest :)
theorem scan : s'.scan = s.scan := (congrArg State.scan h.rest :)
theorem sp : s'.sp = s.sp := (congrArg State.sp h.rest :)
theorem inp : s'.inp = s.inp := (congrArg State.inp h.rest :)
theorem par : s'.par = s.par := (congrArg State.par h.rest :)
theorem waiting : s'.waiting = s.waiting := (congrArg State.waiting h.rest :)
theorem moves : s'.moves = s.moves := (congrArg State.moves h.rest :)
theorem answer : s'.answer = s.answer := (congrArg State.answer h.rest :)
theorem busy : s'.busy = s.busy := (congrArg State.busy h.rest :)
theorem view : s'.view = s.view := (congrArg State.view h.rest :)
theorem freqAt (i : Nat) : s'.freqAt i = s.freqAt i := (congrArg (State.freqAt · i) h.rest :)
theorem codeAt (i : Nat) : s'.codeAt i = s.codeAt i := (congrArg (State.codeAt · i) h.rest :)
theorem peek (n : Nat) : s'.peek n = s.peek n := (congrArg (State.peek · n) h.rest :)

theorem nodeAt (i : Nat) : s'.nodeAt i = s.nodeAt i := by
  unfold State.nodeAt
  rw [h.nn]
  split
  · exact h.node i ‹_›
  · rfl

theorem top : s'.top = s.top := by
  unfold State.top
  rw [h.sp]
  split
  · rfl
  · next p hp => exact h.stk p (hp ▸ Nat.lt_succ_self p)

theorem topLeaf : s'.topLeaf = s.topLeaf := by
  simp only [State.topLeaf, h.top, h.nodeAt]

theorem selector : s'.selector = s.selector := by
  simp only [State.selector, h.phase, h.peek, h.scan, h.nn, h.qn, h.sp, h.topLeaf]

theorem tokenAt : s'.tokenAt = s.tokenAt := by
  simp only [State.tokenAt, State.tokenPos, h.phase, h.nn, h.sp, h.inp]

end

/-! ### Updates keep the likeness -/

variable {s s' : State}

/-- An update that neither reads nor writes NODE, STK and the host's record, and brings no dead entry back. -/
theorem update (h : Alike s s') (f : State → State)
    (hf : ∀ s node stk saw, f (s.withDead node stk saw) = (f s).withDead node stk saw)
    (hnn : (f s).nn ≤ s.nn) (hsp : (f s).sp ≤ s.sp) : Alike (f s) (f s') := by
  have hown (t : State) : f t = (f t).withDead t.node t.stk t.hostSaw := hf t t.node t.stk t.hostSaw
  have hnode (t : State) : (f t).node = t.node := (congrArg State.node (hown t) :)
  have hstk (t : State) : (f t).stk = t.stk := (congrArg State.stk (hown t) :)
  have hsaw (t : State) : (f t).hostSaw = t.hostSaw := (congrArg State.hostSaw (hown t) :)
  have hrest : f s' = (f s).withDead s'.node s'.stk s'.hostSaw := (congrArg f h.rest).trans (hf s _ _ _)
  refine ⟨?_, ?_, ?_, fun i hi => ?_, fun p hp => ?_⟩
  · rwa [hnode, hstk, hsaw]
  · rw [hnode]; exact h.sorted
  · rw [hnode]; exact h.sorted'
  · rw [hnode, hnode]; exact h.node i (hi.trans_le hnn)
  · rw [hstk, hstk]; exact h.stk p (hp.trans_le hsp)

theorem called (h : Alike s s') : Alike s.called s'.called := h.update _ (fun _ _ _ _ => rfl) le_rfl le_rfl

theorem advance (h : Alike s s') (n : Nat) : Alike (s.advance n) (s'.advance n) :=
  h.update (State.advance · n) (fun _ _ _ _ => rfl) le_rfl le_rfl

theorem append (h : Alike s s') (bs : Bits) : Alike (s.append bs) (s'.append bs) :=
  h.update (State.append · bs) (fun _ _ _ _ => rfl) le_rfl le_rfl

theorem enter (h : Alike s s') (p : Phase) : Alike (s.enter p) (s'.enter p) :=
  h.update (State.enter · p) (fun _ _ _ _ => rfl) le_rfl le_rfl

theorem setFreq (h : Alike s s') (i v : Nat) : Alike (s.setFreq i v) (s'.setFreq i v) :=
  h.update (State.setFreq · i v) (fun _ _ _ _ => rfl) le_rfl le_rfl

theorem setCode (h : Alike s s') (i : Nat) (c : Code) : Alike (s.setCode i c) (s'.setCode i c) :=
  h.update (State.setCode · i c) (fun _ _ _ _ => rfl) le_rfl le_rfl

theorem withQn (h : Alike s s') (q : Nat) : Alike { s with qn := q } { s' with qn := q } :=
  h.update (fun t => { t with qn := q }) (fun _ _ _ _ => rfl) le_rfl le_rfl

theorem succQn (h : Alike s s') : Alike { s with qn := s.qn + 1 } { s' with qn := s'.qn + 1 } :=
  h.update (fun t => { t with qn := t.qn + 1 }) (fun _ _ _ _ => rfl) le_rfl le_rfl

theorem succScan (h : Alike s s') : Alike { s with scan := s.scan + 1 } { s' with scan := s'.scan + 1 } :=
  h.update (fun t => { t with scan := t.scan + 1 }) (fun _ _ _ _ => rfl) le_rfl le_rfl

theorem withRoot (h : Alike s s') (r : Option Nat) : Alike { s with root := r } { s' with root := r } :=
  h.update (fun t => { t with root := r }) (fun _ _ _ _ => rfl) le_rfl le_rfl

theorem withCur (h : Alike s s') (c : Option Nat) : Alike { s with cur := c } { s' with cur := c } :=
  h.update (fun t => { t with cur := c }) (fun _ _ _ _ => rfl) le_rfl le_rfl

theorem curToRoot (h : Alike s s') : Alike { s with cur := s.root } { s' with cur := s'.root } :=
  h.update (fun t => { t with cur := t.root }) (fun _ _ _ _ => rfl) le_rfl le_rfl

theorem withMoves (h : Alike s s') (ms : List Move) : Alike { s with moves := ms } { s' with moves := ms } :=
  h.update (fun t => { t with moves := ms }) (fun _ _ _ _ => rfl) le_rfl le_rfl

theorem withIn (h : Alike s s') (c : InChan) : Alike { s with inp := c } { s' with inp := c } :=
  h.update (fun t => { t with inp := c }) (fun _ _ _ _ => rfl) le_rfl le_rfl

theorem withOut (h : Alike s s') (c : OutChan) : Alike { s with out := c } { s' with out := c } :=
  h.update (fun t => { t with out := c }) (fun _ _ _ _ => rfl) le_rfl le_rfl

/-- Entries that are popped only become dead. -/
theorem withSp (h : Alike s s') {p : Nat} (hp : p ≤ s.sp) : Alike { s with sp := p } { s' with sp := p } :=
  h.update (fun t => { t with sp := p }) (fun _ _ _ _ => rfl) le_rfl hp

theorem setNode (h : Alike s s') (i : Nat) (nd : Node) : Alike (s.setNode i nd) (s'.setNode i nd) where
  rest := congrArg (State.setNode · i nd) h.rest
  sorted := Table.sorted_set i nd h.sorted
  sorted' := Table.sorted_set i nd h.sorted'
  node j hj := by simp only [State.setNode_node, Table.get?_set, h.node j hj]
  stk := h.stk

/-- Allocation brings one dead entry back to life, and writes it. -/
theorem allocated (h : Alike s s') (nd : Node) : Alike (s.allocated nd) (s'.allocated nd) where
  rest := (congrArg (State.allocated · nd) h.rest).trans (by simp only [State.allocated, State.withDead, h.nn])
  sorted := Table.sorted_set _ nd h.sorted
  sorted' := Table.sorted_set _ nd h.sorted'
  node j hj := by
    simp only [State.allocated, h.nn, Table.get?_set]
    split
    · rfl
    · next hne => exact h.node j (by have : j < s.nn + 1 := hj; omega)
  stk := h.stk

/-- A push brings one dead entry back to life, and writes it. -/
theorem pushed (h : Alike s s') (e : StkEntry) :
    Alike { s with stk := Table.set s.stk s.sp e, sp := s.sp + 1 }
      { s' with stk := Table.set s'.stk s'.sp e, sp := s'.sp + 1 } where
  rest := (congrArg (fun t : State => { t with stk := Table.set t.stk t.sp e, sp := t.sp + 1 }) h.rest).trans
    (by simp only [State.withDead, h.sp])
  sorted := h.sorted
  sorted' := h.sorted'
  node := h.node
  stk p hp := by
    simp only [h.sp, Table.get?_set]
    split
    · rfl
    · next hne => exact h.stk p (by have : p < s.sp + 1 := hp; omega)

/-- Where the first three nodes have been written, they may all come to life. -/
theorem threeNodes (h : Alike s s') (a b c : Node) :
    Alike { ((s.setNode 0 a).setNode 1 b).setNode 2 c with nn := 3 }
      { ((s'.setNode 0 a).setNode 1 b).setNode 2 c with nn := 3 } := by
  have hset := ((h.setNode 0 a).setNode 1 b).setNode 2 c
  refine ⟨congrArg (fun t : State => { t with nn := 3 }) hset.rest, hset.sorted, hset.sorted', fun i hi => ?_, h.stk⟩
  have hi : i = 0 ∨ i = 1 ∨ i = 2 := by have : i < 3 := hi; omega
  rcases hi with rfl | rfl | rfl <;> simp [Table.get?_set]

theorem hardReset (h : Alike s s') : Alike (hardReset s) (hardReset s') where
  rest := congrArg Machine.hardReset h.rest
  sorted := rfl
  sorted' := rfl
  node _ _ := rfl
  stk _ _ := rfl

theorem withHostSaw (h : Alike s s') (a b : Option Word) : Alike { s with hostSaw := a } { s' with hostSaw := b } :=
  ⟨congrArg (fun t : State => { t with hostSaw := b }) h.rest, h.sorted, h.sorted', h.node, h.stk⟩

end Alike

/-- The minimum is decided by the live nodes: it is the `least` of R112. -/
theorem minInq_eq_some_iff {s : State} (h : Table.sorted s.node = true) (i : Nat) (nd : Node) :
    minInq s.nn s.node = some (i, nd) ↔ s.least i nd := by
  obtain ⟨hsome, hnone⟩ := minInq_spec s.nn s.node
  have isLeast (j : Nat) (md : Node) (hm : minInq s.nn s.node = some (j, md)) : s.least j md := by
    obtain ⟨hn, hq⟩ := nodeAt_of_minInq h hm
    obtain ⟨-, -, -, hle⟩ := hsome j md hm
    exact ⟨hn, hq, fun k kd hk => hle k kd (Table.get?_mem (State.nodeAt_get hk)) (State.nodeAt_lt hk)⟩
  refine ⟨isLeast i nd, fun ⟨hn, hq, hle⟩ => ?_⟩
  cases hm : minInq s.nn s.node with
  | none => exact (hnone hm i nd (Table.get?_mem (State.nodeAt_get hn)) (State.nodeAt_lt hn) hq).elim
  | some p =>
    obtain ⟨j, md⟩ := p
    obtain ⟨hjn, hjq, hjle⟩ := isLeast j md hm
    obtain rfl : i = j := by
      have h1 := hle j md hjn hjq
      have h2 := hjle i nd hn hq
      omega
    rw [hn] at hjn
    rw [Option.some.inj hjn]

theorem Alike.minInq {s s' : State} (h : Alike s s') : minInq s'.nn s'.node = minInq s.nn s.node := by
  refine Option.ext fun ⟨i, nd⟩ => ?_
  rw [minInq_eq_some_iff h.sorted', minInq_eq_some_iff h.sorted]
  simp only [State.least, h.nodeAt]

/-! ### Results that show no difference: one rule per shared operation -/

/-- Both go on, with states alike, or both stop for the same reason. -/
inductive Tied : Result → Result → Prop
  | next {t t' : State} (h : Alike t t') : Tied (.next t) (.next t')
  | fault (f : Fault) : Tied (.fault f) (.fault f)
  | refused (r : Refusal) : Tied (.refused r) (.refused r)

section Rules

variable {s s' : State}

theorem tied_raise (h : Alike s s') (c : Cause) (info : Word) : Tied (raise c info s) (raise c info s') :=
  .next (h.update (fun t => { t with errcode := c, ioinfo := if c = .eIo then info else t.ioinfo, phase := .fault })
    (fun _ _ _ _ => rfl) le_rfl le_rfl)

theorem tied_block (h : Alike s s') : Tied (block s) (block s') :=
  .next (h.update (fun t => { t with waiting := true }) (fun _ _ _ _ => rfl) le_rfl le_rfl)

theorem tied_raise_lostIn (h : Alike s s') (info : Word) :
    Tied (raise .eIo info s.called.lostIn) (raise .eIo info s'.called.lostIn) :=
  tied_raise (h.called.update State.lostIn (fun _ _ _ _ => rfl) le_rfl le_rfl) _ _

theorem tied_raise_lostOut (h : Alike s s') (info : Word) :
    Tied (raise .eIo info s.called.lostOut) (raise .eIo info s'.called.lostOut) :=
  tied_raise (h.called.update State.lostOut (fun _ _ _ _ => rfl) le_rfl le_rfl) _ _

theorem tied_memRead {n : Nat} {k k' : Option Nat → State → Result} (h : Alike s s')
    (hk : ∀ {t t'} got, Alike t t' → Tied (k got t) (k' got t')) : Tied (memRead n s k) (memRead n s' k') := by
  rcases memRead_cases n s k with ⟨ha, hb, e⟩ | ⟨ha, hb, e⟩ | ⟨info, ha, e⟩ | ⟨ha, e⟩ <;>
    rw [e] <;> rw [← h.answer] at ha
  · rw [memRead_bits k' ha (h.inp ▸ hb), h.inp]; exact hk _ (h.called.advance n)
  · rw [memRead_eos k' ha (h.inp ▸ hb)]; exact hk _ h.called
  · rw [memRead_ioerr k' ha]; exact tied_raise_lostIn h info
  · rw [memRead_never k' ha]; exact tied_block h.called

theorem tied_memWrite {n v : Nat} {k k' : State → Result} (h : Alike s s')
    (hk : ∀ {t t'}, Alike t t' → Tied (k t) (k' t')) : Tied (memWrite n v s k) (memWrite n v s' k') := by
  rcases memWrite_cases n v s k with ⟨ha, e⟩ | ⟨info, ha, e⟩ | ⟨ha, e⟩ <;>
    rw [e] <;> rw [← h.answer] at ha
  · rw [memWrite_ok k' ha]; exact hk (h.called.append _)
  · rw [memWrite_ioerr k' ha]; exact tied_raise_lostOut h info
  · rw [memWrite_never k' ha]; exact tied_block h.called

theorem tied_rewind {k k' : State → Result} (h : Alike s s') (hk : ∀ {t t'}, Alike t t' → Tied (k t) (k' t')) :
    Tied (rewind s k) (rewind s' k') := by
  rcases rewind_cases s k with ⟨ha, e⟩ | ⟨info, ha, e⟩ | ⟨ha, e⟩ <;>
    rw [e] <;> rw [← h.answer] at ha
  · rw [rewind_ok k' ha, h.inp]; exact hk (h.called.withIn _)
  · rw [rewind_ioerr k' ha]; exact tied_raise_lostIn h info
  · rw [rewind_never k' ha]; exact tied_block h.called

theorem tied_closeOut {k k' : State → Result} (h : Alike s s') (hk : ∀ {t t'}, Alike t t' → Tied (k t) (k' t')) :
    Tied (closeOut s k) (closeOut s' k') := by
  rcases closeOut_cases s k with ⟨ha, e⟩ | ⟨info, ha, e⟩ | ⟨ha, e⟩ <;>
    rw [e] <;> rw [← h.answer] at ha
  · rw [closeOut_ok k' ha]
    exact hk (h.update (fun t => { t.called with out := t.out.flushed t.draws, draws := t.draws + 1 })
      (fun _ _ _ _ => rfl) le_rfl le_rfl)
  · rw [closeOut_ioerr k' ha]; exact tied_raise_lostOut h info
  · rw [closeOut_never k' ha]; exact tied_block h.called

theorem tied_push {e e' : StkEntry} {k k' : State → Result} (h : Alike s s') (he : e' = e)
    (hk : ∀ {t t'}, Alike t t' → Tied (k t) (k' t')) : Tied (push e s k) (push e' s' k') := by
  unfold push
  rw [h.sp, he]
  split
  · have hp := h.pushed e
    rw [h.sp] at hp
    exact hk hp
  · exact .fault _

theorem tied_pop {k k' : StkEntry → State → Result} (h : Alike s s')
    (hk : ∀ {t t'} e, Alike t t' → Tied (k e t) (k' e t')) : Tied (pop s k) (pop s' k') := by
  unfold pop
  rw [h.top, h.sp]
  cases s.top with
  | none => exact .fault _
  | some e => exact hk e (h.withSp (Nat.sub_le _ _))

theorem tied_alloc {nd : Node} {k k' : Nat → State → Result} (h : Alike s s')
    (hk : ∀ {t t'} i, Alike t t' → Tied (k i t) (k' i t')) : Tied (alloc nd s k) (alloc nd s' k') := by
  have ha := h.allocated nd
  unfold State.allocated at ha
  unfold alloc
  rw [h.nn] at ha ⊢
  split
  · exact hk _ ha
  · exact .fault _

theorem tied_withNode {i i' : Option Nat} {k k' : Nat → Node → Result} (h : Alike s s') (hi : i' = i)
    (hk : ∀ j nd, Tied (k j nd) (k' j nd)) : Tied (withNode i s k) (withNode i' s' k') := by
  subst hi
  cases i' with
  | none => exact .fault _
  | some j =>
    simp only [withNode, h.nodeAt]
    cases s.nodeAt j with
    | none => exact .fault _
    | some nd => exact hk j nd

theorem tied_removeMin {k k' : Nat → Node → State → Result} (h : Alike s s')
    (hk : ∀ {t t'} i nd, Alike t t' → Tied (k i nd t) (k' i nd t')) : Tied (removeMin s k) (removeMin s' k') := by
  unfold removeMin
  rw [h.minInq, h.qn]
  split
  · exact .fault _
  · cases minInq s.nn s.node with
    | none => exact .fault _
    | some p => exact hk _ _ ((h.setNode _ _).withQn _)

theorem tied_attach {n : Nat} {k k' : State → Result} (h : Alike s s')
    (hk : ∀ {t t'}, Alike t t' → Tied (k t) (k' t')) : Tied (attach n s k) (attach n s' k') := by
  unfold attach
  by_cases h0 : s.sp = 0
  · rw [if_pos h0, if_pos (h.sp.trans h0)]
    exact hk (h.withRoot _)
  · rw [if_neg h0, if_neg (h.sp ▸ h0), h.top]
    cases s.top with
    | none => exact .fault _
    | some e =>
      refine tied_withNode h rfl fun p nd => ?_
      cases nd with
      | leaf => exact .fault _
      | inner w l r q => dsimp only; split <;> exact hk (h.setNode _ _)

theorem tied_popComplete {p : Nat} {k k' : State → Result} (h : Alike s s') (hp : p ≤ s.sp)
    (hk : ∀ {t t'}, Alike t t' → Tied (k t) (k' t')) : Tied (popComplete p s k) (popComplete p s' k') := by
  induction p with
  | zero => exact hk (h.withSp hp)
  | succ p ih =>
    unfold popComplete
    rw [h.stk p hp]
    cases Table.get? s.stk p with
    | none => exact .fault _
    | some e =>
      refine tied_withNode h rfl fun _ nd => ?_
      split
      exacts [hk (h.withSp hp), ih (Nat.le_of_succ_le hp)]

theorem tied_accept {k k' : Result} (h : Alike s s') (hk : Tied k k') : Tied (accept s k) (accept s' k') := by
  unfold accept
  rw [h.busy]
  split
  exacts [.next h, hk]

theorem tied_interpret {i : Instr} {k k' : Result} (h : Alike s s') (hk : Tied k k') :
    Tied (interpret i s k) (interpret i s' k') := by
  unfold interpret
  rw [h.tokenAt]
  split
  exacts [hk, .refused _]

end Rules

/-! ### The meanings -/

section Meanings

variable {s s' : State} (h : Alike s s')
include h

theorem tied_execCntByte : Tied (execCntByte s) (execCntByte s') := by
  refine tied_memRead h fun got ht => ?_
  cases got with
  | none => exact .refused _
  | some v =>
    simp only [ht.par, ht.freqAt]
    split
    exacts [tied_raise ht _ _, .next (ht.setFreq _ _)]

theorem tied_execCntEnd : Tied (execCntEnd s) (execCntEnd s') := by
  refine tied_memRead h fun got ht => ?_
  cases got with
  | none => exact tied_rewind (ht.setFreq _ _) fun hu => .next (hu.enter _)
  | some v => exact .refused _

theorem tied_execPqLeaf : Tied (execPqLeaf s) (execPqLeaf s') := by
  unfold execPqLeaf
  simp only [h.freqAt, h.scan]
  split
  · split
    · exact tied_alloc h fun _ ht => .next ht.succQn.succScan
    · have hscan := h.succScan
      rw [h.scan] at hscan
      exact .next hscan
  · exact .fault _

theorem tied_execPqMerge : Tied (execPqMerge s) (execPqMerge s') :=
  tied_removeMin h fun _ _ ht => tied_removeMin ht fun _ _ hu => tied_alloc hu fun _ hv =>
    .next hv.succQn

theorem tied_execPqWrap : Tied (execPqWrap s) (execPqWrap s') :=
  tied_withNode h rfl fun _ _ => .next (h.threeNodes _ _ _)

theorem tied_execPqRoot : Tied (execPqRoot s) (execPqRoot s') :=
  tied_removeMin h fun _ _ ht => tied_push (ht.withRoot _) rfl fun hu => .next (hu.enter _)

theorem tied_execTblStep : Tied (execTblStep s) (execTblStep s') := by
  refine tied_pop h fun e ht => tied_withNode ht rfl fun _ nd => ?_
  cases e.code with
  | none => exact .fault _
  | some c =>
    cases nd with
    | leaf sym w q =>
      dsimp only
      split
      exacts [.next (ht.setCode _ _), .fault _]
    | inner w l r q =>
      dsimp only
      split
      · exact tied_push ht rfl fun hu => tied_push hu rfl fun hv => .next hv
      · exact .fault _

theorem tied_execWrMagic : Tied (execWrMagic s) (execWrMagic s') := by
  unfold execWrMagic
  rw [h.par]
  exact tied_memWrite h fun ht => tied_push ht (by rw [ht.root]) fun hu => .next (hu.enter _)

theorem tied_execSerInt : Tied (execSerInt s) (execSerInt s') := by
  refine tied_pop h fun e ht => tied_withNode ht rfl fun _ nd => ?_
  cases nd with
  | leaf => exact .refused _
  | inner w l r q =>
    exact tied_memWrite ht fun hu => tied_push hu rfl fun hv => tied_push hv rfl fun hx => .next hx

theorem tied_execSerLeaf : Tied (execSerLeaf s) (execSerLeaf s') := by
  refine tied_pop h fun e ht => tied_withNode ht rfl fun _ nd => ?_
  cases nd with
  | inner => exact .refused _
  | leaf sym w q => exact tied_memWrite ht fun hu => tied_memWrite hu fun hv => .next hv

theorem tied_execEncByte : Tied (execEncByte s) (execEncByte s') := by
  refine tied_memRead h fun got ht => ?_
  cases got with
  | none => exact .refused _
  | some v =>
    simp only [ht.codeAt]
    split
    exacts [tied_raise ht _ _, tied_memWrite ht fun hu => .next hu]

theorem tied_execEncEod : Tied (execEncEod s) (execEncEod s') := by
  refine tied_memRead h fun got ht => ?_
  cases got with
  | none =>
    simp only [ht.codeAt]
    exact tied_memWrite ht fun hu => .next (hu.enter _)
  | some v => exact .refused _

theorem tied_execClose : Tied (execClose s) (execClose s') := tied_closeOut h fun ht => .next (ht.enter _)

theorem tied_checkMagic : Tied (checkMagic s) (checkMagic s') := by
  unfold checkMagic
  refine tied_memRead h fun got ht => ?_
  cases got with
  | none => exact tied_raise ht _ _
  | some m =>
    simp only [ht.par]
    split
    exacts [.next (ht.enter _), tied_raise ht _ _]

theorem tied_desTag {k k' : Nat → State → Result} (hk : ∀ {t t'} b, Alike t t' → Tied (k b t) (k' b t')) :
    Tied (desTag s k) (desTag s' k') := by
  unfold desTag
  rw [h.nn]
  split
  · exact tied_raise h _ _
  · refine tied_memRead h fun got ht => ?_
    cases got with
    | none => exact tied_raise ht _ _
    | some b => exact hk b ht

theorem tied_desOpen : Tied (desOpen s) (desOpen s') :=
  tied_alloc h fun _ ht => tied_attach ht fun hu => tied_push hu rfl fun hv => .next hv

theorem tied_desSymbol : Tied (desSymbol s) (desSymbol s') := by
  unfold desSymbol
  refine tied_memRead h fun got ht => ?_
  cases got with
  | none => exact tied_raise ht _ _
  | some v =>
    dsimp only
    split
    · exact tied_raise ht _ _
    · refine tied_alloc ht fun _ hu => tied_attach hu fun hx => ?_
      rw [hx.sp]
      exact tied_popComplete hx le_rfl fun hy => .next hy

theorem tied_execDesInt : Tied (execDesInt s) (execDesInt s') :=
  tied_desTag h fun b ht => by
    split
    exacts [tied_desOpen ht, .refused _]

theorem tied_execDesLeaf : Tied (execDesLeaf s) (execDesLeaf s') :=
  tied_desTag h fun b ht => by
    split
    exacts [tied_desSymbol ht, .refused _]

theorem tied_execDesEnd : Tied (execDesEnd s) (execDesEnd s') := by
  refine tied_withNode h h.root fun _ nd => ?_
  split
  exacts [tied_raise h _ _, .next (h.curToRoot.enter _)]

theorem tied_arrive : Tied (arrive s) (arrive s') := by
  refine tied_withNode h h.cur fun _ nd => ?_
  cases nd with
  | inner => exact .next h
  | leaf sym w q =>
    dsimp only
    split
    · exact .next (h.enter _)
    · exact tied_memWrite h fun ht => .next ht.curToRoot

theorem tied_walkBit : Tied (walkBit s) (walkBit s') := by
  unfold walkBit
  refine tied_memRead h fun got ht => ?_
  cases got with
  | none => exact tied_raise ht _ _
  | some b => exact tied_withNode ht ht.cur fun _ nd => tied_arrive (ht.withCur _)

theorem Alike.commandStart (p : Phase) : Alike (commandStart p s) (commandStart p s') :=
  h.update (Machine.commandStart p) (fun _ _ _ _ => rfl) (Nat.zero_le _) (Nat.zero_le _)

theorem Alike.toIdle : Alike (toIdle s) (toIdle s') := h.update Machine.toIdle (fun _ _ _ _ => rfl) le_rfl le_rfl

/-- No instruction sees a dead entry. -/
theorem tied_exec (i : Instr) : Tied (exec i s) (exec i s') := by
  cases i with
  | magic m => exact tied_interpret h (tied_checkMagic h)
  | hdrInt => exact tied_interpret h (tied_desTag h fun _ ht => tied_desOpen ht)
  | hdrLeaf sym => exact tied_interpret h (tied_desTag h fun _ ht => tied_desSymbol ht)
  | payBit b => exact tied_interpret h (tied_walkBit h)
  | nop => exact tied_accept h (.next h)
  | compress => exact tied_accept h (.next (h.commandStart _))
  | decompress => exact tied_accept h (.next (h.commandStart _))
  | clear => exact tied_accept h (.next h.toIdle)
  | cmdRsvd op => exact tied_accept h (tied_raise h _ _)
  | cntByte => exact tied_execCntByte h
  | cntEnd => exact tied_execCntEnd h
  | pqLeaf => exact tied_execPqLeaf h
  | pqScanEnd => exact .next (h.enter _)
  | pqWrap => exact tied_execPqWrap h
  | pqRoot => exact tied_execPqRoot h
  | pqMerge => exact tied_execPqMerge h
  | tblStep => exact tied_execTblStep h
  | tblEnd => exact .next (h.enter _)
  | wrMagic => exact tied_execWrMagic h
  | serInt => exact tied_execSerInt h
  | serLeaf => exact tied_execSerLeaf h
  | serEnd => exact .next (h.enter _)
  | encByte => exact tied_execEncByte h
  | encEod => exact tied_execEncEod h
  | close => exact tied_execClose h
  | rdMagic => exact tied_checkMagic h
  | desInt => exact tied_execDesInt h
  | desLeaf => exact tied_execDesLeaf h
  | desEnd => exact tied_execDesEnd h
  | decBit => exact tied_walkBit h

/-! ### Steps and runs -/

theorem tied_coreStep : Tied (coreStep s) (coreStep s') := by
  unfold coreStep
  rw [h.waiting, h.selector]
  split
  · exact .next h
  · split
    exacts [tied_exec h _, .next h, .fault _]

theorem tied_onChannels {t t' : State} (ht : Alike t t') : Tied (onChannels s t) (onChannels s' t') := by
  unfold onChannels
  rw [h.busy]
  split
  exacts [.refused _, .next ht]

theorem tied_makeMove (m : Move) : Tied (makeMove m s) (makeMove m s') := by
  cases m with
  | core => exact tied_coreStep h
  | write r w =>
    cases r with
    | cmd => exact tied_exec h _
    | status => exact .next h
    | ioinfo => exact .next h
  | read r => exact .next (h.withHostSaw _ _)
  | reset => exact .next h.hardReset
  | attachIn bytes pos again => exact tied_onChannels h (h.withIn _)
  | attachOut => exact tied_onChannels h (h.withOut _)

theorem tied_step : Tied (step s) (step s') := by
  unfold step nextMove
  rw [h.moves]
  split
  exacts [tied_coreStep h, tied_makeMove (h.withMoves _) _]

end Meanings

theorem Tied.next_left {t : State} {r : Result} (h : Tied (.next t) r) : ∃ t', r = .next t' ∧ Alike t t' := by
  cases h with
  | next h => exact ⟨_, rfl, h⟩

theorem tied_run (k : Nat) {s s' : State} (h : Alike s s') : Tied (run k s) (run k s') := by
  induction k generalizing s s' with
  | zero => exact .next h
  | succ k ih =>
    unfold run
    have hstep := tied_step h
    generalize step s = r, step s' = r' at hstep ⊢
    cases hstep with
    | next ht => exact ih ht
    | fault f => exact .fault f
    | refused r => exact .refused r

/-- A command start makes every entry of NODE and STK dead and clears the other tables and registers (R196). -/
theorem alike_commandStart {s s' : State} (p : Phase) (hs : Table.sorted s.node = true)
    (hs' : Table.sorted s'.node = true) (hin : s.inp = s'.inp) (hout : s.out = s'.out)
    (hans : s.answers = s'.answers) (hpar : s.par = s'.par) (hmoves : s.moves = s'.moves)
    (hwait : s.waiting = s'.waiting) (hdraws : s.draws = s'.draws) :
    Alike (commandStart p s) (commandStart p s') where
  rest := by simp only [commandStart, State.withDead, hin, hout, hans, hpar, hmoves, hwait, hdraws]
  sorted := hs
  sorted' := hs'
  node _ hi := absurd hi (Nat.not_lt_zero _)
  stk _ hp := absurd hp (Nat.not_lt_zero _)

/-- Settles O51: the two commands start alike and run in lockstep, and states alike have one view. -/
theorem nothingCarriesOver : Obligations.NothingCarriesOver := by
  intro s s' p k u _ hi hi' hin hout hans hpar hmoves hwait hdraws hrun
  have hstart := alike_commandStart p (Table.wf_iff.1 hi.nodeWf).1 (Table.wf_iff.1 hi'.nodeWf).1 hin hout hans hpar
    hmoves hwait hdraws
  obtain ⟨u', hrun', hu⟩ := (hrun ▸ tied_run k hstart : Tied (.next u) _).next_left
  exact ⟨u', hrun', hu.view.symm⟩

end Sys2Proof.Machine
end

section
/-! ## PROOFS: host-visible registers, the sequencer's choice and the frame of each phase (spec/10_state.md R12 to R25,
spec/30_encoding.md R84) -/

namespace Sys2Proof.Machine

/-! ### Registers, reset and host accesses -/

theorem State.busy_eq (s : State) : s.busy = decide (1 ≤ s.phase.code.toNat ∧ s.phase.code.toNat ≤ 11) := by
  unfold State.busy
  cases s.phase <;> rfl

/-- The fields of a word put together as STATUS is (R13). -/
theorem statusFields (phase cause : BitVec 4) (err done busy : Bool) :
    let w := (0 : BitVec 20) ++ phase ++ cause ++ (0 : BitVec 1) ++ BitVec.ofBool err ++ BitVec.ofBool done ++
      BitVec.ofBool busy
    w.getLsbD 0 = busy ∧ w.getLsbD 1 = done ∧ w.getLsbD 2 = err ∧ w.getLsbD 3 = false ∧ w.extractLsb' 4 4 = cause ∧
      w.extractLsb' 8 4 = phase ∧ w.extractLsb' 12 20 = 0 := by
  intro w
  refine ⟨?_, ?_, ?_, ?_, BitVec.eq_of_getLsbD_eq fun i hi => ?_, BitVec.eq_of_getLsbD_eq fun i hi => ?_,
    BitVec.eq_of_getLsbD_eq fun i hi => ?_⟩ <;>
    simp only [w, BitVec.getLsbD_append, BitVec.getLsbD_extractLsb']
  · simp
  · simp
  · simp
  · simp
  · simp [hi]
  · simp [hi]
  · have hover : ¬ 8 + i < 4 ∧ ¬ 8 + i - 4 < 4 := by omega
    simp [hover]

/-- Settles O6: STATUS is put together from its fields, and BUSY is a function of the phase code. -/
theorem statusWordFields : Obligations.StatusWordFields := by
  refine ⟨fun s => ?_, rfl, rfl⟩
  obtain ⟨hbusy, hdone, herr, hrest⟩ := statusFields s.phase.code s.errcode.code s.errBit s.doneBit s.busy
  exact ⟨hbusy.trans s.busy_eq, hdone, herr, hrest⟩

/-- Settles O7: each value is the reset state's own. -/
theorem resetValues : Obligations.ResetValues := ⟨rfl, rfl, rfl, rfl, rfl⟩

/-- Settles O9: neither access reaches the core. -/
theorem hostAccesses : Obligations.HostAccesses := by
  refine ⟨fun s r ms hm => ⟨_, step_of_moves hm, rfl, ?_⟩, fun s r w ms hr hm => ?_⟩
  · cases r <;> rfl
  · rw [step_of_moves hm]
    cases r with
    | cmd => exact absurd rfl hr
    | status => rfl
    | ioinfo => rfl

/-! ### What the sequencer selects -/

/-- The row of R84 that selects `i`, as a condition on the state; what the first read returns is left open. -/
def State.rowOf (s : State) : Instr → Prop
  | .cntByte | .cntEnd => s.phase = .count
  | .pqLeaf => s.phase = .leaves ∧ s.scan ≤ 256
  | .pqScanEnd => s.phase = .leaves ∧ s.scan = 257
  | .pqMerge => s.phase = .merge ∧ 2 ≤ s.qn
  | .pqWrap => s.phase = .merge ∧ s.qn = 1 ∧ s.nn = 1
  | .pqRoot => s.phase = .merge ∧ s.qn = 1 ∧ 1 < s.nn
  | .tblStep => s.phase = .derive ∧ 0 < s.sp
  | .tblEnd => s.phase = .derive ∧ s.sp = 0
  | .wrMagic => s.phase = .wmagic
  | .serInt | .serLeaf => s.phase = .ser ∧ 0 < s.sp
  | .serEnd => s.phase = .ser ∧ s.sp = 0
  | .encByte | .encEod => s.phase = .encode
  | .close => s.phase = .close
  | .rdMagic => s.phase = .rmagic
  | .desInt | .desLeaf => s.phase = .deser ∧ (s.nn = 0 ∨ 0 < s.sp)
  | .desEnd => s.phase = .deser ∧ 0 < s.nn ∧ s.sp = 0
  | .decBit => s.phase = .decode
  | .magic _ | .hdrInt | .hdrLeaf _ | .payBit _ | .nop | .compress | .decompress | .clear | .cmdRsvd _ => False

/-- Where no row of R84 holds (U14): SCAN beyond the table, or a merge with an empty structure or no node. -/
def State.rowless (s : State) : Prop :=
  s.phase = .leaves ∧ 257 < s.scan ∨ s.phase = .merge ∧ (s.qn = 0 ∨ s.qn = 1 ∧ s.nn = 0)

/-- Outside the quiescent phases the sequencer selects the instruction of a row that holds, or no row holds. -/
theorem select_cases {s : State} (h : ¬ s.quiescent) :
    (∃ i, decode (.select s.selector) = .ok i ∧ s.rowOf i) ∨
      decode (.select s.selector) = .error .noRow ∧ s.rowless := by
  cases hp : s.phase with
  | idle => exact absurd (.inl hp) h
  | done => exact absurd (.inr (.inl hp)) h
  | fault => exact absurd (.inr (.inr hp)) h
  | count => rw [select_count hp]; split <;> exact .inl ⟨_, rfl, hp⟩
  | leaves =>
    rw [select_leaves hp]
    split
    · exact .inl ⟨_, rfl, hp, ‹_›⟩
    · split
      · exact .inl ⟨_, rfl, hp, ‹_›⟩
      · exact .inr ⟨rfl, .inl ⟨hp, by omega⟩⟩
  | merge =>
    rw [select_merge hp]
    split
    · exact .inl ⟨_, rfl, hp, ‹_›⟩
    · split
      · exact .inl ⟨_, rfl, hp, ‹_›⟩
      · split
        · exact .inl ⟨_, rfl, hp, ‹_›⟩
        · exact .inr ⟨rfl, .inr ⟨hp, by omega⟩⟩
  | derive =>
    rw [select_derive hp]
    split
    · exact .inl ⟨_, rfl, hp, ‹_›⟩
    · exact .inl ⟨_, rfl, hp, by omega⟩
  | wmagic => exact .inl ⟨_, select_wmagic hp, hp⟩
  | ser =>
    rw [select_ser hp]
    split
    · split <;> exact .inl ⟨_, rfl, hp, ‹_›⟩
    · exact .inl ⟨_, rfl, hp, by omega⟩
  | encode => rw [select_encode hp]; split <;> exact .inl ⟨_, rfl, hp⟩
  | close => exact .inl ⟨_, select_close hp, hp⟩
  | rmagic => exact .inl ⟨_, select_rmagic hp, hp⟩
  | deser =>
    rw [select_deser hp]
    split
    · split <;> exact .inl ⟨_, rfl, hp, ‹_›⟩
    · exact .inl ⟨_, rfl, hp, by omega, by omega⟩
  | decode => exact .inl ⟨_, select_decode hp, hp⟩

/-- Everything the core's turn can do: nothing, while a call is pending or in a quiescent phase; the selected
instruction; or the fault of a state without an enabled row. -/
theorem ends_coreStep {F : Prop} {Q : State → Prop} {s : State} (hstay : s.waiting = true ∨ s.quiescent → Q s)
    (hexec : ∀ i, s.waiting = false → s.rowOf i → Ends F Q (exec i s))
    (hnone : s.waiting = false → s.rowless → F) : Ends F Q (coreStep s) := by
  cases hw : s.waiting with
  | true => rw [coreStep_of_waiting hw]; exact hstay (.inl hw)
  | false =>
    by_cases hq : s.quiescent
    · rw [coreStep_of_quiescent hw hq]; exact hstay (.inr hq)
    · rcases select_cases hq with ⟨i, hsel, hrow⟩ | ⟨hsel, hno⟩
      · rw [coreStep_of_selects hw hsel]; exact hexec i hw hrow
      · rw [coreStep_of_noRow hw hsel]; exact hnone hw hno

/-! ### The frame of each phase -/

section

variable {F : Prop} {Q : State → Prop} {n v : Nat} {s : State}

/-- A read changes IN, the record of answers and draws, and where it fails or waits the fault registers or `waiting`. -/
theorem ends_memRead_frame {k : Option Nat → State → Result}
    (hk : ∀ got inp ans, Ends F Q (k got { s with inp := inp, answers := ans }))
    (hi : ∀ info inp ans d, Q { s with inp := inp, answers := ans, draws := d, errcode := .eIo, ioinfo := info,
                                       phase := .fault })
    (hn : ∀ ans, Q { s with answers := ans, waiting := true }) : Ends F Q (memRead n s k) :=
  ends_memRead (fun _ _ => hk _ _ _) (fun _ _ => hk none s.inp _) (fun info _ => hi info _ _ _) fun _ => hn _

/-- A write changes OUT, the record of answers and draws, and where it fails or waits the fault registers or
`waiting`. -/
theorem ends_memWrite_frame {k : State → Result} (hk : ∀ out ans, Ends F Q (k { s with out := out, answers := ans }))
    (hi : ∀ info out ans d, Q { s with out := out, answers := ans, draws := d, errcode := .eIo, ioinfo := info,
                                       phase := .fault })
    (hn : ∀ ans, Q { s with answers := ans, waiting := true }) : Ends F Q (memWrite n v s k) :=
  ends_memWrite (fun _ => hk _ _) (fun info _ => hi info _ _ _) fun _ => hn _

end

theorem ends_attach {F : Prop} {Q : State → Prop} {n : Nat} {s : State} {k : State → Result}
    (hk : ∀ node root, Ends F Q (k { s with node := node, root := root })) (hf : F) : Ends F Q (attach n s k) := by
  unfold attach
  split
  · exact hk _ _
  · split
    · exact hf
    · refine ends_withNode (fun p nd _ _ => ?_) fun _ => hf
      cases nd with
      | leaf => exact hf
      | inner w l r q => dsimp only; split <;> exact hk _ _

theorem ends_popComplete {F : Prop} {Q : State → Prop} {p : Nat} {s : State} {k : State → Result}
    (hk : ∀ q, Ends F Q (k { s with sp := q })) (hf : F) : Ends F Q (popComplete p s k) := by
  induction p with
  | zero => exact hk 0
  | succ p ih =>
    unfold popComplete
    split
    · exact hf
    · refine ends_withNode (fun _ nd _ _ => ?_) fun _ => hf
      split
      exacts [hk _, ih]

/-- The tables and working registers (R17, R19, R20, R22, R23). -/
structure Tables where
  freq : List (Nat × Nat)
  code : List (Nat × Code)
  node : List (Nat × Node)
  nn : Nat
  qn : Nat
  scan : Nat
  root : Option Nat
  cur : Option Nat
  stk : List (Nat × StkEntry)
  sp : Nat

def State.tables (s : State) : Tables :=
  { freq := s.freq, code := s.code, node := s.node, nn := s.nn, qn := s.qn, scan := s.scan, root := s.root,
    cur := s.cur, stk := s.stk, sp := s.sp }

/-- What phase `p` writes as in `y`, the rest as in `x`. -/
def Tables.frame (p : Phase) (x y : Tables) : Tables where
  freq := match p with | .count => y.freq | _ => x.freq
  code := match p with | .derive => y.code | _ => x.code
  node := match p with | .leaves | .merge | .deser => y.node | _ => x.node
  nn := match p with | .leaves | .merge | .deser => y.nn | _ => x.nn
  qn := match p with | .leaves | .merge => y.qn | _ => x.qn
  scan := match p with | .leaves => y.scan | _ => x.scan
  root := match p with | .merge | .deser => y.root | _ => x.root
  cur := match p with | .deser | .decode => y.cur | _ => x.cur
  stk := match p with | .merge | .derive | .wmagic | .ser | .deser => y.stk | _ => x.stk
  sp := match p with | .merge | .derive | .wmagic | .ser | .deser => y.sp | _ => x.sp

/-- Where `r` goes on from `s`, it has written nothing but what phase `p` writes. -/
abbrev Framed (p : Phase) (s : State) (r : Result) : Prop := Ends True (fun t => t.tables = s.tables.frame p t.tables) r

section Frames

variable (s : State)

theorem framed_cntByte : Framed .count s (execCntByte s) := by
  refine ends_memRead_frame (fun got _ _ => ?_) (fun _ _ _ _ => rfl) fun _ => rfl
  cases got with
  | none => trivial
  | some v => dsimp only; split <;> rfl

theorem framed_cntEnd : Framed .count s (execCntEnd s) := by
  refine ends_memRead_frame (fun got _ _ => ?_) (fun _ _ _ _ => rfl) fun _ => rfl
  cases got with
  | none => exact ends_rewind (fun _ => rfl) (fun _ _ => rfl) fun _ => rfl
  | some v => trivial

theorem framed_pqLeaf : Framed .leaves s (execPqLeaf s) := by
  unfold execPqLeaf
  split
  · split
    exacts [ends_alloc (fun _ => rfl) fun _ => trivial, rfl]
  · trivial

theorem framed_pqMerge : Framed .merge s (execPqMerge s) :=
  ends_removeMin (fun _ _ _ _ => ends_removeMin (fun _ _ _ _ => ends_alloc (fun _ => rfl) fun _ => trivial)
    fun _ => trivial) fun _ => trivial

theorem framed_pqWrap : Framed .merge s (execPqWrap s) := ends_withNode (fun _ _ _ _ => rfl) fun _ => trivial

theorem framed_pqRoot : Framed .merge s (execPqRoot s) :=
  ends_removeMin (fun _ _ _ _ => ends_push (fun _ => rfl) fun _ => trivial) fun _ => trivial

theorem framed_tblStep : Framed .derive s (execTblStep s) := by
  refine ends_pop (fun e _ => ends_withNode (fun _ nd _ _ => ?_) fun _ => trivial) fun _ => trivial
  split
  · trivial
  · cases nd with
    | leaf sym w q =>
      dsimp only
      split
      exacts [rfl, trivial]
    | inner w l r q =>
      dsimp only
      split
      exacts [ends_push (fun _ => ends_push (fun _ => rfl) fun _ => trivial) fun _ => trivial, trivial]

theorem framed_wrMagic : Framed .wmagic s (execWrMagic s) :=
  ends_memWrite_frame (fun _ _ => ends_push (fun _ => rfl) fun _ => trivial) (fun _ _ _ _ => rfl) fun _ => rfl

theorem framed_serInt : Framed .ser s (execSerInt s) := by
  refine ends_pop (fun e _ => ends_withNode (fun _ nd _ _ => ?_) fun _ => trivial) fun _ => trivial
  cases nd with
  | leaf => trivial
  | inner w l r q =>
    refine ends_memWrite_frame (fun _ _ => ?_) (fun _ _ _ _ => rfl) fun _ => rfl
    exact ends_push (fun _ => ends_push (fun _ => rfl) fun _ => trivial) fun _ => trivial

theorem framed_serLeaf : Framed .ser s (execSerLeaf s) := by
  refine ends_pop (fun e _ => ends_withNode (fun _ nd _ _ => ?_) fun _ => trivial) fun _ => trivial
  cases nd with
  | inner => trivial
  | leaf sym w q =>
    refine ends_memWrite_frame (fun _ _ => ?_) (fun _ _ _ _ => rfl) fun _ => rfl
    exact ends_memWrite_frame (fun _ _ => rfl) (fun _ _ _ _ => rfl) fun _ => rfl

theorem framed_encByte : Framed .encode s (execEncByte s) := by
  refine ends_memRead_frame (fun got _ _ => ?_) (fun _ _ _ _ => rfl) fun _ => rfl
  cases got with
  | none => trivial
  | some v =>
    dsimp only
    split
    · rfl
    · exact ends_memWrite_frame (fun _ _ => rfl) (fun _ _ _ _ => rfl) fun _ => rfl

theorem framed_encEod : Framed .encode s (execEncEod s) := by
  refine ends_memRead_frame (fun got _ _ => ?_) (fun _ _ _ _ => rfl) fun _ => rfl
  cases got with
  | none => exact ends_memWrite_frame (fun _ _ => rfl) (fun _ _ _ _ => rfl) fun _ => rfl
  | some v => trivial

theorem framed_close : Framed .close s (execClose s) := ends_closeOut (fun _ => rfl) (fun _ _ => rfl) fun _ => rfl

theorem framed_rdMagic : Framed .rmagic s (execRdMagic s) := by
  unfold execRdMagic checkMagic
  refine ends_memRead_frame (fun got _ _ => ?_) (fun _ _ _ _ => rfl) fun _ => rfl
  cases got with
  | none => rfl
  | some m => dsimp only; split <;> rfl

/-- The two header tokens begin alike; what follows the tag may write whatever P_DESER writes. -/
theorem framed_desTag {k : Nat → State → Result}
    (hk : ∀ b inp ans, Framed .deser s (k b { s with inp := inp, answers := ans })) :
    Framed .deser s (desTag s k) := by
  unfold desTag
  split
  · rfl
  · refine ends_memRead_frame (fun got _ _ => ?_) (fun _ _ _ _ => rfl) fun _ => rfl
    cases got with
    | none => rfl
    | some b => exact hk b _ _

theorem framed_desInt : Framed .deser s (execDesInt s) := by
  refine framed_desTag s fun b _ _ => ?_
  split
  · exact ends_alloc (fun _ => ends_attach (fun _ _ => ends_push (fun _ => rfl) fun _ => trivial) trivial)
      fun _ => trivial
  · trivial

theorem framed_desLeaf : Framed .deser s (execDesLeaf s) := by
  refine framed_desTag s fun b _ _ => ?_
  split
  · unfold desSymbol
    refine ends_memRead_frame (fun got _ _ => ?_) (fun _ _ _ _ => rfl) fun _ => rfl
    cases got with
    | none => rfl
    | some v =>
      dsimp only
      split
      · rfl
      · exact ends_alloc (fun _ => ends_attach (fun _ _ => ends_popComplete (fun _ => rfl) trivial) trivial)
          fun _ => trivial
  · trivial

theorem framed_desEnd : Framed .deser s (execDesEnd s) := by
  refine ends_withNode (fun _ nd _ _ => ?_) fun _ => trivial
  split <;> rfl

theorem framed_decBit : Framed .decode s (execDecBit s) := by
  unfold execDecBit walkBit arrive
  refine ends_memRead_frame (fun got _ _ => ?_) (fun _ _ _ _ => rfl) fun _ => rfl
  cases got with
  | none => rfl
  | some b =>
    refine ends_withNode (fun _ _ _ _ => ends_withNode (fun _ nd _ _ => ?_) fun _ => trivial) fun _ => trivial
    cases nd with
    | inner => rfl
    | leaf sym w q =>
      dsimp only
      split
      · rfl
      · exact ends_memWrite_frame (fun _ _ => rfl) (fun _ _ _ _ => rfl) fun _ => rfl

end Frames

theorem Tables.frame_self (p : Phase) (x : Tables) : x.frame p x = x := by
  cases p <;> rfl

theorem Tables.frame_unwritten (p : Phase) (x y : Tables) :
    (p ≠ .count → (x.frame p y).freq = x.freq) ∧ (p ≠ .derive → (x.frame p y).code = x.code) ∧
    (p ≠ .leaves → p ≠ .merge → p ≠ .deser → (x.frame p y).node = x.node ∧ (x.frame p y).nn = x.nn) ∧
    (p ≠ .leaves → p ≠ .merge → (x.frame p y).qn = x.qn) ∧ (p ≠ .leaves → (x.frame p y).scan = x.scan) ∧
    (p ≠ .merge → p ≠ .deser → (x.frame p y).root = x.root) ∧
    (p ≠ .deser → p ≠ .decode → (x.frame p y).cur = x.cur) ∧
    (p ∉ [Phase.merge, .derive, .wmagic, .ser, .deser] → (x.frame p y).stk = x.stk ∧ (x.frame p y).sp = x.sp) := by
  unfold Tables.frame
  cases p <;> simp

theorem framed_coreStep (s : State) : Framed s.phase s (coreStep s) := by
  refine ends_coreStep (fun _ => (s.tables.frame_self _).symm) (fun i _ hrow => ?_) fun _ _ => trivial
  cases i with
  | cntByte => rw [show s.phase = .count from hrow]; exact framed_cntByte s
  | cntEnd => rw [show s.phase = .count from hrow]; exact framed_cntEnd s
  | pqLeaf => rw [hrow.1]; exact framed_pqLeaf s
  | pqScanEnd => rw [hrow.1]; rfl
  | pqWrap => rw [hrow.1]; exact framed_pqWrap s
  | pqRoot => rw [hrow.1]; exact framed_pqRoot s
  | pqMerge => rw [hrow.1]; exact framed_pqMerge s
  | tblStep => rw [hrow.1]; exact framed_tblStep s
  | tblEnd => rw [hrow.1]; rfl
  | wrMagic => rw [show s.phase = .wmagic from hrow]; exact framed_wrMagic s
  | serInt => rw [hrow.1]; exact framed_serInt s
  | serLeaf => rw [hrow.1]; exact framed_serLeaf s
  | serEnd => rw [hrow.1]; rfl
  | encByte => rw [show s.phase = .encode from hrow]; exact framed_encByte s
  | encEod => rw [show s.phase = .encode from hrow]; exact framed_encEod s
  | close => rw [show s.phase = .close from hrow]; exact framed_close s
  | rdMagic => rw [show s.phase = .rmagic from hrow]; exact framed_rdMagic s
  | desInt => rw [hrow.1]; exact framed_desInt s
  | desLeaf => rw [hrow.1]; exact framed_desLeaf s
  | desEnd => rw [hrow.1]; exact framed_desEnd s
  | decBit => rw [show s.phase = .decode from hrow]; exact framed_decBit s
  | magic | hdrInt | hdrLeaf | payBit | nop | compress | decompress | clear | cmdRsvd => exact hrow.elim

/-- Settles O45: the step stays in its phase's frame, and each field is read off the frame. -/
theorem tablesAreWrittenOnlyInTheirPhases : Obligations.TablesAreWrittenOnlyInTheirPhases := by
  intro s t hm hstep
  rw [step, nextMove, hm] at hstep
  have ht : t.tables = s.tables.frame s.phase t.tables := (ends_iff.1 (framed_coreStep s)).1 t hstep
  have hun := Tables.frame_unwritten s.phase s.tables t.tables
  rw [← ht] at hun
  exact hun

end Sys2Proof.Machine
end

section
/-! ## PROOFS: the invariant, inside a step (spec/10_state.md R11, R13, R17)

A step of a busy core is followed through its operations: between two of them `State.Midway` holds, and at the end the
phase's part of the invariant is proved again. -/

namespace Sys2Proof.Machine

/-! ### In the middle of a step -/

/-- Between two operations of a step: the invariant would hold if the next call never returned, so all of it holds but
the phase's part, and the core is busy. -/
structure State.Midway (s : State) : Prop where
  stalled : State.Inv { s with waiting := true }
  running : s.waiting = false

/-- `r` goes on with the invariant, and is no fault of the model. -/
abbrev Keeps (r : Result) : Prop := Ends False State.Inv r

section Rules

variable {s : State}

theorem State.Inv.midway (h : s.Inv) (hw : s.waiting = false) (hb : s.busy = true) : s.Midway :=
  ⟨{ h with waitBusy := fun _ => hb, here := nofun }, hw⟩

theorem State.Midway.nnLe (h : s.Midway) : s.nn ≤ 513 := h.stalled.nnLe

theorem State.Midway.sorted (h : s.Midway) : Table.sorted s.node = true := (Table.wf_iff.1 h.stalled.nodeWf).1

theorem State.Midway.noCause (h : s.Midway) : s.errcode = .eNone ∧ s.ioinfo = 0 := by
  have hb : s.busy = true := h.stalled.waitBusy rfl
  have hp : s.phase ≠ .fault := fun hp => by simp [State.busy, hp] at hb
  exact ⟨not_not.1 fun he => hp (h.stalled.errIff.2 he), h.stalled.ioinfoZero hp⟩

/-- A step that ends in phase `p` keeps the invariant where the part of `p` holds. -/
theorem State.Midway.enter (h : s.Midway) (p : Phase) (hne : p ≠ .fault) (hp : phaseInv (s.enter p)) :
    (s.enter p).Inv :=
  { h.stalled with
    errIff := ⟨fun hf => absurd hf hne, fun he => absurd h.noCause.1 he⟩
    ioinfoZero := fun _ => h.noCause.2
    waitBusy := fun hw => absurd (h.running.symm.trans hw) Bool.false_ne_true
    here := fun _ => hp }

/-- A step that stays in its phase keeps the invariant where the phase's part holds again. -/
theorem State.Midway.stay (h : s.Midway) (p : Phase) (hp : s.phase = p) (hne : p ≠ .fault) (hi : phaseInv (s.enter p)) :
    s.Inv := by
  subst hp
  exact h.enter s.phase hne hi

theorem keeps_raise (h : s.Midway) {c : Cause} (hc : c ≠ .eNone) (info : Word) : Keeps (raise c info s) :=
  { h.stalled with
    errIff := ⟨fun _ => hc, fun _ => rfl⟩
    ioinfoZero := fun hp => absurd rfl hp
    waitBusy := fun hw => absurd (h.running.symm.trans hw) Bool.false_ne_true
    here := fun _ => trivial }

theorem keeps_block (h : s.Midway) : Keeps (block s) := h.stalled

/-! ### Updates in the middle of a step -/

theorem State.Midway.withIn (h : s.Midway) {inp : InChan} (hpos : inp.pos ≤ inp.len) (ans : List Answer) (d : Nat) :
    State.Midway { s with inp := inp, answers := ans, draws := d } :=
  ⟨{ h.stalled with here := nofun, posLe := hpos }, h.running⟩

theorem State.Midway.withOut (h : s.Midway) (out : OutChan) (ans : List Answer) (d : Nat) :
    State.Midway { s with out := out, answers := ans, draws := d } :=
  ⟨{ h.stalled with here := nofun }, h.running⟩

theorem State.Midway.withQn (h : s.Midway) {q : Nat} (hq : q ≤ 257) : State.Midway { s with qn := q } :=
  ⟨{ h.stalled with here := nofun, qnLe := hq }, h.running⟩

theorem State.Midway.withScan (h : s.Midway) {n : Nat} (hn : n ≤ 257) : State.Midway { s with scan := n } :=
  ⟨{ h.stalled with here := nofun, scanLe := hn }, h.running⟩

theorem State.Midway.withRoot (h : s.Midway) {r : Nat} (hr : r < 513) : State.Midway { s with root := some r } :=
  ⟨{ h.stalled with here := nofun, rootLt := fun _ hi => by cases hi; exact hr }, h.running⟩

theorem State.Midway.withCur (h : s.Midway) {c : Option Nat} (hc : ∀ i, c = some i → i < 513) :
    State.Midway { s with cur := c } :=
  ⟨{ h.stalled with here := nofun, curLt := hc }, h.running⟩

theorem State.Midway.withSp (h : s.Midway) {p : Nat} (hp : p ≤ s.sp) : State.Midway { s with sp := p } :=
  ⟨{ h.stalled with here := nofun, spLe := hp.trans h.stalled.spLe }, h.running⟩

theorem State.Midway.setNode (h : s.Midway) {i : Nat} (hi : i < 513) (nd : Node) : (s.setNode i nd).Midway :=
  ⟨{ h.stalled with here := nofun, nodeWf := Table.wf_set nd hi h.stalled.nodeWf }, h.running⟩

theorem State.Midway.allocated (h : s.Midway) (hn : s.nn < 513) (nd : Node) : (s.allocated nd).Midway :=
  ⟨{ h.stalled with here := nofun, nodeWf := Table.wf_set nd hn h.stalled.nodeWf, nnLe := hn }, h.running⟩

/-- The state that `push` goes on with. -/
def State.pushed (s : State) (e : StkEntry) : State := { s with stk := Table.set s.stk s.sp e, sp := s.sp + 1 }

theorem State.Midway.pushed (h : s.Midway) (hsp : s.sp < 513) (e : StkEntry) : (s.pushed e).Midway :=
  ⟨{ h.stalled with here := nofun, stkWf := Table.wf_set e hsp h.stalled.stkWf, spLe := hsp }, h.running⟩

theorem State.Midway.setFreq (h : s.Midway) {i v : Nat} (hi : i < 257)
    (hv : ∀ w, s.par.cntW = some w → v < 2 ^ w) : (s.setFreq i v).Midway := by
  have hwf := Table.wfD_put v hi h.stalled.freqWf
  refine ⟨{ h.stalled with here := nofun, freqWf := hwf, counts := fun w j hw => ?_ }, h.running⟩
  have hsorted := (Table.wf_iff.1 (Table.wfD_iff.1 h.stalled.freqWf).1).1
  show Table.getD (Table.put s.freq 0 i v) 0 j < 2 ^ w
  rw [Table.getD_put hsorted]
  split
  exacts [hv w hw, h.stalled.counts w j hw]

theorem State.Midway.setCode (h : s.Midway) {i : Nat} {c : Code} (hi : i < 257) (hlen : c.len ≤ 256)
    (hbits : c.bits.toNat < 2 ^ c.len) : (s.setCode i c).Midway := by
  have hwf := Table.wfD_put c hi h.stalled.codeWf
  refine ⟨{ h.stalled with here := nofun, codeWf := hwf, codes := fun j => ?_ }, h.running⟩
  show ((s.setCode i c).codeAt j).len ≤ 256 ∧ ((s.setCode i c).codeAt j).bits.toNat < 2 ^ ((s.setCode i c).codeAt j).len
  rw [State.codeAt_setCode (s := s) h.stalled.codeWf]
  split
  exacts [⟨hlen, hbits⟩, h.stalled.codes j]

/-! ### One rule per shared operation -/

theorem keeps_memRead {n : Nat} {k : Option Nat → State → Result} (h : s.Midway)
    (hv : ∀ v inp ans, v < 2 ^ n → State.Midway { s with inp := inp, answers := ans } →
      Keeps (k (some v) { s with inp := inp, answers := ans }))
    (he : ∀ ans, State.Midway { s with answers := ans } → Keeps (k none { s with answers := ans })) :
    Keeps (memRead n s k) := by
  have hpos : s.inp.pos ≤ s.inp.len := h.stalled.posLe
  have hcalled : s.called.Midway := h.withIn hpos s.answers.tail s.draws
  refine ends_memRead (fun _ hhas => ?_) (fun _ _ => he _ hcalled) (fun info _ => ?_) fun _ => keeps_block hcalled
  · exact hv _ _ _ (by simpa [InChan.next] using valOf_lt (s.inp.next n))
      (h.withIn (inp := { s.inp with pos := s.inp.pos + n }) hhas s.answers.tail s.draws)
  · exact keeps_raise (hcalled.withIn (inp := s.called.lostIn.inp) (Nat.le_of_lt_succ (Nat.mod_lt _ (Nat.succ_pos _)))
      s.answers.tail (s.draws + 1)) (by decide) info

theorem keeps_memWrite {n v : Nat} {k : State → Result} (h : s.Midway)
    (hk : ∀ out ans, State.Midway { s with out := out, answers := ans } →
      Keeps (k { s with out := out, answers := ans })) : Keeps (memWrite n v s k) :=
  ends_memWrite (fun _ => hk _ _ (h.withOut _ _ s.draws))
    (fun info _ => keeps_raise (h.withOut _ s.answers.tail (s.draws + 1)) (by decide) info)
    fun _ => keeps_block (h.withOut s.out s.answers.tail s.draws)

theorem keeps_rewind {k : State → Result} (h : s.Midway)
    (hk : ∀ inp ans, State.Midway { s with inp := inp, answers := ans } →
      Keeps (k { s with inp := inp, answers := ans })) : Keeps (rewind s k) := by
  have hpos : s.inp.pos ≤ s.inp.len := h.stalled.posLe
  have hcalled : s.called.Midway := h.withIn hpos s.answers.tail s.draws
  refine ends_rewind (fun _ => hk _ _ (h.withIn (inp := s.inp.rewound) (Nat.zero_le _) s.answers.tail s.draws))
    (fun info _ => ?_) fun _ => keeps_block hcalled
  exact keeps_raise (hcalled.withIn (inp := s.called.lostIn.inp) (Nat.le_of_lt_succ (Nat.mod_lt _ (Nat.succ_pos _)))
    s.answers.tail (s.draws + 1)) (by decide) info

theorem keeps_closeOut {k : State → Result} (h : s.Midway)
    (hk : ∀ out ans d, State.Midway { s with out := out, answers := ans, draws := d } →
      Keeps (k { s with out := out, answers := ans, draws := d })) : Keeps (closeOut s k) :=
  ends_closeOut (fun _ => hk _ _ _ (h.withOut _ _ _))
    (fun info _ => keeps_raise (h.withOut _ s.answers.tail (s.draws + 1)) (by decide) info)
    fun _ => keeps_block (h.withOut s.out s.answers.tail s.draws)

theorem keeps_push {e : StkEntry} {k : State → Result} (hsp : s.sp < 513) (hk : Keeps (k (s.pushed e))) :
    Keeps (push e s k) := by
  rw [push_ok k hsp]; exact hk

theorem keeps_pop {e : StkEntry} {k : StkEntry → State → Result} (he : s.top = some e)
    (hk : Keeps (k e { s with sp := s.sp - 1 })) : Keeps (pop s k) := by
  rw [pop_ok k he]; exact hk

theorem keeps_alloc {nd : Node} {k : Nat → State → Result} (hn : s.nn < 513) (hk : Keeps (k s.nn (s.allocated nd))) :
    Keeps (alloc nd s k) := by
  rw [alloc_ok k hn]; exact hk

theorem keeps_withNode {o : Option Nat} {i : Nat} {nd : Node} {k : Nat → Node → Result} (ho : o = some i)
    (hn : s.nodeAt i = some nd) (hk : Keeps (k i nd)) : Keeps (withNode o s k) := by
  rw [ho, withNode_ok k hn]; exact hk

end Rules

end Sys2Proof.Machine
end

section
/-! ## PROOFS: the invariant in P_COUNT, P_LEAVES and P_MERGE (spec/41_tree_build.md R110, R116) -/

namespace Sys2Proof.Machine

/-! ### How many nodes are in the priority structure -/

/-- The indices of the nodes in the priority structure (R110). -/
def State.queued (s : State) : Finset Nat := (Finset.range s.nn).filter fun i => (s.nodeAt i).any Node.inq = true

theorem State.mem_queued {s : State} {i : Nat} : i ∈ s.queued ↔ ∃ nd, s.nodeAt i = some nd ∧ nd.inq = true := by
  simp only [State.queued, Finset.mem_filter, Finset.mem_range, Option.any_eq_true]
  exact ⟨And.right, fun h => ⟨State.nodeAt_lt h.choose_spec.1, h⟩⟩

theorem State.inqCount_eq {s : State} (h : Table.sorted s.node = true) : s.inqCount = s.queued.card := by
  have hsum := Table.sum_filter_eq_sum_range h s.nn Node.inq fun _ => 1
  rw [List.map_const', List.sum_replicate, smul_eq_mul, mul_one] at hsum
  rw [State.inqCount, hsum, State.queued, Finset.card_filter]
  refine Finset.sum_congr rfl fun i hi => ?_
  rw [State.nodeAt, if_pos (Finset.mem_range.1 hi)]
  cases Table.get? s.node i <;> rfl

theorem State.inqCount_le {s : State} (h : Table.sorted s.node = true) : s.inqCount ≤ s.nn := by
  rw [State.inqCount_eq h]
  exact (Finset.card_filter_le _ _).trans_eq (Finset.card_range _)

theorem State.inqCount_allocated {s : State} (h : Table.sorted s.node = true) (nd : Node) :
    (s.allocated nd).inqCount = s.inqCount + nd.inq.toNat := by
  have hnew : s.nn ∉ s.queued := fun hm => by
    obtain ⟨md, hmd, -⟩ := State.mem_queued.1 hm
    exact Nat.lt_irrefl _ (State.nodeAt_lt hmd)
  have hq : (s.allocated nd).queued = if nd.inq then insert s.nn s.queued else s.queued := by
    ext i
    by_cases hi : i = s.nn
    · subst hi
      cases hq : nd.inq <;> simp [State.mem_queued, State.nodeAt_allocated, hq, hnew]
    · cases hq : nd.inq <;> simp [State.mem_queued, State.nodeAt_allocated, hi]
  rw [State.inqCount_eq (Table.sorted_set _ _ h), State.inqCount_eq h, hq]
  cases nd.inq
  · rfl
  · exact Finset.card_insert_of_notMem hnew

theorem State.inqCount_dequeue {s : State} (h : Table.sorted s.node = true) {i : Nat} {nd : Node}
    (hn : s.nodeAt i = some nd) (hq : nd.inq = true) : (s.setNode i (nd.setInq false)).inqCount + 1 = s.inqCount := by
  have herase : (s.setNode i (nd.setInq false)).queued = s.queued.erase i := by
    ext j
    by_cases hj : i = j
    · subst hj
      simp [State.mem_queued, State.nodeAt_setNode, State.nodeAt_lt hn]
    · simp [State.mem_queued, State.nodeAt_setNode, hj, Ne.symm hj]
  rw [State.inqCount_eq (Table.sorted_set _ _ h), State.inqCount_eq h, herase]
  exact Finset.card_erase_add_one (State.mem_queued.2 ⟨nd, hn, hq⟩)

/-- Where the structure is not empty it has a least node. -/
theorem minInq_of_inqCount {s : State} (h : Table.sorted s.node = true) (hpos : 0 < s.inqCount) :
    ∃ i nd, minInq s.nn s.node = some (i, nd) ∧ s.nodeAt i = some nd ∧ nd.inq = true := by
  rw [State.inqCount_eq h, Finset.card_pos] at hpos
  obtain ⟨j, hj⟩ := hpos
  obtain ⟨md, hmd, hq⟩ := State.mem_queued.1 hj
  cases hm : minInq s.nn s.node with
  | none =>
    have hmem := Table.get?_mem (State.nodeAt_get hmd)
    exact ((minInq_spec s.nn s.node).2 hm j md hmem (State.nodeAt_lt hmd) hq).elim
  | some p => exact ⟨p.1, p.2, rfl, nodeAt_of_minInq h hm⟩

/-! ### The built arena -/

section Built

variable {m q : Nat} {s t : State}

theorem Built.frame (h : Built m q s) (hnn : t.nn = s.nn) (hnode : ∀ i, t.nodeAt i = s.nodeAt i) : Built m q t where
  few := h.few
  count := hnn ▸ h.count
  entry i hi := by rw [hnode]; exact h.entry i (hnn ▸ hi)

theorem Built.of_nn_zero (hn : s.nn = 0) (hq : s.qn = 0) : Built s.nn s.qn s where
  few := by omega
  count := by omega
  entry _ hi := by omega

theorem Node.kindBit_setInq (nd : Node) (q : Bool) : (nd.setInq q).kindBit = nd.kindBit := by cases nd <;> rfl

theorem Node.builtAt_inner {i w : Nat} {l r : Option Nat} {q : Bool} :
    (Node.inner w l r q).builtAt i ↔ ∃ a b, l = some a ∧ r = some b ∧ a < i ∧ b < i := by
  cases l <;> cases r <;> simp [Node.builtAt]

theorem Node.builtAt_setInq {i : Nat} (nd : Node) (q : Bool) : (nd.setInq q).builtAt i ↔ nd.builtAt i := by
  cases nd with
  | leaf sym w q' => exact Iff.rfl
  | inner w l r q' => exact Node.builtAt_inner.trans Node.builtAt_inner.symm

theorem Built.setInq (h : Built m q s) {i : Nat} {nd : Node} (hn : s.nodeAt i = some nd) (b : Bool) :
    Built m q (s.setNode i (nd.setInq b)) where
  few := h.few
  count := h.count
  entry j hj := by
    obtain ⟨md, hmd, hkind, hbuilt⟩ := h.entry j hj
    rw [State.nodeAt_setNode]
    split
    next hij =>
      obtain ⟨rfl, -⟩ := hij
      obtain rfl : nd = md := Option.some.inj (hn.symm.trans hmd)
      exact ⟨_, rfl, (nd.kindBit_setInq b).trans hkind, (nd.builtAt_setInq b).2 hbuilt⟩
    next => exact ⟨md, hmd, hkind, hbuilt⟩

/-- While there are leaves only, another one may be added. -/
theorem Built.addLeaf (h : Built s.nn q s) (hroom : s.nn < 257) {sym : Sym} (hsym : sym.toNat ≤ 256) (w : Nat)
    (b : Bool) : Built (s.nn + 1) (q + 1) (s.allocated (.leaf sym w b)) where
  few := hroom
  count := by
    have hc := h.count
    show s.nn + 1 + (q + 1) = _
    omega
  entry i hi := by
    rw [State.nodeAt_allocated]
    split
    next heq => exact ⟨_, rfl, by simp [Node.kindBit, heq], hsym⟩
    next hne =>
      have hlt : i < s.nn := by have : i < s.nn + 1 := hi; omega
      obtain ⟨nd, hnd, hkind, hbuilt⟩ := h.entry i hlt
      exact ⟨nd, hnd, by simp [hkind, hlt, Nat.lt_succ_of_lt hlt], hbuilt⟩

/-- A new node over two without a parent. -/
theorem Built.addInner (h : Built m (q + 1) s) (hm : m ≤ s.nn) {a b : Nat} (ha : a < s.nn) (hb : b < s.nn) (w : Nat)
    (c : Bool) : Built m q (s.allocated (.inner w (some a) (some b) c)) where
  few := h.few
  count := by
    have hc := h.count
    show s.nn + 1 + q = _
    omega
  entry i hi := by
    rw [State.nodeAt_allocated]
    split
    next heq => subst heq; exact ⟨_, rfl, by simpa [Node.kindBit] using hm, ha, hb⟩
    next hne => exact h.entry i (by have : i < s.nn + 1 := hi; omega)

end Built

/-! ### The stack, entry by entry -/

/-- Every live entry holds a value that `P` allows in its place. -/
def State.liveStack (s : State) (P : Nat → StkEntry → Prop) : Prop :=
  ∀ p, p < s.sp → ∃ e, Table.get? s.stk p = some e ∧ P p e

theorem State.top_of_pos {s : State} (h : 0 < s.sp) : s.top = Table.get? s.stk (s.sp - 1) := by
  unfold State.top
  split
  next h0 => omega
  next p hp => rw [hp]; rfl

section LiveStack

variable {s : State} {P : Nat → StkEntry → Prop}

theorem State.liveStack_of_sp_zero (h : s.sp = 0) : s.liveStack P := fun _ hp => absurd (h ▸ hp) (Nat.not_lt_zero _)

theorem State.liveStack.top (h : s.liveStack P) (hsp : 0 < s.sp) : ∃ e, s.top = some e ∧ P (s.sp - 1) e := by
  obtain ⟨e, he, hP⟩ := h (s.sp - 1) (by omega)
  exact ⟨e, (State.top_of_pos hsp).trans he, hP⟩

theorem State.liveStack.popped (h : s.liveStack P) : State.liveStack { s with sp := s.sp - 1 } P :=
  fun p hp => h p (hp.trans_le (Nat.sub_le _ _))

theorem State.liveStack.pushed (h : s.liveStack P) {e : StkEntry} (he : P s.sp e) : (s.pushed e).liveStack P := by
  intro p hp
  have hlt : p < s.sp + 1 := hp
  by_cases hps : s.sp = p
  · exact ⟨e, by simp [State.pushed, hps], hps ▸ he⟩
  · obtain ⟨f, hf, hP⟩ := h p (by omega)
    exact ⟨f, (Table.get?_set_ne s.stk e hps).trans hf, hP⟩

end LiveStack

/-- An entry of `deriveStack`, at place `p` over `nn` nodes. -/
def DeriveEntry (m nn p : Nat) (e : StkEntry) : Prop :=
  ∃ n c, e = { n := some n, code := some c } ∧ n < nn ∧ p ≤ c.len ∧ c.len + (n + 1 - m) ≤ Config.maxLen ∧
    c.bits.toNat < 2 ^ c.len

theorem deriveStack_iff {m : Nat} {s : State} : deriveStack m s ↔ s.liveStack (DeriveEntry m s.nn) := by
  refine forall₂_congr fun p _ => ⟨fun ⟨n, c, hget, h⟩ => ⟨_, hget, n, c, rfl, h⟩, fun ⟨e, hget, n, c, he, h⟩ => ?_⟩
  exact ⟨n, c, he ▸ hget, h⟩

/-- An entry of `serStack`, at place `p` over `nn` nodes. -/
def SerEntry (m nn p : Nat) (e : StkEntry) : Prop :=
  ∃ n c, e = { n := some n, code := c } ∧ n < nn ∧ p + (n + 1 - m) ≤ Config.maxLen

theorem serStack_iff {m : Nat} {s : State} : serStack m s ↔ s.liveStack (SerEntry m s.nn) := by
  refine forall₂_congr fun p _ => ⟨fun ⟨n, c, hget, h⟩ => ⟨_, hget, n, c, rfl, h⟩, fun ⟨e, hget, n, c, he, h⟩ => ?_⟩
  exact ⟨n, c, he ▸ hget, h⟩

/-! ### P_COUNT -/

section Counting

variable {s : State}

theorem Params.lt_of_not_full {p : Params} {v w : Nat} (hf : ¬ p.isFull v = true) (hw : p.cntW = some w)
    (hv : v < 2 ^ w) : v + 1 < 2 ^ w := by
  simp only [Params.isFull, hw, beq_iff_eq] at hf
  omega

theorem keeps_cntByte (h : s.Midway) (hi : phaseInv s) (hp : s.phase = .count) : Keeps (execCntByte s) := by
  rw [phaseInv, hp] at hi
  refine keeps_memRead h (fun v inp ans hv ht => ?_) fun _ _ => trivial
  dsimp only
  split
  · exact keeps_raise ht (by decide) 0
  next hfull =>
    refine (ht.setFreq (hv.trans (by decide)) fun w hw => ?_).stay .count hp (by decide) hi
    exact Params.lt_of_not_full hfull hw (ht.stalled.counts w v hw)

theorem keeps_cntEnd (h : s.Midway) (hi : phaseInv s) (hp : s.phase = .count) : Keeps (execCntEnd s) := by
  rw [phaseInv, hp] at hi
  obtain ⟨hnn, hqn, hscan, hsp⟩ := hi
  refine keeps_memRead h (fun _ _ _ _ _ => trivial) fun ans ht => ?_
  have hone : ∀ w, s.par.cntW = some w → 1 < 2 ^ w := fun w hw =>
    Nat.one_lt_two_pow fun hw0 => h.stalled.cntPos (hw.trans (congrArg some hw0))
  refine keeps_rewind (ht.setFreq (by decide) hone) fun inp ans hu => ?_
  refine hu.enter .leaves (by decide)
    ⟨Built.of_nn_zero hnn hqn, ?_, hnn.le.trans (Nat.zero_le _), hsp, ?_, fun hs => ?_⟩
  · have hle := State.inqCount_le hu.sorted
    exact Nat.le_antisymm (hle.trans (hnn.le.trans (Nat.zero_le _))) (hqn.le.trans (Nat.zero_le _))
  · show 0 < (State.setFreq { s with answers := ans } Config.eod 1).freqAt Config.eod
    rw [State.freqAt_setFreq _ one_ne_zero, if_pos rfl]
    exact Nat.one_pos
  · exact absurd (hscan.symm.trans hs) (by decide)

end Counting

/-! ### P_LEAVES and P_MERGE -/

section Building

variable {s : State}

theorem keeps_pqLeaf (h : s.Midway) (hi : phaseInv s) (hrow : s.rowOf .pqLeaf) : Keeps (execPqLeaf s) := by
  obtain ⟨hp, hscan⟩ := hrow
  rw [phaseInv, hp] at hi
  obtain ⟨hbuilt, hcount, hle, hsp, heod, hlast⟩ := hi
  have hsorted := h.sorted
  have hqn : s.qn = s.nn := by have := hbuilt.count; omega
  unfold execPqLeaf
  rw [if_pos (Nat.lt_succ_of_le hscan)]
  split
  · refine keeps_alloc (by omega) ?_
    have hsym : (BitVec.ofNat 9 s.scan).toNat ≤ 256 := by simp; omega
    have hadd := hbuilt.addLeaf (by omega) hsym (s.freqAt s.scan) true
    refine (((h.allocated (by omega) _).withQn (q := s.qn + 1) (by omega)).withScan (n := s.scan + 1) (by omega)).stay
      .leaves hp (by decide)
      ⟨hadd.frame rfl fun _ => rfl, ?_, Nat.succ_le_succ hle, hsp, heod, fun _ => Nat.succ_pos _⟩
    exact (State.inqCount_allocated hsorted _).trans (congrArg Nat.succ hcount)
  next hzero =>
    refine (h.withScan (n := s.scan + 1) (by omega)).stay .leaves hp (by decide)
      ⟨hbuilt.frame rfl fun _ => rfl, hcount, hle.trans (Nat.le_succ _), hsp, heod, fun hs => ?_⟩
    have h256 : s.scan = Config.eod := Nat.succ.inj hs
    exact absurd (h256.symm ▸ heod) hzero

theorem keeps_pqScanEnd (h : s.Midway) (hi : phaseInv s) (hrow : s.rowOf .pqScanEnd) : Keeps (execPqScanEnd s) := by
  obtain ⟨hp, hscan⟩ := hrow
  rw [phaseInv, hp] at hi
  obtain ⟨hbuilt, hcount, hle, hsp, heod, hlast⟩ := hi
  have hqn : 0 < s.qn := by have := hbuilt.count; have := hlast hscan; omega
  exact h.enter .merge (by decide) ⟨⟨_, hbuilt.frame rfl fun _ => rfl⟩, hcount, hqn, hsp⟩

/-- The state that `removeMin` goes on with. -/
def State.dequeued (s : State) (i : Nat) (nd : Node) : State :=
  { s.setNode i (nd.setInq false) with qn := s.qn - 1 }

/-- `removeMin` finds a node in a structure that is not empty, and takes it out (R112). -/
theorem keeps_removeMin {m b : Nat} {k : Nat → Node → State → Result} (h : s.Midway) (hbuilt : Built m b s)
    (hcount : s.inqCount = s.qn) (hqn : 0 < s.qn)
    (hk : ∀ i nd, i < s.nn → (s.dequeued i nd).Midway → Built m b (s.dequeued i nd) →
      (s.dequeued i nd).inqCount = s.qn - 1 → Keeps (k i nd (s.dequeued i nd))) : Keeps (removeMin s k) := by
  have hsorted := h.sorted
  obtain ⟨i, nd, hmin, hn, hq⟩ := minInq_of_inqCount hsorted (hcount ▸ hqn)
  have hlt := State.nodeAt_lt hn
  rw [removeMin_ok k hqn hmin]
  refine hk i nd hlt ((h.setNode (hlt.trans_le h.nnLe) _).withQn ((Nat.sub_le _ _).trans h.stalled.qnLe))
    ((hbuilt.setInq hn false).frame rfl fun _ => rfl) ?_
  have hd : (s.dequeued i nd).inqCount + 1 = s.inqCount := State.inqCount_dequeue hsorted hn hq
  omega

theorem keeps_pqMerge (h : s.Midway) (hi : phaseInv s) (hrow : s.rowOf .pqMerge) : Keeps (execPqMerge s) := by
  obtain ⟨hp, hqn⟩ := hrow
  rw [phaseInv, hp] at hi
  obtain ⟨⟨m, hbuilt⟩, hcount, -, hsp⟩ := hi
  have hc := hbuilt.count
  have hfew : m ≤ 257 := hbuilt.few
  have hqnn : s.qn ≤ s.nn := hcount ▸ State.inqCount_le h.sorted
  refine keeps_removeMin h hbuilt hcount (by omega) fun a na ha ht hbt hct => ?_
  refine keeps_removeMin ht hbt hct (Nat.sub_pos_of_lt hqn) fun b nb hb hu hbu hcu => ?_
  have hroom : s.nn < 513 := by omega
  refine keeps_alloc hroom ?_
  have hq : s.qn = s.qn - 1 - 1 + 1 + 1 := by omega
  rw [hq] at hbu
  have hinq := State.inqCount_allocated hu.sorted
    (.inner (na.wgt + nb.wgt) (some a) (some b) true)
  have hle : s.qn - 1 - 1 + 1 ≤ 257 := by have : s.qn ≤ 257 := h.stalled.qnLe; omega
  refine ((hu.allocated hroom _).withQn hle).stay .merge hp (by decide)
    ⟨⟨m, (hbu.addInner (by show m ≤ s.nn; omega) ha hb _ true).frame rfl fun _ => rfl⟩, ?_, Nat.succ_pos _, hsp⟩
  exact hinq.trans (congrArg Nat.succ hcu)

theorem keeps_pqWrap (h : s.Midway) (hi : phaseInv s) (hrow : s.rowOf .pqWrap) : Keeps (execPqWrap s) := by
  obtain ⟨hp, hqn, hnn⟩ := hrow
  rw [phaseInv, hp] at hi
  obtain ⟨⟨m, hbuilt⟩, hcount, hpos, hsp⟩ := hi
  obtain rfl : m = s.nn := by have := hbuilt.count; omega
  have hsorted := h.sorted
  obtain ⟨i, nd, -, hn, hq⟩ := minInq_of_inqCount hsorted (hcount ▸ hpos)
  obtain rfl : i = 0 := by have := State.nodeAt_lt hn; omega
  refine keeps_withNode rfl hn ?_
  let t := s.setNode 0 (nd.setInq false)
  let u := t.allocated (.leaf Config.placeholderSym 0 false)
  suffices State.Inv (u.allocated (.inner (nd.wgt + 0) (some 0) (some 1) true)) by
    simpa [t, u, State.allocated, State.setNode, hnn] using this
  have ht : t.Midway := h.setNode (by decide) _
  have hu : u.Midway := ht.allocated (by show s.nn < 513; omega) _
  have hbu : Built (s.nn + 1) (s.qn + 1) u :=
    Built.addLeaf (s := t) (hbuilt.setInq hn false) (by show s.nn < 257; omega) (sym := Config.placeholderSym)
      (by decide) 0 false
  have hv : Built (s.nn + 1) s.qn (u.allocated (.inner (nd.wgt + 0) (some 0) (some 1) true)) :=
    hbu.addInner le_rfl (Nat.succ_pos _) (by show 1 < s.nn + 1; omega) _ true
  have ht1 : t.inqCount + 1 = s.inqCount := State.inqCount_dequeue hsorted hn hq
  have hu1 : u.inqCount = t.inqCount := State.inqCount_allocated ht.sorted _
  have hv1 := State.inqCount_allocated hu.sorted
    (.inner (nd.wgt + 0) (some 0) (some 1) true)
  refine (hu.allocated (by show s.nn + 1 < 513; omega) _).stay .merge hp (by decide)
    ⟨⟨_, hv.frame rfl fun _ => rfl⟩, ?_, hpos, hsp⟩
  exact hv1.trans ((congrArg Nat.succ hu1).trans (ht1.trans hcount))

theorem keeps_pqRoot (h : s.Midway) (hi : phaseInv s) (hrow : s.rowOf .pqRoot) : Keeps (execPqRoot s) := by
  obtain ⟨hp, hqn, -⟩ := hrow
  rw [phaseInv, hp] at hi
  obtain ⟨⟨m, hbuilt⟩, hcount, hpos, hsp⟩ := hi
  refine keeps_removeMin h hbuilt hcount hpos fun r nd hr ht hbt _ => ?_
  have hroot := ht.withRoot (hr.trans_le h.nnLe)
  refine keeps_push (hsp.trans_lt (by decide)) ?_
  have hq : s.qn - 1 = 0 := by omega
  have hc := hbuilt.count
  have hfew : m ≤ 257 := hbuilt.few
  refine (hroot.pushed (hsp.trans_lt (by decide)) _).enter .derive (by decide)
    ⟨hq, ⟨r, rfl, hr⟩, m, (hqn ▸ hbt).frame rfl fun _ => rfl, ?_⟩
  refine deriveStack_iff.2 (State.liveStack.pushed (s := { s.dequeued r nd with root := some r })
    (State.liveStack_of_sp_zero hsp) ⟨r, Code.empty, rfl, hr, hsp.le, ?_, by decide⟩)
  show 0 + (r + 1 - m) ≤ 256
  omega

end Building

end Sys2Proof.Machine
end

section
/-! ## PROOFS: the invariant from P_DERIVE to P_CLOSE (spec/42_code_table.md R126, R128, spec/43_tree_codec.md R135,
R139) -/

namespace Sys2Proof.Machine

variable {s : State}

/-- The code of a child takes one bit more. -/
theorem Code.descend_lt {c : Code} (h : c.bits.toNat < 2 ^ c.len) (right : Bool) :
    (c.descend right).bits.toNat < 2 ^ (c.descend right).len := by
  show ((c.bits <<< 1) ||| (if right then 1 else 0)).toNat < 2 ^ (c.len + 1)
  rw [BitVec.toNat_or]
  refine Nat.or_lt_two_pow ?_ ?_
  · rw [BitVec.toNat_shiftLeft]
    refine (Nat.mod_le _ _).trans_lt ?_
    rw [Nat.shiftLeft_eq, Nat.pow_succ]
    omega
  · refine (?_ : _ ≤ 1).trans_lt (Nat.one_lt_two_pow (Nat.succ_ne_zero _))
    cases right <;> decide

/-- A child lies below its parent, so its code may be one bit longer. -/
theorem DeriveEntry.child {m nn p n a : Nat} {c : Code} (hn : n < nn) (ha : a < n) (hm : m ≤ n) (hp : p ≤ c.len + 1)
    (hroom : c.len + (n + 1 - m) ≤ 256) (hbits : c.bits.toNat < 2 ^ c.len) (right : Bool) :
    DeriveEntry m nn p { n := some a, code := some (c.descend right) } := by
  refine ⟨a, _, rfl, ha.trans hn, hp, ?_, Code.descend_lt hbits right⟩
  show c.len + 1 + (a + 1 - m) ≤ 256
  omega

theorem keeps_tblStep (h : s.Midway) (hi : phaseInv s) (hrow : s.rowOf .tblStep) : Keeps (execTblStep s) := by
  obtain ⟨hp, hsp⟩ := hrow
  rw [phaseInv, hp] at hi
  obtain ⟨hqn, hroot, m, hbuilt, hstack⟩ := hi
  have hlive := deriveStack_iff.1 hstack
  obtain ⟨e, htop, n, c, rfl, hn, hplace, hroom, hbits⟩ := hlive.top hsp
  have hroom : c.len + (n + 1 - m) ≤ 256 := hroom
  obtain ⟨nd, hnd, hkind, hchild⟩ := hbuilt.entry n hn
  have hpop : State.Midway { s with sp := s.sp - 1 } := h.withSp (Nat.sub_le _ _)
  refine keeps_pop htop (keeps_withNode rfl hnd ?_)
  cases nd with
  | leaf sym w q =>
    have hsym : sym.toNat < 257 := Nat.lt_succ_of_le hchild
    dsimp only
    rw [if_pos hsym]
    exact (hpop.setCode hsym (by omega) hbits).stay .derive hp (by decide)
      ⟨hqn, hroot, m, hbuilt.frame rfl fun _ => rfl, deriveStack_iff.2 hlive.popped⟩
  | inner w l r q =>
    obtain ⟨a, b, rfl, rfl, ha, hb⟩ := Node.builtAt_inner.1 hchild
    have hm : m ≤ n := by simpa [Node.kindBit] using hkind
    have hlen : c.len < 256 := by omega
    dsimp only
    rw [if_pos hlen]
    refine keeps_push (by show s.sp - 1 < 513; omega) (keeps_push (by show s.sp - 1 + 1 < 513; omega) ?_)
    have hright := hlive.popped.pushed (DeriveEntry.child hn hb hm (by show s.sp - 1 ≤ _; omega) hroom hbits true)
    have hleft := hright.pushed (DeriveEntry.child hn ha hm (by show s.sp - 1 + 1 ≤ _; omega) hroom hbits false)
    exact ((hpop.pushed (by show s.sp - 1 < 513; omega) _).pushed (by show s.sp - 1 + 1 < 513; omega) _).stay .derive hp
      (by decide) ⟨hqn, hroot, m, hbuilt.frame rfl fun _ => rfl, deriveStack_iff.2 hleft⟩

theorem keeps_tblEnd (h : s.Midway) (hi : phaseInv s) (hrow : s.rowOf .tblEnd) : Keeps (execTblEnd s) := by
  obtain ⟨hp, hsp⟩ := hrow
  rw [phaseInv, hp] at hi
  obtain ⟨hqn, hroot, m, hbuilt, -⟩ := hi
  exact h.enter .wmagic (by decide) ⟨hqn, hsp, hroot, m, hbuilt.frame rfl fun _ => rfl⟩

theorem keeps_wrMagic (h : s.Midway) (hi : phaseInv s) (hp : s.phase = .wmagic) : Keeps (execWrMagic s) := by
  rw [phaseInv, hp] at hi
  obtain ⟨hqn, hsp, ⟨r, hroot, hr⟩, m, hbuilt⟩ := hi
  have hc := hbuilt.count
  have hfew : m ≤ 257 := hbuilt.few
  refine keeps_memWrite h fun out ans ht => keeps_push (hsp.trans_lt (by decide)) ?_
  refine (ht.pushed (hsp.trans_lt (by decide)) _).enter .ser (by decide)
    ⟨hqn, m, hbuilt.frame rfl fun _ => rfl, serStack_iff.2 ?_⟩
  refine State.liveStack.pushed (s := { s with out := out, answers := ans }) (State.liveStack_of_sp_zero hsp)
    ⟨r, none, by rw [← hroot], hr, ?_⟩
  show s.sp + (r + 1 - m) ≤ 256
  omega

theorem SerEntry.child {m nn p n a : Nat} {c : Option Code} (hn : n < nn) (ha : a < n) (hm : m ≤ n)
    (hroom : p + (n - m) ≤ 256) : SerEntry m nn p { n := some a, code := c } := by
  refine ⟨a, c, rfl, ha.trans hn, ?_⟩
  show p + (a + 1 - m) ≤ 256
  omega

theorem keeps_serInt (h : s.Midway) (hi : phaseInv s) (hrow : s.rowOf .serInt) : Keeps (execSerInt s) := by
  obtain ⟨hp, hsp⟩ := hrow
  rw [phaseInv, hp] at hi
  obtain ⟨hqn, m, hbuilt, hstack⟩ := hi
  have hlive := serStack_iff.1 hstack
  obtain ⟨e, htop, n, c, rfl, hn, hroom⟩ := hlive.top hsp
  have hroom : s.sp - 1 + (n + 1 - m) ≤ 256 := hroom
  obtain ⟨nd, hnd, hkind, hchild⟩ := hbuilt.entry n hn
  have hpop : State.Midway { s with sp := s.sp - 1 } := h.withSp (Nat.sub_le _ _)
  refine keeps_pop htop (keeps_withNode rfl hnd ?_)
  cases nd with
  | leaf => trivial
  | inner w l r q =>
    obtain ⟨a, b, rfl, rfl, ha, hb⟩ := Node.builtAt_inner.1 hchild
    have hm : m ≤ n := by simpa [Node.kindBit] using hkind
    refine keeps_memWrite hpop fun out ans ht => ?_
    refine keeps_push (by show s.sp - 1 < 513; omega) (keeps_push (by show s.sp - 1 + 1 < 513; omega) ?_)
    have hbelow : State.liveStack { s with sp := s.sp - 1, out := out, answers := ans } (SerEntry m s.nn) :=
      hlive.popped
    have hright := hbelow.pushed (SerEntry.child (c := none) hn hb hm (by show s.sp - 1 + (n - m) ≤ 256; omega))
    have hleft := hright.pushed (SerEntry.child (c := none) hn ha hm (by show s.sp - 1 + 1 + (n - m) ≤ 256; omega))
    exact ((ht.pushed (by show s.sp - 1 < 513; omega) _).pushed (by show s.sp - 1 + 1 < 513; omega) _).stay .ser hp
      (by decide) ⟨hqn, m, hbuilt.frame rfl fun _ => rfl, serStack_iff.2 hleft⟩

theorem keeps_serLeaf (h : s.Midway) (hi : phaseInv s) (hrow : s.rowOf .serLeaf) : Keeps (execSerLeaf s) := by
  obtain ⟨hp, hsp⟩ := hrow
  rw [phaseInv, hp] at hi
  obtain ⟨hqn, m, hbuilt, hstack⟩ := hi
  have hlive := serStack_iff.1 hstack
  obtain ⟨e, htop, n, c, rfl, hn, -⟩ := hlive.top hsp
  obtain ⟨nd, hnd, -, -⟩ := hbuilt.entry n hn
  have hpop : State.Midway { s with sp := s.sp - 1 } := h.withSp (Nat.sub_le _ _)
  refine keeps_pop htop (keeps_withNode rfl hnd ?_)
  cases nd with
  | inner => trivial
  | leaf sym w q =>
    exact keeps_memWrite hpop fun out ans ht => keeps_memWrite ht fun out' ans' hu => hu.stay .ser hp (by decide)
      ⟨hqn, m, hbuilt.frame rfl fun _ => rfl, serStack_iff.2 hlive.popped⟩

theorem keeps_encByte (h : s.Midway) (hp : s.phase = .encode) : Keeps (execEncByte s) := by
  refine keeps_memRead h (fun v inp ans _ ht => ?_) fun _ _ => trivial
  dsimp only
  split
  · exact keeps_raise ht (by decide) 0
  · exact keeps_memWrite ht fun out ans' hu => hu.stay .encode hp (by decide) trivial

theorem keeps_encEod (h : s.Midway) : Keeps (execEncEod s) :=
  keeps_memRead h (fun _ _ _ _ _ => trivial) fun _ ht => keeps_memWrite ht fun _ _ hu =>
    hu.enter .close (by decide) trivial

theorem keeps_close (h : s.Midway) : Keeps (execClose s) :=
  keeps_closeOut h fun _ _ _ ht => ht.enter .done (by decide) trivial

end Sys2Proof.Machine
end

section
/-! ## PROOFS: the invariant from P_RMAGIC to P_DECODE (spec/43_tree_codec.md R140 to R145, spec/45_decompressor.md
R177) -/

namespace Sys2Proof.Machine

variable {s t : State}

theorem keeps_rdMagic (h : s.Midway) (hi : phaseInv s) (hp : s.phase = .rmagic) : Keeps (execRdMagic s) := by
  rw [phaseInv, hp] at hi
  obtain ⟨hnn, hsp⟩ := hi
  have hread {t : State} (hn : t.nn = 0) (h0 : t.sp = 0) : Reading t :=
    { entry := fun i hi => absurd (hn ▸ hi) (Nat.not_lt_zero _)
      spLe := h0.le.trans (Nat.zero_le _)
      root := fun hpos => absurd (hn ▸ hpos) (Nat.not_lt_zero _)
      stack := fun p hp => absurd (h0 ▸ hp) (Nat.not_lt_zero _)
      incomplete := fun i w l q hi => absurd (hn ▸ State.nodeAt_lt hi) (Nat.not_lt_zero _) }
  unfold execRdMagic checkMagic
  refine keeps_memRead h (fun m inp ans _ ht => ?_) fun ans ht => keeps_raise ht (by decide) 0
  dsimp only
  split
  · exact ht.enter .deser (by decide) (hread hnn hsp)
  · exact keeps_raise ht (by decide) 0

/-! ### A node joins the tree being read -/

theorem Node.readAt_mono {nd : Node} {n n' : Nat} (h : nd.readAt n) (hn : n ≤ n') : nd.readAt n' := by
  cases nd with
  | leaf => exact h
  | inner w l r q =>
    obtain ⟨hl, hr, hlr⟩ := h
    exact ⟨fun a ha => (hl a ha).trans_le hn, fun b hb => (hr b hb).trans_le hn, hlr⟩

/-- `Reading` while the node `n` has been attached, before it is pushed or the complete nodes are popped. -/
structure Joined (n : Nat) (t : State) : Prop where
  entry : ∀ i, i < t.nn → ∃ nd, t.nodeAt i = some nd ∧ nd.readAt t.nn
  spLt : t.sp < t.nn
  root : t.root = some 0
  stack : t.openStack
  incomplete : ∀ i w l q, t.nodeAt i = some (.inner w l none q) →
    i = n ∨ ∃ p c, p < t.sp ∧ Table.get? t.stk p = some { n := some i, code := c }

/-- An internal node that takes its first missing child (R140). -/
theorem readAt_takeChild {w n nn : Nat} {l r : Option Nat} {q : Bool} {nd : Node}
    (he : nd = if l = none then Node.inner w (some n) r q else Node.inner w l (some n) q)
    (h : (Node.inner w l r q).readAt nn) (hn : n < nn) : nd.kindBit = false ∧ nd.readAt nn := by
  obtain ⟨hl, hr, hlr⟩ := h
  split at he <;> subst he
  · exact ⟨rfl, fun a ha => by cases ha; exact hn, hr, fun h0 => by cases h0⟩
  next hne => exact ⟨rfl, hl, fun b hb => by cases hb; exact hn, fun h0 => absurd h0 hne⟩

/-- Of the older nodes at most incomplete ones change, and stay internal. -/
theorem Reading.joined {nd : Node} (hr : Reading s) (hnn : t.nn = s.nn + 1) (hsp : t.sp = s.sp) (hstk : t.stk = s.stk)
    (hroot : t.root = some 0) (hnew : t.nodeAt s.nn = some nd) (hnd : nd.readAt t.nn)
    (hold : ∀ i, i < s.nn → t.nodeAt i = s.nodeAt i ∨ ∃ w l q md, s.nodeAt i = some (.inner w l none q) ∧
      t.nodeAt i = some md ∧ md.kindBit = false ∧ md.readAt t.nn) : Joined s.nn t where
  entry i hi := by
    by_cases hin : i = s.nn
    · exact ⟨nd, hin ▸ hnew, hnd⟩
    · have hlt : i < s.nn := by omega
      rcases hold i hlt with he | ⟨-, -, -, md, -, he, -, hread⟩
      · obtain ⟨md, hmd, hread⟩ := hr.entry i hlt
        exact ⟨md, he.trans hmd, Node.readAt_mono hread (by omega)⟩
      · exact ⟨md, he, hread⟩
  spLt := by have := hr.spLe; omega
  root := hroot
  stack p hp := by
    obtain ⟨n, c, w, l, r, q, hget, hn, -⟩ := hr.stack p (hsp ▸ hp)
    rw [hstk]
    rcases hold n (State.nodeAt_lt hn) with he | ⟨-, -, -, md, -, he, hkind, -⟩
    · exact ⟨n, c, w, l, r, q, hget, he.trans hn⟩
    · cases md with
      | leaf => cases hkind
      | inner w' l' r' q' => exact ⟨n, c, w', l', r', q', hget, he⟩
  incomplete i w l q hi := by
    by_cases hin : i = s.nn
    · exact .inl hin
    · rw [hsp, hstk]
      have hlt : i < s.nn := by have := State.nodeAt_lt hi; omega
      rcases hold i hlt with he | ⟨w', l', q', -, hinc, -⟩
      · exact .inr (hr.incomplete i w l q (he ▸ hi))
      · exact .inr (hr.incomplete i w' l' q' hinc)

/-- The innermost open node is incomplete (R143). -/
theorem Reading.top (hr : Reading s) (hsp : 0 < s.sp) :
    ∃ p c w l q, s.top = some { n := some p, code := c } ∧ s.nodeAt p = some (.inner w l none q) := by
  obtain ⟨p, c, w, l, r, q, hget, hp, hinc⟩ := hr.stack (s.sp - 1) (by omega)
  obtain rfl := hinc (by omega)
  exact ⟨p, c, w, l, q, (State.top_of_pos hsp).trans hget, hp⟩

/-- The new node becomes the root, or a child of the innermost open node (R140). -/
theorem Reading.attach {k : State → Result} {nd : Node} (hr : Reading s) (h : s.Midway) (hroom : s.nn < 513)
    (hopen : s.nn = 0 ∨ 0 < s.sp) (hnd : nd.readAt (s.nn + 1))
    (hk : ∀ t, t.phase = s.phase → t.sp = s.sp → t.Midway → Joined s.nn t → t.nodeAt s.nn = some nd → Keeps (k t)) :
    Keeps (attach s.nn (s.allocated nd) k) := by
  have hnew : (s.allocated nd).nodeAt s.nn = some nd := by simp [State.nodeAt_allocated]
  have hold {i : Nat} (hi : i < s.nn) : (s.allocated nd).nodeAt i = s.nodeAt i := by
    rw [State.nodeAt_allocated, if_neg hi.ne]
  have hmid := h.allocated hroom nd
  have hopenTop : (s.allocated nd).openTop := by
    rcases Nat.eq_zero_or_pos s.sp with h0 | hpos
    · exact .inl h0
    · obtain ⟨p, c, w, l, q, htop, hp⟩ := hr.top hpos
      exact .inr ⟨p, c, w, l, none, q, htop, (hold (State.nodeAt_lt hp)).trans hp⟩
  obtain ⟨t, heq, ht, hcase⟩ := attach_ok (n := s.nn) (k := k) hopenTop
  have hphase : t.phase = s.phase := (congrArg State.phase ht :)
  have hnn : t.nn = s.nn + 1 := (congrArg State.nn ht :)
  have hsp : t.sp = s.sp := (congrArg State.sp ht :)
  have hstk : t.stk = s.stk := (congrArg State.stk ht :)
  rw [heq]
  rcases hcase with ⟨h0, hroot, hnode, hsame⟩ | ⟨p, c, w, l, r, q, htop, hp, hroot, hchild, ⟨md, hset⟩, hsame⟩
  · have hnn0 : s.nn = 0 := hopen.resolve_right (Nat.not_lt.2 h0.le)
    have htn := (hsame _).trans hnew
    refine hk t hphase hsp ?_ ?_ htn
    · rw [ht, hnode, hroot]
      exact hmid.withRoot hroom
    · exact hr.joined hnn hsp hstk (hroot.trans (congrArg some hnn0)) htn (hnn ▸ hnd) fun i hi =>
        .inl ((hsame i).trans (hold hi))
  · obtain ⟨p', c', w', l', q', htop', hp'⟩ := hr.top (State.top_pos htop).1
    obtain ⟨hpp, -⟩ := StkEntry.mk.inj (Option.some.inj (htop.symm.trans htop'))
    obtain rfl := Option.some.inj hpp
    have hlt : p < s.nn := State.nodeAt_lt hp'
    have htn := (hsame _ hlt.ne').trans hnew
    refine hk t hphase hsp ?_ ?_ htn
    · rw [ht, hset, hroot]
      exact hmid.setNode (hlt.trans hroom) md
    · refine hr.joined hnn hsp hstk (hroot.trans (hr.root (by omega))) htn (hnn ▸ hnd) fun i hi => ?_
      by_cases hip : i = p
      · subst hip
        obtain ⟨md, hmd, hread⟩ := hr.entry i hlt
        obtain rfl := Option.some.inj (hmd.symm.trans ((hold hlt).symm.trans hp))
        have htake := readAt_takeChild rfl (Node.readAt_mono hread (n' := t.nn) (by omega)) (n := s.nn) (by omega)
        exact .inr ⟨w', l', q', _, hp', hchild, htake⟩
      · exact .inl ((hsame i hip).trans (hold hi))

/-- The new internal node is pushed. -/
theorem Joined.pushed {n w : Nat} {l : Option Nat} {q : Bool} {c : Option Code} (h : Joined n t)
    (hn : t.nodeAt n = some (.inner w l none q)) : Reading (t.pushed { n := some n, code := c }) where
  entry := h.entry
  spLe := h.spLt
  root _ := h.root
  stack p hp := by
    have hlt : p < t.sp + 1 := hp
    by_cases hps : t.sp = p
    · exact ⟨n, c, w, l, none, q, by simp [State.pushed, hps], hn, fun _ => rfl⟩
    · obtain ⟨j, d, w', l', r', q', hget, hj⟩ := h.stack p (by omega)
      exact ⟨j, d, w', l', r', q', (Table.get?_set_ne _ _ hps).trans hget, hj, fun h0 =>
        absurd (Nat.succ.inj h0).symm hps⟩
  incomplete i w' l' q' hi := by
    rcases h.incomplete i w' l' q' hi with rfl | ⟨p, d, hp, hget⟩
    · exact ⟨t.sp, c, Nat.lt_succ_self _, by simp [State.pushed]⟩
    · exact ⟨p, d, Nat.lt_succ_of_lt hp, (Table.get?_set_ne _ _ hp.ne').trans hget⟩

/-- After a leaf the complete nodes on top are popped, and what stays on top is incomplete (R142). -/
theorem Joined.popped {n : Nat} {sym : Sym} {w : Nat} {b : Bool} {k : State → Result} (h : Joined n t)
    (hn : t.nodeAt n = some (.leaf sym w b))
    (hk : ∀ q, q ≤ t.sp → Reading { t with sp := q } → Keeps (k { t with sp := q })) :
    Keeps (popComplete t.sp t k) := by
  obtain ⟨q, hq, heq, hgone, htop⟩ := popComplete_ok t k t.sp h.stack
  rw [heq]
  refine hk q hq ⟨h.entry, hq.trans h.spLt.le, fun _ => h.root, fun p hp => ?_, fun i w' l' q' hi => ?_⟩
  · have hlt : p < q := hp
    obtain ⟨j, d, w', l', r', q', hget, hj⟩ := h.stack p (hlt.trans_le hq)
    refine ⟨j, d, w', l', r', q', hget, hj, fun hlast => ?_⟩
    have hlast : p + 1 = q := hlast
    obtain ⟨j', d', nd, hget', hj', hright⟩ := htop (by omega)
    rw [← hlast, Nat.add_sub_cancel, hget] at hget'
    cases hget'
    cases hj.symm.trans hj'
    exact hright
  · have hi : t.nodeAt i = some (.inner w' l' none q') := hi
    rcases h.incomplete i w' l' q' hi with rfl | ⟨p, d, hp, hget⟩
    · cases hn.symm.trans hi
    · refine ⟨p, d, ?_, hget⟩
      by_contra hge
      obtain ⟨j', d', nd, hget', hj', hright⟩ := hgone p (not_lt.1 hge) hp
      cases hget.symm.trans hget'
      cases hi.symm.trans hj'
      exact hright rfl

theorem keeps_desTag {k : Nat → State → Result} (h : s.Midway)
    (hk : ∀ v inp ans, s.nn < 513 → State.Midway { s with inp := inp, answers := ans } →
      Keeps (k v { s with inp := inp, answers := ans })) : Keeps (desTag s k) := by
  unfold desTag
  split
  · exact keeps_raise h (by decide) 0
  next hne =>
    have hroom : s.nn < 513 := h.nnLe.lt_of_ne hne
    exact keeps_memRead h (fun v inp ans _ ht => hk v inp ans hroom ht) fun _ ht => keeps_raise ht (by decide) 0

theorem Reading.withIn (h : Reading s) (inp : InChan) (ans : List Answer) :
    Reading { s with inp := inp, answers := ans } :=
  ⟨h.entry, h.spLe, h.root, h.stack, h.incomplete⟩

theorem keeps_desOpen (h : s.Midway) (hr : Reading s) (hp : s.phase = .deser) (hroom : s.nn < 513)
    (hopen : s.nn = 0 ∨ 0 < s.sp) : Keeps (desOpen s) := by
  have hnd : (Node.inner 0 none none false).readAt (s.nn + 1) := ⟨nofun, nofun, fun _ => rfl⟩
  refine keeps_alloc hroom (hr.attach h hroom hopen hnd fun t hphase hsp ht hj hn => ?_)
  have hlt : t.sp < 513 := hsp.trans_lt (hr.spLe.trans_lt hroom)
  have hread := hj.pushed (c := none) hn
  exact keeps_push hlt ((ht.pushed hlt _).stay .deser (hphase.trans hp) (by decide)
    ⟨hread.entry, hread.spLe, hread.root, hread.stack, hread.incomplete⟩)

theorem keeps_desSymbol (h : s.Midway) (hr : Reading s) (hp : s.phase = .deser) (hroom : s.nn < 513)
    (hopen : s.nn = 0 ∨ 0 < s.sp) : Keeps (desSymbol s) := by
  unfold desSymbol
  refine keeps_memRead h (fun v inp ans hv ht => ?_) fun _ ht => keeps_raise ht (by decide) 0
  dsimp only
  split
  · exact keeps_raise ht (by decide) 0
  next hsym =>
    have hnd : (Node.leaf (BitVec.ofNat 9 v) 0 false).readAt (s.nn + 1) := by
      show (BitVec.ofNat 9 v).toNat ≤ 256
      rw [BitVec.toNat_ofNat, Nat.mod_eq_of_lt hv]
      exact not_lt.1 hsym
    refine keeps_alloc hroom ((hr.withIn inp ans).attach ht hroom hopen hnd fun t hphase _ hu hj hn => ?_)
    refine hj.popped hn fun q hq hread => ?_
    exact (hu.withSp hq).stay .deser (hphase.trans hp) (by decide)
      ⟨hread.entry, hread.spLe, hread.root, hread.stack, hread.incomplete⟩

theorem keeps_desInt (h : s.Midway) (hi : phaseInv s) (hrow : s.rowOf .desInt) : Keeps (execDesInt s) := by
  obtain ⟨hp, hopen⟩ := hrow
  rw [phaseInv, hp] at hi
  refine keeps_desTag h fun b inp ans hroom ht => ?_
  split
  exacts [keeps_desOpen ht (Reading.withIn hi inp ans) hp hroom hopen, trivial]

theorem keeps_desLeaf (h : s.Midway) (hi : phaseInv s) (hrow : s.rowOf .desLeaf) : Keeps (execDesLeaf s) := by
  obtain ⟨hp, hopen⟩ := hrow
  rw [phaseInv, hp] at hi
  refine keeps_desTag h fun b inp ans hroom ht => ?_
  split
  exacts [keeps_desSymbol ht (Reading.withIn hi inp ans) hp hroom hopen, trivial]

/-- At the end of the header no node is open, so every internal node has both children (R143, R144). -/
theorem keeps_desEnd (h : s.Midway) (hi : phaseInv s) (hrow : s.rowOf .desEnd) : Keeps (execDesEnd s) := by
  obtain ⟨hp, hnn, hsp⟩ := hrow
  rw [phaseInv, hp] at hi
  have hr : Reading s := hi
  have hcomplete (i : Nat) (w : Nat) (l : Option Nat) (q : Bool) : s.nodeAt i ≠ some (.inner w l none q) := fun hn => by
    obtain ⟨p, -, hlt, -⟩ := hr.incomplete i w l q hn
    omega
  have hroot := hr.root hnn
  obtain ⟨nd, hnd, hread⟩ := hr.entry 0 hnn
  unfold execDesEnd
  refine keeps_withNode hroot hnd ?_
  cases nd with
  | leaf => exact keeps_raise h (by decide) 0
  | inner w l r q =>
    show State.Inv ({ s with cur := s.root }.enter .decode)
    refine (h.withCur h.stalled.rootLt).enter .decode (by decide)
      ⟨fun i hi => ?_, ⟨0, w, l, r, q, hroot, hnd⟩, ⟨0, w, l, r, q, hroot, hnd⟩⟩
    obtain ⟨md, hmd, hmread⟩ := hr.entry i hi
    refine ⟨md, hmd, hmread, fun hkind hright => ?_⟩
    cases md with
    | leaf => cases hkind
    | inner w' l' r' q' => exact hcomplete i w' l' q' ((show r' = none from hright) ▸ hmd)

/-! ### P_DECODE -/

/-- Of a node with both children, either one is allocated. -/
theorem Node.child_lt {nd : Node} {nn : Nat} (h : nd.readAt nn) (hkind : nd.kindBit = false) (hright : nd.right ≠ none)
    (b : Nat) : ∃ c, (if b = 0 then nd.left else nd.right) = some c ∧ c < nn := by
  cases nd with
  | leaf => cases hkind
  | inner w l r q =>
    obtain ⟨hl, hr, hlr⟩ := h
    have hleft : l ≠ none := fun h0 => hright (hlr h0)
    obtain ⟨a, rfl⟩ := Option.ne_none_iff_exists'.1 hleft
    obtain ⟨c, rfl⟩ := Option.ne_none_iff_exists'.1 (show r ≠ none from hright)
    split
    exacts [⟨a, rfl, hl a rfl⟩, ⟨c, rfl, hr c rfl⟩]

theorem keeps_decBit (h : s.Midway) (hi : phaseInv s) (hp : s.phase = .decode) : Keeps (execDecBit s) := by
  rw [phaseInv, hp] at hi
  obtain ⟨hentry, hroot, i, w, l, r, q, hcur, hn⟩ := hi
  unfold execDecBit walkBit
  refine keeps_memRead h (fun b inp ans _ ht => ?_) fun _ ht => keeps_raise ht (by decide) 0
  refine keeps_withNode hcur hn ?_
  obtain ⟨nd, hnd, hread, hright⟩ := hentry i (State.nodeAt_lt hn)
  obtain rfl := Option.some.inj (hn.symm.trans hnd)
  obtain ⟨c, hc, hlt⟩ := Node.child_lt hread rfl (hright rfl) b
  obtain ⟨md, hmd, -⟩ := hentry c hlt
  have hu := ht.withCur fun j hj => Option.some.inj (hc.symm.trans hj) ▸ hlt.trans_le h.nnLe
  unfold arrive
  refine keeps_withNode hc hmd ?_
  cases md with
  | inner w' l' r' q' => exact hu.stay .decode hp (by decide) ⟨hentry, hroot, c, w', l', r', q', hc, hmd⟩
  | leaf sym w' q' =>
    dsimp only
    split
    · exact hu.enter .close (by decide) trivial
    · refine keeps_memWrite hu fun out ans' hv => ?_
      exact (hv.withCur h.stalled.rootLt).stay .decode hp (by decide) ⟨hentry, hroot, hroot⟩

end Sys2Proof.Machine
end

section
/-! ## PROOFS: the invariant over every move, and no fault of the model (spec/10_state.md R11, R17) -/

namespace Sys2Proof.Machine

variable {s : State}

/-! ### Where tables and registers are cleared -/

/-- As a command start and a reset leave the tables and registers (R25, R196). -/
structure State.Cleared (s : State) : Prop where
  freq : s.freq = []
  code : s.code = []
  nn : s.nn = 0
  qn : s.qn = 0
  scan : s.scan = 0
  sp : s.sp = 0
  root : s.root = none
  cur : s.cur = none
  errcode : s.errcode = .eNone
  ioinfo : s.ioinfo = 0
  running : s.waiting = false

theorem State.Cleared.inv (h : s.Cleared) (hnode : Table.wf Config.nodeCap s.node = true)
    (hstk : Table.wf Config.stkCap s.stk = true) (hpos : s.inp.pos ≤ s.inp.len) (hcnt : s.par.cntW ≠ some 0)
    (hne : s.phase ≠ .fault) (hp : phaseInv s) : s.Inv where
  freqWf := by rw [h.freq]; rfl
  codeWf := by rw [h.code]; rfl
  nodeWf := hnode
  stkWf := hstk
  nnLe := h.nn.le.trans (Nat.zero_le _)
  qnLe := h.qn.le.trans (Nat.zero_le _)
  scanLe := h.scan.le.trans (Nat.zero_le _)
  spLe := h.sp.le.trans (Nat.zero_le _)
  rootLt i hi := by rw [h.root] at hi; cases hi
  curLt i hi := by rw [h.cur] at hi; cases hi
  posLe := hpos
  cntPos := hcnt
  counts w i _ := by
    rw [show s.freqAt i = 0 from congrArg (Table.getD · 0 i) h.freq]
    exact Nat.two_pow_pos w
  codes i := by
    rw [show s.codeAt i = Code.empty from congrArg (Table.getD · Code.empty i) h.code]
    decide
  errIff := ⟨fun hf => absurd hf hne, fun he => absurd h.errcode he⟩
  ioinfoZero _ := h.ioinfo
  waitBusy hw := absurd (h.running.symm.trans hw) Bool.false_ne_true
  here _ := hp

/-- Settles O47: the reset values are cleared tables and registers, and P_IDLE asks for no more. -/
theorem resetMeetsTheInvariant : Obligations.ResetMeetsTheInvariant := by
  obtain ⟨-, -, hnode, hstk⟩ := reset_tables_canonical
  exact State.Cleared.inv ⟨rfl, rfl, rfl, rfl, rfl, rfl, rfl, rfl, rfl, rfl, rfl⟩ hnode hstk le_rfl (by decide)
    (by decide) trivial

theorem State.Inv.hardReset (h : s.Inv) : (hardReset s).Inv :=
  State.Cleared.inv ⟨rfl, rfl, rfl, rfl, rfl, rfl, rfl, rfl, rfl, rfl, rfl⟩ rfl rfl h.posLe h.cntPos nofun trivial

/-! ### Commands and host moves -/

/-- No call is pending where the core is not busy. -/
theorem State.Inv.notWaiting (h : s.Inv) (hb : s.busy = false) : s.waiting = false :=
  Bool.eq_false_iff.2 fun hw => Bool.false_ne_true (hb.symm.trans (h.waitBusy hw))

theorem State.Inv.commandStart (h : s.Inv) (hb : s.busy = false) {p : Phase} (hne : p ≠ .fault)
    (hp : phaseInv (commandStart p s)) : (commandStart p s).Inv :=
  State.Cleared.inv ⟨rfl, rfl, rfl, rfl, rfl, rfl, rfl, rfl, rfl, rfl, h.notWaiting hb⟩ h.nodeWf h.stkWf h.posLe
    h.cntPos hne hp

/-- A change of PHASE, ERRCODE and IOINFO to a quiescent phase, made while the core is not busy. -/
theorem State.Inv.rest (h : s.Inv) (hb : s.busy = false) {p : Phase} {c : Cause} {info : Word}
    (herr : p = .fault ↔ c ≠ .eNone) (hinfo : p ≠ .fault → info = 0) (hp : p = .idle ∨ p = .fault) :
    State.Inv { s with phase := p, errcode := c, ioinfo := info } :=
  { h with
    errIff := herr
    ioinfoZero := hinfo
    waitBusy := fun hw => absurd ((h.notWaiting hb).symm.trans hw) Bool.false_ne_true
    here := fun _ => by rcases hp with rfl | rfl <;> trivial }

theorem keeps_command (h : s.Inv) (w : Word) : Keeps (exec (decodeCommand w) s) := by
  unfold decodeCommand
  split
  · exact ends_accept (fun _ => h) fun _ => h
  · exact ends_accept (fun _ => h) fun hb => h.commandStart hb (by decide) ⟨rfl, rfl, rfl, rfl⟩
  · exact ends_accept (fun _ => h) fun hb => h.commandStart hb (by decide) ⟨rfl, rfl⟩
  · exact ends_accept (fun _ => h) fun hb => h.rest hb (by decide) (fun _ => rfl) (.inl rfl)
  · exact ends_accept (fun _ => h) fun hb => h.rest hb (by decide) (fun hp => absurd rfl hp) (.inr rfl)

/-- The phases' parts do not speak of the channels, the moves still to come or the host's record. -/
theorem phaseInv_outside (h : phaseInv s) (inp : InChan) (out : OutChan) (ms : List Move) (saw : Option Word) :
    phaseInv { s with inp := inp, out := out, moves := ms, hostSaw := saw } := by
  unfold phaseInv at h ⊢
  cases hp : s.phase with
  | idle | done | fault | encode | close => trivial
  | count | rmagic => rw [hp] at h; exact h
  | leaves =>
    rw [hp] at h
    obtain ⟨hb, hrest⟩ := h
    exact ⟨hb.frame rfl fun _ => rfl, hrest⟩
  | merge =>
    rw [hp] at h
    obtain ⟨⟨m, hb⟩, hrest⟩ := h
    exact ⟨⟨m, hb.frame rfl fun _ => rfl⟩, hrest⟩
  | derive =>
    rw [hp] at h
    obtain ⟨hqn, hroot, m, hb, hstack⟩ := h
    exact ⟨hqn, hroot, m, hb.frame rfl fun _ => rfl, hstack⟩
  | wmagic =>
    rw [hp] at h
    obtain ⟨hqn, hsp, hroot, m, hb⟩ := h
    exact ⟨hqn, hsp, hroot, m, hb.frame rfl fun _ => rfl⟩
  | ser =>
    rw [hp] at h
    obtain ⟨hqn, m, hb, hstack⟩ := h
    exact ⟨hqn, m, hb.frame rfl fun _ => rfl, hstack⟩
  | deser => rw [hp] at h; exact ⟨h.entry, h.spLe, h.root, h.stack, h.incomplete⟩
  | decode => rw [hp] at h; exact ⟨h.entry, h.root, h.cur⟩

theorem State.Inv.outside (h : s.Inv) {inp : InChan} (hpos : inp.pos ≤ inp.len) (out : OutChan) (ms : List Move)
    (saw : Option Word) : State.Inv { s with inp := inp, out := out, moves := ms, hostSaw := saw } :=
  { h with posLe := hpos, here := fun hw => phaseInv_outside (h.here hw) inp out ms saw }

theorem keeps_onChannels {t : State} (h : t.Inv) : Keeps (onChannels s t) := by
  unfold onChannels
  split
  exacts [trivial, h]

/-! ### The core's turn -/

theorem State.busy_of_row {i : Instr} (h : s.rowOf i) : s.busy = true := by
  cases i <;> simp_all [State.rowOf, State.busy]

/-- The invariant leaves no phase without a row (R84, U14). -/
theorem State.Inv.not_rowless (h : s.Inv) (hw : s.waiting = false) : ¬ s.rowless := by
  have hi := h.here hw
  rintro (⟨hp, hscan⟩ | ⟨hp, hq⟩)
  · have hle : s.scan ≤ 257 := h.scanLe
    omega
  · rw [phaseInv, hp] at hi
    obtain ⟨⟨m, hbuilt⟩, -, hpos, -⟩ := hi
    have hc := hbuilt.count
    omega

theorem keeps_coreStep (hinv : s.Inv) : Keeps (coreStep s) := by
  refine ends_coreStep (fun _ => hinv) (fun i hw hrow => ?_) fun hw hno => hinv.not_rowless hw hno
  have h := hinv.midway hw (State.busy_of_row hrow)
  have hi := hinv.here hw
  cases i with
  | cntByte => exact keeps_cntByte h hi hrow
  | cntEnd => exact keeps_cntEnd h hi hrow
  | pqLeaf => exact keeps_pqLeaf h hi hrow
  | pqScanEnd => exact keeps_pqScanEnd h hi hrow
  | pqMerge => exact keeps_pqMerge h hi hrow
  | pqWrap => exact keeps_pqWrap h hi hrow
  | pqRoot => exact keeps_pqRoot h hi hrow
  | tblStep => exact keeps_tblStep h hi hrow
  | tblEnd => exact keeps_tblEnd h hi hrow
  | wrMagic => exact keeps_wrMagic h hi hrow
  | serInt => exact keeps_serInt h hi hrow
  | serLeaf => exact keeps_serLeaf h hi hrow
  | serEnd => exact h.enter .encode (by decide) trivial
  | encByte => exact keeps_encByte h hrow
  | encEod => exact keeps_encEod h
  | close => exact keeps_close h
  | rdMagic => exact keeps_rdMagic h hi hrow
  | desInt => exact keeps_desInt h hi hrow
  | desLeaf => exact keeps_desLeaf h hi hrow
  | desEnd => exact keeps_desEnd h hi hrow
  | decBit => exact keeps_decBit h hi hrow
  | magic | hdrInt | hdrLeaf | payBit | nop | compress | decompress | clear | cmdRsvd => exact hrow.elim

theorem keeps_makeMove (h : s.Inv) (m : Move) : Keeps (makeMove m s) := by
  cases m with
  | core => exact keeps_coreStep h
  | write r w =>
    cases r with
    | cmd => exact keeps_command h w
    | status => exact h
    | ioinfo => exact h
  | read r => exact h.outside h.posLe s.out s.moves _
  | reset => exact h.hardReset
  | attachIn bytes pos again =>
    exact keeps_onChannels (h.outside (inp := { bytes := bytes, pos := _, again := again }) (Nat.min_le_right _ _) s.out
      s.moves s.hostSaw)
  | attachOut => exact keeps_onChannels (h.outside h.posLe _ s.moves s.hostSaw)

/-- From a state that meets the invariant every step, whoever makes it, keeps it and is no fault of the model. -/
theorem keeps_step (h : s.Inv) : Keeps (step s) := by
  unfold step nextMove
  split
  · exact keeps_coreStep h
  · exact keeps_makeMove (h.outside h.posLe s.out _ s.hostSaw) _

/-- Settles O48: the instruction that the sequencer selects keeps the invariant from its phase's part to the next one's,
and the host's moves leave the tables alone or clear them. -/
theorem stepKeepsTheInvariant : Obligations.StepKeepsTheInvariant :=
  fun _ t h hstep => (ends_iff.1 (keeps_step h)).1 t hstep

/-- Settles O49: where an operation could fault, the phase's part of the invariant rules it out. -/
theorem noStepReadsAnUnwrittenEntry : Obligations.NoStepReadsAnUnwrittenEntry :=
  fun _ f h hstep => (ends_iff.1 (keeps_step h)).2 f hstep

end Sys2Proof.Machine
end

section
/-! ## PROOFS: bit order and the channel calls (spec/20_memory.md R41, R43, R44, R46) -/

namespace Sys2Proof

/-! ### Bit strings by position -/

theorem bitsOf_getElem? {n i : Nat} (v : Nat) (hi : i < n) : (bitsOf n v)[i]? = some (v.testBit (n - 1 - i)) := by
  induction n generalizing i with
  | zero => omega
  | succ n ih =>
    cases i with
    | zero => rfl
    | succ i =>
      rw [bitsOf, List.getElem?_cons_succ, ih (Nat.lt_of_succ_lt_succ hi)]
      congr 2
      omega

theorem streamBits_getElem? (bytes : List Byte) {pos n i : Nat} (hi : i < n) :
    (streamBits bytes pos n)[i]? = some (streamBit bytes (pos + i)) := by
  induction n generalizing pos i with
  | zero => omega
  | succ n ih =>
    cases i with
    | zero => rfl
    | succ i =>
      rw [streamBits, List.getElem?_cons_succ, ih (Nat.lt_of_succ_lt_succ hi)]
      congr 2
      omega

@[simp] theorem streamBit_cons_add_eight (b : Byte) (bytes : List Byte) (i : Nat) :
    streamBit (b :: bytes) (i + 8) = streamBit bytes i := by
  simp [streamBit]

theorem streamBit_cons_of_lt (b : Byte) (bytes : List Byte) {i : Nat} (hi : i < 8) :
    streamBit (b :: bytes) i = b.getLsbD (7 - i) := by
  simp [streamBit, Nat.div_eq_of_lt hi, Nat.mod_eq_of_lt hi]

theorem bitsOfBytes_getElem? {bytes : List Byte} {i : Nat} (hi : i < 8 * bytes.length) :
    (bitsOfBytes bytes)[i]? = some (streamBit bytes i) := by
  induction bytes generalizing i with
  | nil => cases hi
  | cons b bytes ih =>
    rw [bitsOfBytes]
    rcases Nat.lt_or_ge i 8 with h8 | h8
    · rw [List.getElem?_append_left (by simpa using h8), bitsOf_getElem? _ h8, streamBit_cons_of_lt b bytes h8]
      rfl
    · obtain ⟨j, rfl⟩ := Nat.exists_eq_add_of_le' h8
      rw [List.getElem?_append_right (by simp), bitsOf_length, Nat.add_sub_cancel, streamBit_cons_add_eight]
      exact ih (by rw [List.length_cons] at hi; omega)

theorem streamBits_eq_bitsOfBytes (bytes : List Byte) : streamBits bytes 0 (8 * bytes.length) = bitsOfBytes bytes := by
  refine List.ext_getElem? fun i => ?_
  rcases Nat.lt_or_ge i (8 * bytes.length) with hi | hi
  · rw [streamBits_getElem? bytes hi, bitsOfBytes_getElem? hi, Nat.zero_add]
  · rw [List.getElem?_eq_none (by simpa using hi), List.getElem?_eq_none (by simpa using hi)]

theorem bytesOfBits_bitsOf_append (b : Byte) (r : Bits) :
    bytesOfBits (bitsOf 8 b.toNat ++ r) = b :: bytesOfBits r :=
  congrArg (· :: bytesOfBits r) (Laws.EncodeDecodes.ofNat_valOf_bitsOf b)

theorem bytesOfBits_bitsOfBytes (bytes : List Byte) : bytesOfBits (bitsOfBytes bytes) = bytes := by
  induction bytes with
  | nil => rfl
  | cons b bytes ih => rw [bitsOfBytes, bytesOfBits_bitsOf_append, ih]

/-! ### A value in two parts -/

/-- A value's bits are its high bits and then its low bits (R46). -/
theorem bitsOf_add (k m v : Nat) : bitsOf (k + m) v = bitsOf k (v >>> m) ++ bitsOf m v := by
  induction k with
  | zero => rw [Nat.zero_add, bitsOf, List.nil_append]
  | succ k ih => rw [Nat.add_right_comm, bitsOf, ih, bitsOf, Nat.testBit_shiftRight, Nat.add_comm m k, List.cons_append]

@[simp] theorem bitsOf_mod (n v : Nat) : bitsOf n (v % 2 ^ n) = bitsOf n v :=
  bitsOf_congr fun i hi => by simp [Nat.testBit_mod_two_pow, hi]

theorem valOf_append (a b : Bits) : valOf (a ++ b) = valOf a * 2 ^ b.length + valOf b := by
  induction a with
  | nil => simp [valOf]
  | cons x a ih => rw [List.cons_append, valOf, valOf, ih, List.length_append, Nat.pow_add]; ring

/-- A 32-bit word is laid out with its most significant byte first (R41). -/
theorem bitsOf_word (m : Word) :
    bitsOf 32 m.toNat =
      bitsOfBytes [m.extractLsb' 24 8, m.extractLsb' 16 8, m.extractLsb' 8 8, m.extractLsb' 0 8] := by
  simp only [bitsOfBytes, BitVec.extractLsb'_toNat, bitsOf_mod, Nat.shiftRight_zero, List.append_nil]
  rw [bitsOf_add 8 24, bitsOf_add 8 16, bitsOf_add 8 8]

/-- Settles O16: each clause is a fact about bit strings by position, or about a value cut into bytes. -/
theorem streamBitOrder : Obligations.StreamBitOrder :=
  ⟨fun _ _ hi => ⟨bitsOfBytes_getElem? hi, rfl⟩, fun _ v _ hi => bitsOf_getElem? v hi,
    fun m => by rw [bitsOf_word, bytesOfBits_bitsOfBytes], streamBits_add,
    fun bytes => ⟨streamBits_eq_bitsOfBytes bytes, bytesOfBits_bitsOfBytes bytes⟩⟩

end Sys2Proof

namespace Sys2Proof.Machine

/-! ### Reads and writes -/

@[simp] theorem InChan.next_length (c : InChan) (n : Nat) : (c.next n).length = n := streamBits_length _ _ _

theorem InChan.valOf_next_lt (c : InChan) (n : Nat) : valOf (c.next n) < 2 ^ n := by
  simpa using valOf_lt (c.next n)

theorem InChan.bitsOf_valOf_next (c : InChan) (n : Nat) : bitsOf n (valOf (c.next n)) = c.next n := by
  simpa using bitsOf_valOf (c.next n)

/-- The value of `k + m` bits is that of the first `k` and then of the `m` after them (R46). -/
theorem InChan.valOf_next_add (c : InChan) (k m : Nat) :
    valOf (c.next (k + m)) = valOf (c.next k) * 2 ^ m + valOf (InChan.next { c with pos := c.pos + k } m) := by
  have hsplit : c.next (k + m) = c.next k ++ InChan.next { c with pos := c.pos + k } m := streamBits_add _ _ _ _
  rw [hsplit, valOf_append, InChan.next_length]

/-- Settles O17: a served read has the two outcomes of `memRead_bits` and `memRead_eos`. -/
theorem readBits : Obligations.ReadBits := fun n s k ha =>
  ⟨fun h => ⟨_, s.inp.valOf_next_lt n, s.inp.bitsOf_valOf_next n, memRead_bits k ha h⟩,
    fun h => memRead_eos k ha (Nat.not_le.2 h)⟩

/-- A write of `k + m` bits leaves OUT as two writes do. -/
theorem memWrite_split {s : State} (k m v : Nat) (hs : s.servesTwo) :
    ∃ t u, memWrite (k + m) v s (fun x => .next x) = .next t ∧
      memWrite k (v >>> m) s (fun x => memWrite m (v % 2 ^ m) x fun y => .next y) = .next u ∧ t.out = u.out := by
  obtain ⟨hfirst, hsecond⟩ := hs
  refine ⟨_, _, memWrite_ok _ hfirst, (memWrite_ok _ hfirst).trans (memWrite_ok _ hsecond), ?_⟩
  simp [State.append, bitsOf_add]

/-- A read of `k + m` bits gives the value of two reads, concatenated, and the same cursor. -/
theorem memRead_split {s : State} (k m : Nat) (hs : s.servesTwo) (h : s.inp.has (k + m)) :
    ∃ t u, memRead (k + m) s (fun got x => .next { x with scan := got.getD 0 }) = .next t ∧
      memRead k s (fun got x => memRead m x fun got' y =>
        .next { y with scan := got.getD 0 * 2 ^ m + got'.getD 0 }) = .next u ∧
      t.scan = u.scan ∧ t.inp = u.inp := by
  obtain ⟨hfirst, hsecond⟩ := hs
  have h : s.inp.pos + (k + m) ≤ s.inp.len := h
  have hk : s.inp.has k := by show s.inp.pos + k ≤ s.inp.len; omega
  have hm : (s.called.advance k).inp.has m := by show s.inp.pos + k + m ≤ s.inp.len; omega
  refine ⟨_, _, memRead_bits _ hfirst h, (memRead_bits _ hfirst hk).trans (memRead_bits _ hsecond hm),
    s.inp.valOf_next_add k m, ?_⟩
  simp [Nat.add_assoc]

/-- Settles O18: a write and a read of `k + (n - k)` bits, each in two parts. -/
theorem callBoundariesAreNotObservable : Obligations.CallBoundariesAreNotObservable := by
  intro n k s hk hs
  obtain ⟨m, rfl⟩ := Nat.exists_eq_add_of_le hk
  rw [Nat.add_sub_cancel_left]
  exact ⟨fun v => memWrite_split k m v hs, memRead_split k m hs⟩

end Sys2Proof.Machine
end

section
/-! ## PROOFS: calls that never return (spec/20_memory.md R50, spec/60_exceptions.md R223) -/

namespace Sys2Proof.Machine

variable {s : State}

/-! ### The first call of a step -/

theorem pop_node {k : StkEntry → State → Nat → Node → Result} {n : Nat} {c : Option Code} {nd : Node}
    (htop : s.top = some { n := some n, code := c }) (hn : s.nodeAt n = some nd) :
    (pop s fun e t => withNode e.n t (k e t)) = k { n := some n, code := c } { s with sp := s.sp - 1 } n nd :=
  (pop_ok _ htop).trans (withNode_ok _ hn)

theorem desTag_never (k : Nat → State → Result) (ha : s.answer = .never) (hnn : s.nn ≠ 513) :
    desTag s k = block s.called :=
  (if_neg hnn).trans (memRead_never _ ha)

theorem desTag_bit (k : Nat → State → Result) (ha : s.answer = .ok) (hnn : s.nn ≠ 513) (h : s.inp.has 1) :
    desTag s k = k (valOf (s.inp.next 1)) (s.called.advance 1) :=
  (if_neg hnn).trans (memRead_bits _ ha h)

theorem firstCall_blocks {i : Instr} (ha : s.answer = .never)
    (hi : i ∈ [Instr.cntByte, .cntEnd, .wrMagic, .encByte, .encEod, .close, .rdMagic, .decBit] ∨
      (i = .desInt ∨ i = .desLeaf) ∧ s.nn ≠ 513) : exec i s = block s.called := by
  rcases hi with hi | ⟨rfl | rfl, hnn⟩
  · simp only [List.mem_cons, List.not_mem_nil, or_false] at hi
    rcases hi with rfl | rfl | rfl | rfl | rfl | rfl | rfl | rfl
    exacts [show execCntByte s = _ from memRead_never _ ha, show execCntEnd s = _ from memRead_never _ ha,
      show execWrMagic s = _ from memWrite_never _ ha, show execEncByte s = _ from memRead_never _ ha,
      show execEncEod s = _ from memRead_never _ ha, show execClose s = _ from closeOut_never _ ha,
      show checkMagic s = _ from memRead_never _ ha, show walkBit s = _ from memRead_never _ ha]
  · exact show execDesInt s = _ from desTag_never _ ha hnn
  · exact show execDesLeaf s = _ from desTag_never _ ha hnn

/-- The serialiser pops before it writes. -/
theorem firstCall_blocks_ser {i : Instr} {n : Nat} {c : Option Code} {nd : Node} (ha : s.answer = .never)
    (htop : s.top = some { n := some n, code := c }) (hn : s.nodeAt n = some nd)
    (hi : i = .serInt ∧ nd.kindBit = false ∨ i = .serLeaf ∧ nd.kindBit = true) :
    exec i s = block { s.called with sp := s.sp - 1 } := by
  have hpopped : State.answer { s with sp := s.sp - 1 } = .never := ha
  rcases hi with ⟨rfl, hkind⟩ | ⟨rfl, hkind⟩
  · rw [exec, execSerInt, pop_node htop hn]
    cases nd with
    | leaf => cases hkind
    | inner w l r q => exact memWrite_never _ hpopped
  · rw [exec, execSerLeaf, pop_node htop hn]
    cases nd with
    | leaf sym w q => exact memWrite_never _ hpopped
    | inner => cases hkind

/-! ### The second call of a step -/

section SecondCall

variable (ha : s.answer = .ok) (hb : s.called.answer = .never)
include ha hb

theorem cntEnd_second_blocks (hend : ¬ s.inp.has 8) :
    exec .cntEnd s = block (s.called.setFreq 256 1).called := by
  rw [exec, execCntEnd, memRead_eos _ ha hend]
  exact rewind_never _ hb

theorem encEod_second_blocks (hend : ¬ s.inp.has 8) : exec .encEod s = block s.called.called := by
  rw [exec, execEncEod, memRead_eos _ ha hend]
  exact memWrite_never _ hb

theorem encByte_second_blocks (h : s.inp.has 8) (hcode : (s.codeAt (valOf (s.inp.next 8))).len ≠ 0) :
    exec .encByte s = block (s.called.advance 8).called := by
  rw [exec, execEncByte, memRead_bits _ ha h]
  exact (if_neg hcode).trans (memWrite_never _ hb)

theorem serLeaf_second_blocks {n : Nat} {c : Option Code} {sym : Sym} {w : Nat} {q : Bool}
    (htop : s.top = some { n := some n, code := c }) (hn : s.nodeAt n = some (.leaf sym w q)) :
    exec .serLeaf s = block (State.called { s.called.append [true] with sp := s.sp - 1 }) := by
  have hpopped : State.answer { s with sp := s.sp - 1 } = .ok := ha
  rw [exec, execSerLeaf, pop_node htop hn]
  exact (memWrite_ok _ hpopped).trans (memWrite_never (s := { s.called.append [true] with sp := s.sp - 1 }) _ hb)

theorem desLeaf_second_blocks (hnn : s.nn ≠ 513) (h : s.inp.has 1) (hbit : s.inp.next 1 = [true]) :
    exec .desLeaf s = block (s.called.advance 1).called := by
  rw [exec, execDesLeaf, desTag_bit _ ha hnn h, hbit]
  exact (if_pos rfl).trans (show desSymbol (s.called.advance 1) = _ from memRead_never _ hb)

/-- The walk has already arrived at the leaf when the write of its byte is pending. -/
theorem decBit_second_blocks {b : Bool} {c w l r m : Nat} {q : Bool} {sym : Sym} {w' : Nat} {q' : Bool}
    (h : s.inp.has 1) (hbit : s.inp.next 1 = [b]) (hcur : s.cur = some c)
    (hn : s.nodeAt c = some (.inner w (some l) (some r) q)) (hm : m = if b then r else l)
    (hleaf : s.nodeAt m = some (.leaf sym w' q')) (hsym : sym.toNat ≤ 255) :
    exec .decBit s = block (State.called { s.called.advance 1 with cur := some m }) := by
  have hchild : (if valOf [b] = 0 then some l else some r) = some m := by
    rw [hm]
    cases b <;> rfl
  have hlit : sym.toNat ≠ Config.eod := by show sym.toNat ≠ 256; omega
  have hn : (s.called.advance 1).nodeAt c = some (.inner w (some l) (some r) q) := hn
  have hleaf : State.nodeAt { s.called.advance 1 with cur := some m } m = some (.leaf sym w' q') := hleaf
  rw [exec, execDecBit, walkBit, memRead_bits _ ha h, hbit]
  dsimp only [State.advance_cur, State.called_cur]
  rw [hcur, withNode_ok _ hn]
  dsimp only [Node.left, Node.right]
  rw [hchild, arrive, withNode_ok _ hleaf]
  exact (if_neg hlit).trans (memWrite_never _ hb)

end SecondCall

/-! ### Only a reset ends the wait -/

/-- Where `r` goes on, the call is still pending. -/
abbrev Waits (r : Result) : Prop := Ends True (fun t => t.waiting = true) r

theorem waits_command (h : s.waiting = true) (w : Word) : Waits (exec (decodeCommand w) s) := by
  unfold decodeCommand
  split <;> exact ends_accept (fun _ => h) fun _ => h

theorem waits_onChannels {t : State} (h : t.waiting = true) : Waits (onChannels s t) := by
  unfold onChannels
  split
  exacts [trivial, h]

theorem waits_makeMove (h : s.waiting = true) {m : Move} (hm : m ≠ .reset) : Waits (makeMove m s) := by
  cases m with
  | core => rw [makeMove, coreStep_of_waiting h]; exact h
  | write r w =>
    cases r with
    | cmd => exact waits_command h w
    | status => exact h
    | ioinfo => exact h
  | read r => exact h
  | reset => exact absurd rfl hm
  | attachIn bytes pos again => exact waits_onChannels h
  | attachOut => exact waits_onChannels h

theorem step_of_waiting (hm : s.moves = []) (h : s.waiting = true) : step s = .next s := by
  rw [step, nextMove, hm]
  exact coreStep_of_waiting h

theorem reset_of_wait_ends {t : State} (h : s.waiting = true) (hstep : step s = .next t) (ht : t.waiting = false) :
    ∃ ms, s.moves = .reset :: ms := by
  cases hm : s.moves with
  | nil =>
    cases (step_of_waiting hm h).symm.trans hstep
    exact absurd ht (by simp [h])
  | cons m ms =>
    by_contra hne
    have hreset : m ≠ .reset := fun hr => hne ⟨ms, by rw [hr]⟩
    rw [step_of_moves hm] at hstep
    have hwaits : t.waiting = true :=
      (ends_iff.1 (waits_makeMove (s := { s with moves := ms }) h hreset)).1 t hstep
    exact absurd ht (by simp [hwaits])

/-- Settles O41: the first part is `firstCall_blocks`, the second call of each step has its own rule, and no move but a
reset clears `waiting`. -/
theorem blockedCallWaits : Obligations.BlockedCallWaits := by
  refine ⟨fun s i => firstCall_blocks, fun s i n c nd => firstCall_blocks_ser, fun s ha hb => ?_,
    fun s h hm => step_of_waiting hm h, fun s t => reset_of_wait_ends⟩
  refine ⟨fun hend => ?_, encByte_second_blocks ha hb, fun n c sym w q => serLeaf_second_blocks ha hb,
    desLeaf_second_blocks ha hb, fun b c w l r q m sym w' q' => decBit_second_blocks ha hb⟩
  have hend : ¬ s.inp.has 8 := Nat.not_le.2 hend
  refine ⟨⟨_, cntEnd_second_blocks ha hb hend, rfl, fun i => ?_⟩, encEod_second_blocks ha hb hend⟩
  exact (State.freqAt_setFreq s.called one_ne_zero i).trans (if_congr eq_comm rfl rfl)

end Sys2Proof.Machine
end

section
/-! ## PROOFS: the channels over one step of the core (spec/20_memory.md R42, R45, R58) -/

namespace Sys2Proof.Machine

/-! ### What a step keeps of the channels -/

/-- The collaborator's side of the state, with the parameters. -/
structure Channels where
  inp : InChan
  out : OutChan
  answers : List Answer
  par : Params

def State.channels (s : State) : Channels := { inp := s.inp, out := s.out, answers := s.answers, par := s.par }

/-- The phases that make no call on OUT. -/
abbrev Phase.quietOut : List Phase := [.idle, .done, .fault, .count, .leaves, .merge, .derive, .rmagic, .deser]

/-- Every call still to come is served. -/
def Channels.served (c : Channels) : Prop := ∀ a ∈ c.answers, a = .ok

/-- How the channels may go from `c` to `d` in phase `p`. -/
structure ChannelFrame (p : Phase) (c d : Channels) : Prop where
  par : d.par = c.par
  again : c.inp.again = none → d.inp.again = none
  bytes : p ≠ .count ∨ c.inp.again = none → d.inp.bytes = c.inp.bytes
  out : p ∈ Phase.quietOut → d.out = c.out
  served : c.served → d.served
  grows : c.served → c.out.bits <+: d.out.bits

/-- Where `r` goes on from `s`, the channels went as phase `p` allows. -/
abbrev ChannelFramed (p : Phase) (s : State) (r : Result) : Prop :=
  Ends True (fun t => ChannelFrame p s.channels t.channels) r

section Rules

variable {p : Phase} {c : Channels} {s s₀ : State}

theorem ChannelFrame.refl : ChannelFrame p c c :=
  ⟨rfl, id, fun _ => rfl, fun _ => rfl, id, fun _ => List.prefix_rfl⟩

theorem Channels.served_tail (h : c.served) : Channels.served { c with answers := c.answers.tail } :=
  fun a ha => h a (List.mem_of_mem_tail ha)

theorem answer_of_served (h : s.channels.served) : s.answer = .ok := by
  unfold State.answer
  cases ha : s.answers with
  | nil => rfl
  | cons a as => exact h a (show a ∈ s.answers by simp [ha])

/-- A read, served or failed, moves only the cursor. -/
theorem ChannelFrame.read (h : ChannelFrame p c s.channels) (pos : Nat) :
    ChannelFrame p c { s.channels with inp := { s.inp with pos := pos }, answers := s.answers.tail } :=
  ⟨h.par, h.again, h.bytes, h.out, fun hs => Channels.served_tail (h.served hs), h.grows⟩

theorem ChannelFrame.called (h : ChannelFrame p c s.channels) : ChannelFrame p c s.called.channels := h.read s.inp.pos

/-- A write or a close lengthens T, or keeps it, or fails. -/
theorem ChannelFrame.write (h : ChannelFrame p c s.channels) (hp : p ∉ Phase.quietOut) {out : OutChan}
    (hout : s.answer = .ok → s.out.bits <+: out.bits) :
    ChannelFrame p c { s.channels with out := out, answers := s.answers.tail } :=
  ⟨h.par, h.again, h.bytes, fun hq => absurd hq hp, fun hs => Channels.served_tail (h.served hs),
    fun hs => (h.grows hs).trans (hout (answer_of_served (h.served hs)))⟩

/-- A rewind shows the same bytes unless others are held for pass two (R58). -/
theorem ChannelFrame.rewound (h : ChannelFrame .count c s.channels) :
    ChannelFrame .count c { s.channels with inp := s.inp.rewound, answers := s.answers.tail } where
  par := h.par
  again _ := rfl
  bytes hb := by
    have hagain : s.inp.again = none := h.again (hb.resolve_left (absurd rfl))
    have hbytes : s.inp.bytes = c.inp.bytes := h.bytes hb
    simp [InChan.rewound, hagain, hbytes]
  out := h.out
  served hs := Channels.served_tail (h.served hs)
  grows := h.grows

theorem channelFramed_memRead {n : Nat} {k : Option Nat → State → Result}
    (h : ChannelFrame p s₀.channels s.channels)
    (hk : ∀ got t, ChannelFrame p s₀.channels t.channels → ChannelFramed p s₀ (k got t)) :
    ChannelFramed p s₀ (memRead n s k) :=
  ends_memRead (fun _ _ => hk _ _ (h.read _)) (fun _ _ => hk _ _ h.called) (fun _ _ => h.read _) fun _ => h.called

theorem channelFramed_memWrite {n v : Nat} {k : State → Result} (h : ChannelFrame p s₀.channels s.channels)
    (hp : p ∉ Phase.quietOut) (hk : ∀ t, ChannelFrame p s₀.channels t.channels → ChannelFramed p s₀ (k t)) :
    ChannelFramed p s₀ (memWrite n v s k) :=
  ends_memWrite (fun _ => hk _ (h.write hp fun _ => List.prefix_append _ _))
    (fun _ ha => h.write hp fun hok => by cases ha.symm.trans hok) fun _ => h.called

theorem channelFramed_rewind {k : State → Result} (h : ChannelFrame .count s₀.channels s.channels)
    (hk : ∀ t, ChannelFrame .count s₀.channels t.channels → ChannelFramed .count s₀ (k t)) :
    ChannelFramed .count s₀ (rewind s k) :=
  ends_rewind (fun _ => hk _ h.rewound) (fun _ _ => h.read _) fun _ => h.called

theorem channelFramed_closeOut {k : State → Result} (h : ChannelFrame p s₀.channels s.channels)
    (hp : p ∉ Phase.quietOut) (hk : ∀ t, ChannelFrame p s₀.channels t.channels → ChannelFramed p s₀ (k t)) :
    ChannelFramed p s₀ (closeOut s k) :=
  ends_closeOut (fun _ => hk _ (h.write hp fun _ => List.prefix_rfl))
    (fun _ ha => h.write hp fun hok => by cases ha.symm.trans hok) fun _ => h.called

end Rules

/-! ### The meanings -/

section Meanings

variable (p : Phase) (s : State)

theorem channelFramed_cntByte : ChannelFramed p s (execCntByte s) := by
  refine channelFramed_memRead .refl fun got t ht => ?_
  cases got with
  | none => trivial
  | some v => dsimp only; split <;> exact ht

theorem channelFramed_cntEnd : ChannelFramed .count s (execCntEnd s) := by
  refine channelFramed_memRead .refl fun got t ht => ?_
  cases got with
  | none => exact channelFramed_rewind (s := t.setFreq 256 1) ht fun _ hu => hu
  | some v => trivial

theorem channelFramed_pqLeaf : ChannelFramed p s (execPqLeaf s) := by
  unfold execPqLeaf
  split
  · split
    exacts [ends_alloc (fun _ => .refl) fun _ => trivial, ChannelFrame.refl]
  · trivial

theorem channelFramed_pqMerge : ChannelFramed p s (execPqMerge s) :=
  ends_removeMin (fun _ _ _ _ => ends_removeMin (fun _ _ _ _ => ends_alloc (fun _ => .refl) fun _ => trivial)
    fun _ => trivial) fun _ => trivial

theorem channelFramed_pqWrap : ChannelFramed p s (execPqWrap s) :=
  ends_withNode (fun _ _ _ _ => .refl) fun _ => trivial

theorem channelFramed_pqRoot : ChannelFramed p s (execPqRoot s) :=
  ends_removeMin (fun _ _ _ _ => ends_push (fun _ => .refl) fun _ => trivial) fun _ => trivial

theorem channelFramed_tblStep : ChannelFramed p s (execTblStep s) := by
  refine ends_pop (fun e _ => ends_withNode (fun _ nd _ _ => ?_) fun _ => trivial) fun _ => trivial
  split
  · trivial
  · cases nd with
    | leaf sym w q =>
      dsimp only
      split
      exacts [ChannelFrame.refl, trivial]
    | inner w l r q =>
      dsimp only
      split
      exacts [ends_push (fun _ => ends_push (fun _ => .refl) fun _ => trivial) fun _ => trivial, trivial]

theorem channelFramed_rdMagic : ChannelFramed p s (execRdMagic s) := by
  unfold execRdMagic checkMagic
  refine channelFramed_memRead .refl fun got t ht => ?_
  cases got with
  | none => exact ht
  | some m => dsimp only; split <;> exact ht

theorem channelFramed_desTag {k : Nat → State → Result}
    (hk : ∀ b t, ChannelFrame p s.channels t.channels → ChannelFramed p s (k b t)) :
    ChannelFramed p s (desTag s k) := by
  unfold desTag
  split
  · exact ChannelFrame.refl
  · refine channelFramed_memRead .refl fun got t ht => ?_
    cases got with
    | none => exact ht
    | some b => exact hk b t ht

theorem channelFramed_desInt : ChannelFramed p s (execDesInt s) := by
  refine channelFramed_desTag p s fun b t ht => ?_
  split
  · exact ends_alloc (fun _ => ends_attach (fun _ _ => ends_push (fun _ => ht) fun _ => trivial) trivial)
      fun _ => trivial
  · trivial

theorem channelFramed_desLeaf : ChannelFramed p s (execDesLeaf s) := by
  refine channelFramed_desTag p s fun b t ht => ?_
  split
  · unfold desSymbol
    refine channelFramed_memRead ht fun got u hu => ?_
    cases got with
    | none => exact hu
    | some v =>
      dsimp only
      split
      · exact hu
      · exact ends_alloc (fun _ => ends_attach (fun _ _ => ends_popComplete (fun _ => hu) trivial) trivial)
          fun _ => trivial
  · trivial

theorem channelFramed_desEnd : ChannelFramed p s (execDesEnd s) := by
  refine ends_withNode (fun _ nd _ _ => ?_) fun _ => trivial
  split <;> exact ChannelFrame.refl

section Writers

variable {p} (hp : p ∉ Phase.quietOut)
include hp

theorem channelFramed_wrMagic : ChannelFramed p s (execWrMagic s) :=
  channelFramed_memWrite .refl hp fun _ ht => ends_push (fun _ => ht) fun _ => trivial

theorem channelFramed_serInt : ChannelFramed p s (execSerInt s) := by
  refine ends_pop (fun e _ => ends_withNode (fun _ nd _ _ => ?_) fun _ => trivial) fun _ => trivial
  cases nd with
  | leaf => trivial
  | inner w l r q =>
    exact channelFramed_memWrite ChannelFrame.refl hp fun _ ht =>
      ends_push (fun _ => ends_push (fun _ => ht) fun _ => trivial) fun _ => trivial

theorem channelFramed_serLeaf : ChannelFramed p s (execSerLeaf s) := by
  refine ends_pop (fun e _ => ends_withNode (fun _ nd _ _ => ?_) fun _ => trivial) fun _ => trivial
  cases nd with
  | inner => trivial
  | leaf sym w q =>
    exact channelFramed_memWrite ChannelFrame.refl hp fun _ ht => channelFramed_memWrite ht hp fun _ hu => hu

theorem channelFramed_encByte : ChannelFramed p s (execEncByte s) := by
  refine channelFramed_memRead .refl fun got t ht => ?_
  cases got with
  | none => trivial
  | some v =>
    dsimp only
    split
    exacts [ht, channelFramed_memWrite ht hp fun _ hu => hu]

theorem channelFramed_encEod : ChannelFramed p s (execEncEod s) := by
  refine channelFramed_memRead .refl fun got t ht => ?_
  cases got with
  | none => exact channelFramed_memWrite ht hp fun _ hu => hu
  | some v => trivial

theorem channelFramed_close : ChannelFramed p s (execClose s) := channelFramed_closeOut .refl hp fun _ ht => ht

theorem channelFramed_decBit : ChannelFramed p s (execDecBit s) := by
  unfold execDecBit walkBit arrive
  refine channelFramed_memRead .refl fun got t ht => ?_
  cases got with
  | none => exact ht
  | some b =>
    refine ends_withNode (fun _ _ _ _ => ends_withNode (fun _ nd _ _ => ?_) fun _ => trivial) fun _ => trivial
    cases nd with
    | inner => exact ht
    | leaf sym w q =>
      dsimp only
      split
      exacts [ht, channelFramed_memWrite ht hp fun _ hu => hu]

end Writers

end Meanings

theorem channelFramed_coreStep (s : State) : ChannelFramed s.phase s (coreStep s) := by
  refine ends_coreStep (fun _ => .refl) (fun i _ hrow => ?_) fun _ _ => trivial
  cases i with
  | cntByte => exact channelFramed_cntByte _ s
  | cntEnd => rw [show s.phase = .count from hrow]; exact channelFramed_cntEnd s
  | pqLeaf => exact channelFramed_pqLeaf _ s
  | pqWrap => exact channelFramed_pqWrap _ s
  | pqRoot => exact channelFramed_pqRoot _ s
  | pqMerge => exact channelFramed_pqMerge _ s
  | tblStep => exact channelFramed_tblStep _ s
  | pqScanEnd | tblEnd | serEnd => exact ChannelFrame.refl
  | wrMagic => rw [show s.phase = .wmagic from hrow]; exact channelFramed_wrMagic s (by decide)
  | serInt => rw [hrow.1]; exact channelFramed_serInt s (by decide)
  | serLeaf => rw [hrow.1]; exact channelFramed_serLeaf s (by decide)
  | encByte => rw [show s.phase = .encode from hrow]; exact channelFramed_encByte s (by decide)
  | encEod => rw [show s.phase = .encode from hrow]; exact channelFramed_encEod s (by decide)
  | close => rw [show s.phase = .close from hrow]; exact channelFramed_close s (by decide)
  | rdMagic => exact channelFramed_rdMagic _ s
  | desInt => exact channelFramed_desInt _ s
  | desLeaf => exact channelFramed_desLeaf _ s
  | desEnd => exact channelFramed_desEnd _ s
  | decBit => rw [show s.phase = .decode from hrow]; exact channelFramed_decBit s (by decide)
  | magic | hdrInt | hdrLeaf | payBit | nop | compress | decompress | clear | cmdRsvd => exact hrow.elim

/-- Settles O46: each clause is a part of the frame that the phase's meanings keep. -/
theorem channelsOverOneStep : Obligations.ChannelsOverOneStep := by
  intro s t hm hstep
  rw [step, nextMove, hm] at hstep
  have h : ChannelFrame s.phase s.channels t.channels := (ends_iff.1 (channelFramed_coreStep s)).1 t hstep
  exact ⟨h.par, h.bytes, h.out, h.grows⟩

end Sys2Proof.Machine
end

section
/-! ## PROOFS: encodings, and what is not the next instruction (spec/30_encoding.md R71 to R90) -/

namespace Sys2Proof

/-! ### Stream tokens (R71, R72, R73, R76) -/

theorem decodeToken_magic_append (m : Word) (rest : Bits) :
    decodeToken .magic (bitsOf 32 m.toNat ++ rest) = .ok (.magic m, rest) := by
  rw [decodeToken_magic_eq, if_neg (by simp), take_bitsOf_append, drop_bitsOf_append,
    Laws.EncodeDecodes.ofNat_valOf_bitsOf]

theorem decodeToken_hdrLeaf_append (sym : Sym) (rest : Bits) :
    decodeToken .header (true :: (bitsOf 9 sym.toNat ++ rest)) = .ok (.hdrLeaf sym, rest) := by
  rw [decodeToken_header_leaf, if_neg (by simp), take_bitsOf_append, drop_bitsOf_append,
    Laws.EncodeDecodes.ofNat_valOf_bitsOf]

/-- A token decodes in front of any further bits and leaves exactly them (R75). -/
theorem decodeToken_tokenBits_append {i : Instr} {pos : TokenPos} (h : encode i = .token pos (tokenBits i))
    (rest : Bits) : decodeToken pos (tokenBits i ++ rest) = .ok (i, rest) := by
  cases i with
  | magic m => cases h; exact decodeToken_magic_append m rest
  | hdrInt => cases h; rfl
  | hdrLeaf sym => cases h; exact decodeToken_hdrLeaf_append sym rest
  | payBit b => cases h; rfl
  | _ => cases h

/-- Settles O3, by position: the fields that were read, written out again, are the bits that were taken. -/
theorem decodedTokenIsWhatStood : Obligations.DecodedTokenIsWhatStood := by
  intro pos bits rest i h
  cases pos with
  | magic =>
    rw [decodeToken_magic_eq] at h
    split at h
    · cases h
    · cases h
      refine ⟨?_, rfl⟩
      rw [tokenBits_magic, bitsOf_ofNat_valOf_take (by omega), List.take_append_drop]
  | header =>
    match bits with
    | [] => cases h
    | false :: r => cases h; exact ⟨rfl, rfl⟩
    | true :: r =>
      rw [decodeToken_header_leaf] at h
      split at h
      · cases h
      · cases h
        refine ⟨?_, rfl⟩
        rw [tokenBits_hdrLeaf, List.cons_append, bitsOf_ofNat_valOf_take (by omega), List.take_append_drop]
  | payload =>
    match bits with
    | [] => cases h
    | b :: r => cases h; exact ⟨rfl, rfl⟩

/-! ### Command words (R82, R83) -/

theorem decodeCommand_congr {v w : Word} (h : v.extractLsb' 0 3 = w.extractLsb' 0 3) :
    decodeCommand v = decodeCommand w := by
  rw [decodeCommand, decodeCommand, h]

theorem decodeCommand_reserved {w : Word} (h : 4 ≤ (w.extractLsb' 0 3).toNat) :
    decodeCommand w = .cmdRsvd (w.extractLsb' 0 3) := by
  unfold decodeCommand
  split
  case h_5 => rfl
  all_goals omega

theorem encode_command {i : Instr} (h : i.kind = .command) : encode i = .command (commandWord i) := by
  cases i with
  | nop | compress | decompress | clear | cmdRsvd => rfl
  | _ => cases h

theorem decode_encode (i : Instr) (h : i.wellFormed = true) : decode (encode i) = .ok i := by
  cases i with
  | magic m => exact Laws.EncodeDecodes.magic m h
  | hdrLeaf sym => exact Laws.EncodeDecodes.hdrLeaf sym h
  | cmdRsvd op => exact Laws.EncodeDecodes.cmdRsvd op h
  | _ => rfl

/-- Settles O2: a command word decodes as the one with its ignored bits zero, which is the command's encoding. -/
theorem decodeOfEncodeIsTheInstruction : Obligations.DecodeOfEncodeIsTheInstruction := by
  refine ⟨decode_encode, fun i pos rest h => decodeToken_tokenBits_append h rest, fun i w hwf hkind hop => ?_⟩
  have hdec : decode (.command (commandWord i)) = .ok i := encode_command hkind ▸ decode_encode i hwf
  exact (decodeCommand_congr hop).trans (Except.ok.inj hdec)

/-- Settles O1: each word is decoded. -/
theorem specWordsDecode : Obligations.SpecWordsDecode := by
  unfold Obligations.SpecWordsDecode
  decide

/-- Settles O4: the decoder reads nothing of the word but OP. -/
theorem commandWordOpcodes : Obligations.CommandWordOpcodes :=
  fun _ => ⟨decodeCommand_congr (w := 0), decodeCommand_congr (w := 1), decodeCommand_congr (w := 2),
    decodeCommand_congr (w := 3), decodeCommand_reserved, fun _ => decodeCommand_congr⟩

/-! ### The phase map (R84) -/

/-- Settles O5, by the phase code and then by the conditions of its rows. -/
theorem phaseMapSelects : Obligations.PhaseMapSelects := by
  rintro ⟨code, first, scan, nn, qn, sp, topLeaf⟩
  dsimp only
  refine ⟨?count, ?leaves, ?merge, ?derive, ?wmagic, ?ser, ?encode, ?close, ?rmagic, ?deser, ?decode, ?quiescent,
    ?noPhase⟩
  case count => rintro rfl; exact ⟨by rintro v rfl; rfl, by rintro rfl; rfl⟩
  case leaves => rintro rfl; exact ⟨fun h => if_pos h, by rintro rfl; rfl⟩
  case merge =>
    rintro rfl
    refine ⟨by rintro rfl rfl; rfl, ?_, fun hqn => if_pos hqn⟩
    rintro rfl hnn
    have hsole : ¬ (1 = 1 ∧ nn = 1) := by omega
    exact (if_neg hsole).trans (if_pos ⟨rfl, hnn⟩)
  case derive => rintro rfl; exact ⟨fun hsp => congrArg _ (if_pos hsp), by rintro rfl; rfl⟩
  case wmagic | close | rmagic | decode => rintro rfl; rfl
  case ser =>
    rintro rfl
    exact ⟨by rintro hsp rfl; exact congrArg _ (if_pos hsp), by rintro hsp rfl; exact congrArg _ (if_pos hsp),
      by rintro rfl; rfl⟩
  case encode => rintro rfl; exact ⟨by rintro v rfl; rfl, by rintro rfl; rfl⟩
  case deser =>
    rintro rfl
    refine ⟨by rintro h rfl; exact congrArg _ (if_pos h), by rintro h rfl; exact congrArg _ (if_pos h), ?_⟩
    intro hnn hsp
    have hcomplete : ¬ (nn = 0 ∨ 0 < sp) := by omega
    exact congrArg _ (if_neg hcomplete)
  case quiescent => rintro (rfl | rfl | rfl) <;> rfl
  case noPhase => rintro (rfl | rfl) <;> rfl

end Sys2Proof

namespace Sys2Proof.Machine

/-! ### What is not the next instruction (R84, R89) -/

/-- A stream token is only ever interpreted (log 19). -/
theorem exec_token {i : Instr} (h : i.kind = .token) (s : State) : ∃ r, exec i s = interpret i s r := by
  cases i with
  | magic | hdrInt | hdrLeaf | payBit => exact ⟨_, rfl⟩
  | _ => cases h

/-- Settles O38: the read or the node that contradicts the row decides which branch the meaning takes. -/
theorem notTheNextInstruction : Obligations.NotTheNextInstruction := by
  refine fun s => ⟨fun ha h => ?eos, fun ha h => ?byte, fun ha hnn h => ?tag, fun n c nd htop hnd => ?kind,
    fun i hkind hat => ?token⟩
  case eos =>
    have hend : ¬ s.inp.has 8 := Nat.not_le.2 h
    exact ⟨show execCntByte s = _ from memRead_eos _ ha hend, show execEncByte s = _ from memRead_eos _ ha hend⟩
  case byte =>
    exact ⟨show execCntEnd s = _ from memRead_bits _ ha h, show execEncEod s = _ from memRead_bits _ ha h⟩
  case tag =>
    constructor <;> intro hbit
    · rw [exec, execDesInt, desTag_bit _ ha hnn h, hbit]; rfl
    · rw [exec, execDesLeaf, desTag_bit _ ha hnn h, hbit]; rfl
  case kind =>
    constructor <;> intro hk
    · rw [exec, execSerInt, pop_node htop hnd]
      cases nd with
      | leaf => rfl
      | inner => cases hk
    · rw [exec, execSerLeaf, pop_node htop hnd]
      cases nd with
      | leaf => cases hk
      | inner => rfl
  case token =>
    obtain ⟨r, hr⟩ := exec_token hkind s
    rw [hr, interpret, if_neg hat]

end Sys2Proof.Machine
end

section
/-! ## PROOFS: the frequency counter (spec/40_frequency.md R100 to R104) -/

namespace Sys2Proof.Machine

/-! ### Bytes at the cursor -/

/-- The stream bits over a byte that has whole bytes before it are the byte's own (R41). -/
theorem streamBits_byte (pre : List Byte) (b : Byte) (r : List Byte) :
    streamBits (pre ++ b :: r) (8 * pre.length) 8 = bitsOf 8 b.toNat := by
  refine List.ext_getElem? fun i => ?_
  rcases Nat.lt_or_ge i 8 with hi | hi
  · rw [streamBits_getElem? _ hi, bitsOf_getElem? _ hi, streamBit, Nat.mul_add_div (by decide), Nat.mul_add_mod,
      Nat.div_eq_of_lt hi, Nat.mod_eq_of_lt hi, BitVec.testBit_toNat]
    simp
  · rw [List.getElem?_eq_none (by simpa using hi), List.getElem?_eq_none (by simpa using hi)]

/-- The cursor stands at the start of a byte, and `rest` are the bytes from there to the end. -/
def InChan.upcoming (c : InChan) (rest : List Byte) : Prop :=
  ∃ pre, c.bytes = pre ++ rest ∧ c.pos = 8 * pre.length

theorem InChan.upcoming_of_pos_zero {c : InChan} (h : c.pos = 0) : c.upcoming c.bytes := ⟨[], rfl, h⟩

section Upcoming

variable {c : InChan} {b : Byte} {r : List Byte}

theorem InChan.upcoming.not_has (h : c.upcoming []) : ¬ c.has 8 := by
  obtain ⟨pre, hbytes, hpos⟩ := h
  simp [InChan.has, InChan.len, hbytes, hpos]

theorem InChan.upcoming.has (h : c.upcoming (b :: r)) : c.has 8 := by
  obtain ⟨pre, hbytes, hpos⟩ := h
  simp only [InChan.has, InChan.len, hbytes, hpos, List.length_append, List.length_cons]
  omega

theorem InChan.upcoming.valOf_next (h : c.upcoming (b :: r)) : valOf (c.next 8) = b.toNat := by
  obtain ⟨pre, hbytes, hpos⟩ := h
  rw [InChan.next, hbytes, hpos, streamBits_byte, valOf_bitsOf, Nat.mod_eq_of_lt b.isLt]

theorem InChan.upcoming.tail (h : c.upcoming (b :: r)) : InChan.upcoming { c with pos := c.pos + 8 } r := by
  obtain ⟨pre, hbytes, hpos⟩ := h
  exact ⟨pre ++ [b], by simp [hbytes], by simp [hpos, Nat.mul_add]⟩

theorem InChan.upcoming.passed {rest : List Byte} (h : c.upcoming rest) :
    InChan.upcoming { c with pos := c.pos + 8 * rest.length } [] := by
  obtain ⟨pre, hbytes, hpos⟩ := h
  exact ⟨c.bytes, by simp, by simp [hbytes, hpos, Nat.mul_add]⟩

end Upcoming

/-- Rewinding an IN that is at its start, over bytes that do not change, does nothing (R47). -/
theorem InChan.rewound_of_fresh {c : InChan} (hpos : c.pos = 0) (hagain : c.again = none) : c.rewound = c := by
  obtain ⟨bytes, pos, again⟩ := c
  cases hpos
  cases hagain
  rfl

/-! ### How often a byte value occurs -/

theorem occurs_cons (v : Nat) (b : Byte) (r : List Byte) :
    occurs v (b :: r) = occurs v r + if b.toNat = v then 1 else 0 := by
  simp [occurs, List.countP_cons]

theorem occurs_eq_count (v : Nat) (bytes : List Byte) : occurs v bytes = (bytes.map BitVec.toNat).count v := by
  rw [occurs, List.count, List.countP_map]
  rfl

/-- Every byte has one of the 256 values. -/
theorem sum_occurs (bytes : List Byte) : ∑ v ∈ Finset.range 256, occurs v bytes = bytes.length := by
  have hbelow : ∀ v ∈ (↑(bytes.map BitVec.toNat) : Multiset Nat), v ∈ Finset.range 256 := by
    intro v hv
    obtain ⟨b, -, rfl⟩ := List.mem_map.1 hv
    exact Finset.mem_range.2 b.isLt
  simpa [occurs_eq_count] using Multiset.sum_count_eq_card hbelow

/-! ### CNT.BYTE and CNT.END -/

variable {s : State}

theorem Params.isFull_iff {p : Params} {v : Nat} : p.isFull v = true ↔ ∃ w, p.cntW = some w ∧ v = 2 ^ w - 1 := by
  unfold Params.isFull
  cases p.cntW <;> simp

/-- The state after CNT.BYTE has counted a byte of value `v` (R101). -/
def State.counted (s : State) (v : Nat) : State := (s.called.advance 8).setFreq v (s.freqAt v + 1)

theorem State.freqAt_counted (s : State) (v i : Nat) :
    (s.counted v).freqAt i = if i = v then s.freqAt v + 1 else s.freqAt i :=
  (State.freqAt_setFreq _ (Nat.succ_ne_zero _) i).trans (if_congr eq_comm rfl rfl)

theorem execCntByte_counts (ha : s.answer = .ok) (h : s.inp.has 8)
    (hfits : ¬ s.par.isFull (s.freqAt (valOf (s.inp.next 8))) = true) :
    execCntByte s = .next (s.counted (valOf (s.inp.next 8))) :=
  (memRead_bits _ ha h).trans (if_neg hfits)

theorem execCntByte_overflows (ha : s.answer = .ok) (h : s.inp.has 8)
    (hfull : s.par.isFull (s.freqAt (valOf (s.inp.next 8))) = true) :
    execCntByte s = raise .eCntovf 0 (s.called.advance 8) :=
  (memRead_bits _ ha h).trans (if_pos hfull)

/-- The state after CNT.END (R102). -/
def State.countEnded (s : State) : State :=
  { s.called.called.setFreq 256 1 with inp := s.inp.rewound, phase := .leaves }

theorem State.freqAt_countEnded (s : State) (i : Nat) :
    s.countEnded.freqAt i = if i = 256 then 1 else s.freqAt i :=
  (State.freqAt_setFreq s one_ne_zero i).trans (if_congr eq_comm rfl rfl)

theorem execCntEnd_ends (hs : s.servesTwo) (h : ¬ s.inp.has 8) : execCntEnd s = .next s.countEnded := by
  obtain ⟨hfirst, hsecond⟩ := hs
  exact (memRead_eos _ hfirst h).trans (rewind_ok _ hsecond)

/-- Settles O19: the counter is full or it is not, and `execCntByte` has one equation for each. -/
theorem countByte : Obligations.CountByte := by
  rintro s ha h v rfl
  refine ⟨fun hfits => ?fits, fun w hw hfull => ?full⟩
  case fits =>
    have hnot : ¬ s.par.isFull (s.freqAt (valOf (s.inp.next 8))) = true := fun hf =>
      (Params.isFull_iff.1 hf).elim fun w hw => hfits w hw.1 hw.2
    exact ⟨_, execCntByte_counts ha h hnot, rfl, State.freqAt_counted s _⟩
  case full => exact execCntByte_overflows ha h (Params.isFull_iff.2 ⟨w, hw, hfull⟩)

/-- Settles O20: the read meets the end, and the rewind is served. -/
theorem countEnd : Obligations.CountEnd := fun s hs h =>
  ⟨s.countEnded, execCntEnd_ends hs (Nat.not_le.2 h), rfl, State.freqAt_countEnded s⟩

/-! ### Runs -/

theorem step_of_noMoves (h : s.moves = []) : step s = coreStep s := by
  rw [step, nextMove, h]

theorem run_succ {t : State} (k : Nat) (h : step s = .next t) : run (k + 1) s = run k t := by
  rw [run, h]

/-- A run goes on from where its first part ends. -/
theorem run_add {t : State} {m : Nat} (n : Nat) (h : run m s = .next t) : run (m + n) s = run n t := by
  induction m generalizing s with
  | zero => cases h; rw [Nat.zero_add]
  | succ m ih =>
    cases hstep : step s with
    | next u =>
      rw [run_succ m hstep] at h
      rw [Nat.add_right_comm, run_succ _ hstep, ih h]
    | fault f => simp [run, hstep] at h
    | refused r => simp [run, hstep] at h

theorem State.Alone.answer (h : s.Alone) : s.answer = .ok := by
  rw [State.answer, h.served]
  rfl

theorem State.Alone.servesTwo (h : s.Alone) : s.servesTwo := by
  refine ⟨h.answer, ?_⟩
  rw [State.answer, State.called, h.served]
  rfl

theorem State.Alone.called (h : s.Alone) : s.called = s := by
  have hnone := h.served
  cases s
  cases hnone
  rfl

/-! ### P_COUNT as a function (R103) -/

theorem peek_of_has {n : Nat} (ha : s.answer = .ok) (h : s.inp.has n) : s.peek n = some (valOf (s.inp.next n)) :=
  (peek_ok ha).trans (if_pos h)

theorem peek_of_not_has {n : Nat} (ha : s.answer = .ok) (h : ¬ s.inp.has n) : s.peek n = none :=
  (peek_ok ha).trans (if_neg h)

theorem step_counts {b : Byte} {r : List Byte} (h : s.Alone) (hp : s.phase = .count) (hin : s.inp.upcoming (b :: r))
    (hfits : ¬ s.par.isFull (s.freqAt b.toNat) = true) : step s = .next (s.counted b.toNat) := by
  have hsel : decode (.select s.selector) = .ok .cntByte := by
    rw [select_count hp, peek_of_has h.answer hin.has]
    rfl
  rw [← hin.valOf_next] at hfits ⊢
  rw [step_of_noMoves h.noMoves, coreStep_of_selects h.notWaiting hsel]
  exact execCntByte_counts h.answer hin.has hfits

theorem step_countEnds (h : s.Alone) (hp : s.phase = .count) (hin : s.inp.upcoming []) :
    step s = .next s.countEnded := by
  have hsel : decode (.select s.selector) = .ok .cntEnd := by
    rw [select_count hp, peek_of_not_has h.answer hin.not_has]
    rfl
  rw [step_of_noMoves h.noMoves, coreStep_of_selects h.notWaiting hsel]
  exact execCntEnd_ends h.servesTwo hin.not_has

/-- The counters have room for the bytes `rest` (R104). -/
def State.roomFor (s : State) (rest : List Byte) : Prop :=
  ∀ w v, s.par.cntW = some w → s.freqAt v + occurs v rest < 2 ^ w

theorem State.roomFor.not_full {b : Byte} {r : List Byte} (h : s.roomFor (b :: r)) :
    ¬ s.par.isFull (s.freqAt b.toNat) = true := by
  intro hfull
  obtain ⟨w, hw, hmax⟩ := Params.isFull_iff.1 hfull
  have hlt := h w b.toNat hw
  rw [occurs_cons, if_pos rfl] at hlt
  omega

theorem State.freqAt_counted_add_occurs (s : State) (b : Byte) (r : List Byte) (v : Nat) :
    (s.counted b.toNat).freqAt v + occurs v r = s.freqAt v + occurs v (b :: r) := by
  rw [State.freqAt_counted, occurs_cons]
  by_cases hv : v = b.toNat
  · subst hv
    rw [if_pos rfl, if_pos rfl]
    omega
  · rw [if_neg hv, if_neg (Ne.symm hv), Nat.add_zero]

theorem State.roomFor.tail {b : Byte} {r : List Byte} (h : s.roomFor (b :: r)) : (s.counted b.toNat).roomFor r :=
  fun w v hw => (s.freqAt_counted_add_occurs b r v).trans_lt (h w v hw)

/-- `s` with the cursor `n` bytes further and the counters `f`. -/
def State.swept (s : State) (n : Nat) (f : List (Nat × Nat)) : State :=
  { s with freq := f, inp := { s.inp with pos := s.inp.pos + 8 * n } }

theorem State.Alone.swept (h : s.Alone) (n : Nat) (f : List (Nat × Nat)) : (s.swept n f).Alone :=
  ⟨h.noMoves, h.notWaiting, h.served⟩

theorem State.Alone.counted (h : s.Alone) (v : Nat) : (s.counted v).Alone :=
  ⟨h.noMoves, h.notWaiting, congrArg List.tail h.served⟩

theorem State.Alone.swept_counted (h : s.Alone) (v n : Nat) (f : List (Nat × Nat)) :
    (s.counted v).swept n f = s.swept (n + 1) f := by
  rw [State.counted, h.called, State.swept, State.swept, Nat.mul_add, Nat.add_comm (8 * n), ← Nat.add_assoc]
  rfl

/-- CNT.BYTE, step after step, counts every byte that is left (R100). -/
theorem run_counts {rest : List Byte} (h : s.Alone) (hp : s.phase = .count) (hin : s.inp.upcoming rest)
    (hroom : s.roomFor rest) :
    ∃ f, run rest.length s = .next (s.swept rest.length f) ∧
      ∀ v, (s.swept rest.length f).freqAt v = s.freqAt v + occurs v rest := by
  induction rest generalizing s with
  | nil => exact ⟨s.freq, rfl, fun _ => rfl⟩
  | cons b r ih =>
    obtain ⟨f, hrun, hfreq⟩ := ih (h.counted b.toNat) hp hin.tail hroom.tail
    rw [h.swept_counted] at hrun hfreq
    refine ⟨f, (run_succ _ (step_counts h hp hin hroom.not_full)).trans hrun, fun v => ?_⟩
    exact (hfreq v).trans (s.freqAt_counted_add_occurs b r v)

/-- CNT.END leaves an IN that was at its start when the pass began as it was then. -/
theorem State.Alone.countEnded_swept (h : s.Alone) (hpos : s.inp.pos = 0) (hagain : s.inp.again = none) (n : Nat)
    (f : List (Nat × Nat)) :
    (s.swept n f).countEnded = { s with phase := .leaves, freq := (s.swept n f).countEnded.freq } := by
  have hinp : (s.swept n f).inp.rewound = s.inp := InChan.rewound_of_fresh hpos hagain
  rw [State.countEnded, (h.swept n f).called, (h.swept n f).called, hinp]
  rfl

/-- Counters that hold an input's counts, and 1 for the sentinel, sum to its length and 1 (R103). -/
theorem sum_freqAt {bytes : List Byte} (heod : s.freqAt 256 = 1)
    (hbyte : ∀ v, v < 256 → s.freqAt v = occurs v bytes) :
    ((List.range 257).map s.freqAt).sum = bytes.length + 1 := by
  rw [← List.sum_toFinset _ List.nodup_range, List.toFinset_range, Finset.sum_range_succ, heod, ← sum_occurs bytes]
  exact congrArg (· + 1) (Finset.sum_congr rfl fun v hv => hbyte v (Finset.mem_range.1 hv))

/-- Settles O53: `run_counts` for the bytes of IN, then one CNT.END. -/
theorem countingPass : Obligations.CountingPass := by
  intro s halone hp hfreq hpos hagain hfits
  have hzero (v : Nat) : s.freqAt v = 0 := by rw [State.freqAt, hfreq]; rfl
  have hroom : s.roomFor s.inp.bytes := fun w v hw => by rw [hzero, Nat.zero_add]; exact hfits w v hw
  have hin := InChan.upcoming_of_pos_zero hpos
  obtain ⟨f, hrun, hcounts⟩ := run_counts halone hp hin hroom
  have hend := step_countEnds (halone.swept _ f) hp hin.passed
  have heod := State.freqAt_countEnded (s.swept s.inp.bytes.length f) 256
  have hbyte (v : Nat) (hv : v < 256) :
      (s.swept s.inp.bytes.length f).countEnded.freqAt v = occurs v s.inp.bytes := by
    rw [State.freqAt_countEnded, if_neg hv.ne, hcounts, hzero, Nat.zero_add]
  exact ⟨_, (run_add 1 hrun).trans (run_succ 0 hend), halone.countEnded_swept hpos hagain _ f, heod, hbyte,
    sum_freqAt heod hbyte⟩

end Sys2Proof.Machine
end

section
/-! ## PROOFS: the tree builder, step by step (spec/41_tree_build.md R111 to R117) -/

namespace Sys2Proof.Machine

variable {s : State}

/-! ### PQ.LEAF and the ends of phases (R111, R117, R130, R147) -/

/-- The state after PQ.LEAF at a symbol that occurs (R111). -/
def State.leafAdded (s : State) : State :=
  { s.allocated (.leaf (BitVec.ofNat 9 s.scan) (s.freqAt s.scan) true) with qn := s.qn + 1, scan := s.scan + 1 }

theorem execPqLeaf_adds (hscan : s.scan ≤ 256) (hnn : s.nn < 513) (hf : 0 < s.freqAt s.scan) :
    execPqLeaf s = .next s.leafAdded := by
  rw [execPqLeaf, if_pos (Nat.lt_succ_of_le hscan), if_pos hf, alloc_ok _ hnn]
  rfl

theorem execPqLeaf_skips (hscan : s.scan ≤ 256) (hf : s.freqAt s.scan = 0) :
    execPqLeaf s = .next { s with scan := s.scan + 1 } := by
  rw [execPqLeaf, if_pos (Nat.lt_succ_of_le hscan), if_neg hf.not_gt]

/-- Settles O21: the count is positive or zero, and PQ.LEAF has one equation for each. -/
theorem examineSymbol : Obligations.ExamineSymbol := by
  intro s hscan hnn
  refine ⟨fun hp => (select_leaves hp).trans (if_pos hscan), fun hf => ?_, execPqLeaf_skips hscan⟩
  refine ⟨s.leafAdded, execPqLeaf_adds hscan hnn hf, rfl, ?_, fun i hi => ?_⟩
  · exact (s.nodeAt_allocated _ _).trans (if_pos rfl)
  · exact (s.nodeAt_allocated _ _).trans (if_neg hi.ne)

/-- Settles O22: each meaning only enters the next phase. -/
theorem phaseEnds : Obligations.PhaseEnds := fun _ => ⟨rfl, rfl, rfl⟩

/-! ### removeMin (R112) -/

theorem removeMin_least {i : Nat} {nd : Node} (k : Nat → Node → State → Result) (hs : Table.sorted s.node = true)
    (hq : 0 < s.qn) (h : s.least i nd) : removeMin s k = k i nd (s.dequeued i nd) :=
  removeMin_ok k hq ((minInq_eq_some_iff hs i nd).2 h)

theorem State.nodeAt_dequeued_self {i : Nat} {nd : Node} (h : s.nodeAt i = some nd) :
    (s.dequeued i nd).nodeAt i = some (nd.setInq false) :=
  (s.nodeAt_setNode _ _ _).trans (if_pos ⟨rfl, State.nodeAt_lt h⟩)

theorem State.nodeAt_dequeued_ne {i j : Nat} (nd : Node) (h : j ≠ i) : (s.dequeued i nd).nodeAt j = s.nodeAt j :=
  (s.nodeAt_setNode _ _ _).trans (if_neg fun hij => h hij.1.symm)

/-- A structure that is not empty has a least node. -/
theorem exists_least (hs : Table.sorted s.node = true) {i : Nat} {nd : Node} (hn : s.nodeAt i = some nd)
    (hq : nd.inq = true) : ∃ j md, s.least j md := by
  have hpos : 0 < s.inqCount := State.inqCount_eq hs ▸ Finset.card_pos.2 ⟨i, State.mem_queued.2 ⟨nd, hn, hq⟩⟩
  obtain ⟨j, md, hmin, -⟩ := minInq_of_inqCount hs hpos
  exact ⟨j, md, (minInq_eq_some_iff hs j md).1 hmin⟩

/-- Settles O23: the scan finds the least node, and a scan that finds none meets no node of the structure. -/
theorem removeMinTakesTheLeast : Obligations.RemoveMinTakesTheLeast := by
  intro s hwf
  have hs := (Table.wf_iff.1 hwf).1
  refine ⟨fun i nd k hq hleast => ?_, fun ⟨i, nd, hn, hq⟩ => exists_least hs hn hq⟩
  exact ⟨s.dequeued i nd, removeMin_least k hs hq hleast, rfl, State.nodeAt_dequeued_self hleast.1,
    fun j hj => State.nodeAt_dequeued_ne nd hj⟩

/-! ### PQ.MERGE (R113) -/

/-- The state after PQ.MERGE of the nodes `a` and `b` (R113). -/
def State.merged (s : State) (a : Nat) (na : Node) (b : Nat) (nb : Node) : State :=
  { s with
    node := (((s.dequeued a na).dequeued b nb).allocated (.inner (na.wgt + nb.wgt) (some a) (some b) true)).node
    nn := s.nn + 1
    qn := s.qn - 1 }

theorem State.nodeAt_merged (s : State) (a : Nat) (na : Node) (b : Nat) (nb : Node) (i : Nat) :
    (s.merged a na b nb).nodeAt i =
      if i = s.nn then some (.inner (na.wgt + nb.wgt) (some a) (some b) true)
      else ((s.dequeued a na).dequeued b nb).nodeAt i :=
  State.nodeAt_allocated ((s.dequeued a na).dequeued b nb) _ i

theorem execPqMerge_least {a b : Nat} {na nb : Node} (hs : Table.sorted s.node = true) (hq : 2 ≤ s.qn)
    (hnn : s.nn < 513) (ha : s.least a na) (hb : (s.dequeued a na).least b nb) :
    execPqMerge s = .next (s.merged a na b nb) := by
  have hq1 : 0 < (s.dequeued a na).qn := Nat.sub_pos_of_lt hq
  have hqn : s.qn - 1 - 1 + 1 = s.qn - 1 := Nat.sub_add_cancel hq1
  rw [execPqMerge, removeMin_least _ hs (by omega) ha, removeMin_least _ (Table.sorted_set _ _ hs) hq1 hb,
    alloc_ok (s := (s.dequeued a na).dequeued b nb) _ hnn, State.merged, ← hqn]
  rfl

/-- The second least node is the least once the first has left. -/
theorem State.leastBut.least {a b : Nat} {na nb : Node} (h : s.leastBut a b nb) (ha : s.nodeAt a = some na) :
    (s.dequeued a na).least b nb := by
  obtain ⟨hba, hn, hq, hle⟩ := h
  refine ⟨(State.nodeAt_dequeued_ne na hba).trans hn, hq, fun j md hj hmd => ?_⟩
  by_cases hja : j = a
  · subst hja
    rw [State.nodeAt_dequeued_self ha] at hj
    cases hj
    simp at hmd
  · exact hle j md hja ((State.nodeAt_dequeued_ne na hja).symm.trans hj) hmd

/-- Settles O24: the scan finds `a`, then `b`, and the new node is the one at NN. -/
theorem mergeTheTwoLeast : Obligations.MergeTheTwoLeast := by
  intro s a b na nb hwf hq hnn ha hb
  have hs := (Table.wf_iff.1 hwf).1
  have hleast := hb.least ha.1
  have hlive (j : Nat) (hj : j < s.nn) :
      (s.merged a na b nb).nodeAt j = ((s.dequeued a na).dequeued b nb).nodeAt j :=
    (s.nodeAt_merged a na b nb j).trans (if_neg hj.ne)
  refine ⟨fun hp => (select_merge hp).trans (if_pos hq), s.merged a na b nb,
    execPqMerge_least hs hq hnn ha hleast, rfl, (s.nodeAt_merged a na b nb s.nn).trans (if_pos rfl), ?_, ?_,
    fun j hj hja hjb => ?_⟩
  · rw [hlive a (State.nodeAt_lt ha.1), State.nodeAt_dequeued_ne nb hb.1.symm, State.nodeAt_dequeued_self ha.1]
  · rw [hlive b (State.nodeAt_lt hb.2.1), State.nodeAt_dequeued_self hleast.1]
  · rw [hlive j hj, State.nodeAt_dequeued_ne nb hjb, State.nodeAt_dequeued_ne na hja]

/-! ### PQ.WRAP (R115) -/

/-- The state after PQ.WRAP of the lone node `n0` (R115). -/
def State.wrapped (s : State) (n0 : Node) : State :=
  { s with
    node := (((s.setNode 0 (n0.setInq false)).setNode 1 (.leaf 0 0 false)).setNode 2
      (.inner n0.wgt (some 0) (some 1) true)).node
    nn := 3 }

theorem select_pqWrap (hp : s.phase = .merge) (hq : s.qn = 1) (hnn : s.nn = 1) :
    decode (.select s.selector) = .ok .pqWrap := by
  rw [select_merge hp, if_neg (by omega), if_pos ⟨hq, hnn⟩]

theorem execPqWrap_ok {n0 : Node} (h : s.nodeAt 0 = some n0) : execPqWrap s = .next (s.wrapped n0) :=
  withNode_ok _ h

/-- Settles O25: the three nodes are written one over the other, and each is read back. -/
theorem wrapTheLoneLeaf : Obligations.WrapTheLoneLeaf := by
  intro s n0 h
  refine ⟨select_pqWrap, s.wrapped n0, execPqWrap_ok h, rfl, ?_, ?_, ?_⟩ <;>
    simp [State.nodeAt, State.wrapped, Table.get?_set]

/-! ### PQ.ROOT (R114) -/

/-- The state after PQ.ROOT takes the node `i` (R114). -/
def State.rooted (s : State) (i : Nat) (nd : Node) : State :=
  (State.pushed { s.dequeued i nd with root := some i } { n := some i, code := some Code.empty }).enter .derive

theorem select_pqRoot (hp : s.phase = .merge) (hq : s.qn = 1) (hnn : 1 < s.nn) :
    decode (.select s.selector) = .ok .pqRoot := by
  rw [select_merge hp, if_neg (by omega), if_neg (by omega), if_pos ⟨hq, hnn⟩]

theorem execPqRoot_least {i : Nat} {nd : Node} (hs : Table.sorted s.node = true) (hq : 0 < s.qn) (hsp : s.sp < 513)
    (h : s.least i nd) : execPqRoot s = .next (s.rooted i nd) := by
  rw [execPqRoot, removeMin_least _ hs hq h, push_ok (s := { s.dequeued i nd with root := some i }) _ hsp]
  rfl

/-- Settles O26: the scan finds the node, and the push writes STK[SP] only. -/
theorem lastNodeIsTheRoot : Obligations.LastNodeIsTheRoot := by
  intro s i nd hwf hq hsp h
  exact ⟨select_pqRoot, s.rooted i nd, execPqRoot_least (Table.wf_iff.1 hwf).1 hq hsp h, rfl,
    State.nodeAt_dequeued_self h.1, fun j hj => State.nodeAt_dequeued_ne (s := s) nd hj,
    Table.get?_set_self s.stk s.sp _, fun p hp => Table.get?_set_ne s.stk _ hp.ne'⟩

end Sys2Proof.Machine
end

section
/-! ## PROOFS: the tree that the builder makes (spec/41_tree_build.md R110, R116)

The nodes of the priority structure are the roots of trees that share no node. P_LEAVES adds one-leaf trees, PQ.MERGE
joins two trees under a new node, and in the end one tree is left. -/

namespace Sys2Proof

theorem HTree.syms_ne_nil (tr : HTree) : tr.syms ≠ [] := by
  induction tr with
  | leaf sym => simp [HTree.syms]
  | node l r ihl ihr => simp [HTree.syms, ihl]

/-- A tree with an internal root and every symbol once has a symbol other than any given one. -/
theorem HTree.exists_sym_ne {tr : HTree} (hinner : tr.isNode = true) (honce : tr.syms.Nodup) (sym : Sym) :
    ∃ sym' ∈ tr.syms, sym' ≠ sym := by
  cases tr with
  | leaf => cases hinner
  | node l r =>
    obtain ⟨x, hx⟩ := List.exists_mem_of_ne_nil _ l.syms_ne_nil
    obtain ⟨y, hy⟩ := List.exists_mem_of_ne_nil _ r.syms_ne_nil
    have hxy : x ≠ y := (List.nodup_append.1 honce).2.2 x hx y hy
    by_cases hsym : x = sym
    · exact ⟨y, List.mem_append_right _ hy, hsym ▸ hxy.symm⟩
    · exact ⟨x, List.mem_append_left _ hx, hsym⟩

end Sys2Proof

namespace Sys2Proof.Machine

variable {s t : State}

/-! ### A tree in the arena -/

/-- What the builder does to nodes: `t` holds every node of `s`, with any INQ. -/
def State.keepsNodes (s t : State) : Prop :=
  ∀ i nd, s.nodeAt i = some nd → ∃ q, t.nodeAt i = some (nd.setInq q)

theorem Node.setInq_self (nd : Node) : nd.setInq nd.inq = nd := by cases nd <;> rfl

theorem State.keepsNodes_setInq {i : Nat} {nd : Node} (h : s.nodeAt i = some nd) (q : Bool) :
    s.keepsNodes (s.setNode i (nd.setInq q)) := by
  intro j md hj
  rw [State.nodeAt_setNode]
  split
  next hij =>
    obtain ⟨rfl, -⟩ := hij
    obtain rfl : nd = md := Option.some.inj (h.symm.trans hj)
    exact ⟨q, rfl⟩
  next => exact ⟨md.inq, by rw [hj, md.setInq_self]⟩

theorem State.keepsNodes_allocated (s : State) (nd : Node) : s.keepsNodes (s.allocated nd) := by
  intro j md hj
  refine ⟨md.inq, ?_⟩
  rw [State.nodeAt_allocated, if_neg (State.nodeAt_lt hj).ne, hj, md.setInq_self]

theorem State.keepsNodes_of_eq (h : ∀ i, t.nodeAt i = s.nodeAt i) : s.keepsNodes t :=
  fun i nd hi => ⟨nd.inq, by rw [h, hi, nd.setInq_self]⟩

theorem State.treeAt_mono (h : s.keepsNodes t) {i : Nat} {tr : HTree} {ns : List Nat} (ht : s.treeAt i tr ns) :
    t.treeAt i tr ns := by
  induction tr generalizing i ns with
  | leaf sym =>
    obtain ⟨hns, hsym, w, q, hn⟩ := ht
    exact ⟨hns, hsym, w, h i _ hn⟩
  | node l r ihl ihr =>
    obtain ⟨w, q, a, b, na, nb, hn, hl, hr, hns⟩ := ht
    obtain ⟨q', hn'⟩ := h i _ hn
    exact ⟨w, q', a, b, na, nb, hn', ihl hl, ihr hr, hns⟩

/-- A tree stands on allocated nodes. -/
theorem State.treeAt_lt {i : Nat} {tr : HTree} {ns : List Nat} (ht : s.treeAt i tr ns) : ∀ j ∈ ns, j < s.nn := by
  induction tr generalizing i ns with
  | leaf sym =>
    obtain ⟨rfl, -, w, q, hn⟩ := ht
    simpa using State.nodeAt_lt hn
  | node l r ihl ihr =>
    obtain ⟨w, q, a, b, na, nb, hn, hl, hr, rfl⟩ := ht
    intro j hj
    rcases List.mem_cons.1 hj with rfl | hj
    · exact State.nodeAt_lt hn
    · exact (List.mem_append.1 hj).elim (ihl hl j) (ihr hr j)

theorem State.treeAt_isNode {i : Nat} {tr : HTree} {ns : List Nat} {nd : Node} (ht : s.treeAt i tr ns)
    (hn : s.nodeAt i = some nd) : tr.isNode = !nd.kindBit := by
  cases tr with
  | leaf sym =>
    obtain ⟨-, -, w, q, h⟩ := ht
    cases hn.symm.trans h
    rfl
  | node l r =>
    obtain ⟨w, q, a, b, -, -, h, -⟩ := ht
    cases hn.symm.trans h
    rfl

/-! ### Trees that share no node -/

/-- A tree at a root, with the nodes it stands on. -/
structure Grown where
  root : Nat
  tree : HTree
  nodes : List Nat

/-- One leaf at node `i`. -/
def Grown.ofLeaf (i : Nat) (sym : Sym) : Grown := { root := i, tree := .leaf sym, nodes := [i] }

/-- Two trees under the new node `i`. -/
def Grown.join (i : Nat) (x y : Grown) : Grown :=
  { root := i, tree := .node x.tree y.tree, nodes := i :: (x.nodes ++ y.nodes) }

/-- The arena of `s` holds the trees `f`, on nodes of their own. -/
structure Forest (s : State) (f : Multiset Grown) : Prop where
  trees : ∀ x ∈ f, s.treeAt x.root x.tree x.nodes
  apart : (f.bind fun x => (x.nodes : Multiset Nat)).Nodup

/-- The symbols on the leaves of the trees `f`. -/
def leafSyms (f : Multiset Grown) : Multiset Sym := f.bind fun x => (x.tree.syms : Multiset Sym)

theorem leafSyms_ofLeaf (i : Nat) (sym : Sym) (f : Multiset Grown) :
    leafSyms (Grown.ofLeaf i sym ::ₘ f) = sym ::ₘ leafSyms f := by
  simp [leafSyms, Grown.ofLeaf, HTree.syms]

theorem leafSyms_join (i : Nat) (x y : Grown) (f : Multiset Grown) :
    leafSyms (Grown.join i x y ::ₘ f) = leafSyms (x ::ₘ y ::ₘ f) := by
  simp [leafSyms, Grown.join, HTree.syms, ← Multiset.coe_add, add_assoc]

section Forests

variable {f : Multiset Grown}

theorem Forest.mono (h : Forest s f) (hst : s.keepsNodes t) : Forest t f :=
  ⟨fun x hx => State.treeAt_mono hst (h.trees x hx), h.apart⟩

theorem Forest.nn_notMem (h : Forest s f) : s.nn ∉ f.bind fun x => (x.nodes : Multiset Nat) := by
  intro hmem
  obtain ⟨x, hx, hnn⟩ := Multiset.mem_bind.1 hmem
  exact Nat.lt_irrefl _ (State.treeAt_lt (h.trees x hx) s.nn hnn)

theorem Forest.addLeaf (h : Forest s f) {sym : Sym} (hsym : sym.toNat ≤ 256) (w : Nat) (q : Bool) :
    Forest (s.allocated (.leaf sym w q)) (Grown.ofLeaf s.nn sym ::ₘ f) where
  trees := by
    refine Multiset.forall_mem_cons.2 ⟨⟨rfl, hsym, w, q, ?_⟩, (h.mono (s.keepsNodes_allocated _)).trees⟩
    exact (s.nodeAt_allocated _ _).trans (if_pos rfl)
  apart := by
    rw [Multiset.cons_bind]
    exact Multiset.nodup_cons.2 ⟨h.nn_notMem, h.apart⟩

theorem Forest.join {x y : Grown} (h : Forest s (x ::ₘ y ::ₘ f)) (w : Nat) (q : Bool) :
    Forest (s.allocated (.inner w (some x.root) (some y.root) q)) (Grown.join s.nn x y ::ₘ f) where
  trees := by
    obtain ⟨hx, hrest⟩ := Multiset.forall_mem_cons.1 (h.mono (s.keepsNodes_allocated _)).trees
    obtain ⟨hy, hf⟩ := Multiset.forall_mem_cons.1 hrest
    refine Multiset.forall_mem_cons.2 ⟨⟨w, q, x.root, y.root, x.nodes, y.nodes, ?_, hx, hy, rfl⟩, hf⟩
    exact (s.nodeAt_allocated _ _).trans (if_pos rfl)
  apart := by
    have hnodes : ((Grown.join s.nn x y ::ₘ f).bind fun x => (x.nodes : Multiset Nat)) =
        s.nn ::ₘ (x ::ₘ y ::ₘ f).bind fun x => (x.nodes : Multiset Nat) := by
      simp [Grown.join, ← Multiset.cons_coe, ← Multiset.coe_add, add_assoc]
    rw [hnodes]
    exact Multiset.nodup_cons.2 ⟨h.nn_notMem, h.apart⟩

end Forests

/-! ### The priority structure as the set of roots -/

theorem State.queued_congr (h : ∀ i, t.nodeAt i = s.nodeAt i) : t.queued = s.queued := by
  ext i
  simp only [State.mem_queued, h]

theorem State.queued_dequeue {i : Nat} {nd : Node} (h : s.nodeAt i = some nd) :
    (s.setNode i (nd.setInq false)).queued = s.queued.erase i := by
  ext j
  by_cases hj : i = j
  · subst hj
    simp [State.mem_queued, State.nodeAt_setNode, State.nodeAt_lt h]
  · simp [State.mem_queued, State.nodeAt_setNode, hj, Ne.symm hj]

theorem State.nn_notMem_queued (s : State) : s.nn ∉ s.queued := fun h => by
  obtain ⟨nd, hnd, -⟩ := State.mem_queued.1 h
  exact Nat.lt_irrefl _ (State.nodeAt_lt hnd)

theorem State.queued_allocated {nd : Node} (h : nd.inq = true) :
    (s.allocated nd).queued = insert s.nn s.queued := by
  ext i
  by_cases hi : i = s.nn <;> simp [State.mem_queued, State.nodeAt_allocated, hi, h]

theorem State.queued_allocated_out {nd : Node} (h : nd.inq = false) : (s.allocated nd).queued = s.queued := by
  ext i
  by_cases hi : i = s.nn
  · subst hi
    simpa [State.mem_queued, State.nodeAt_allocated, h] using s.nn_notMem_queued
  · simp [State.mem_queued, State.nodeAt_allocated, hi]

/-- A node that leaves the structure is the root of one of the trees. -/
theorem dequeue_root {f : Multiset Grown} (h : s.queued.val = f.map Grown.root) {i : Nat} {nd : Node}
    (hn : s.nodeAt i = some nd) (hq : nd.inq = true) :
    ∃ x g, f = x ::ₘ g ∧ x.root = i ∧ (s.setNode i (nd.setInq false)).queued.val = g.map Grown.root := by
  have hi : i ∈ s.queued.val := State.mem_queued.2 ⟨nd, hn, hq⟩
  rw [h] at hi
  obtain ⟨x, hx, rfl⟩ := Multiset.mem_map.1 hi
  obtain ⟨g, rfl⟩ := Multiset.exists_cons_of_mem hx
  refine ⟨x, g, rfl, rfl, ?_⟩
  rw [State.queued_dequeue hn, Finset.erase_val, h, Multiset.map_cons, Multiset.erase_cons_head]

/-! ### What holds while the tree is built -/

/-- `s` with everything blanked that the builder writes: the rest is what it leaves alone. -/
def State.bystanders (s : State) : State :=
  { s with phase := .idle, nn := 0, qn := 0, scan := 0, root := none, node := [], stk := [], sp := 0 }

theorem State.Alone.of_bystanders (h : s.Alone) (hts : t.bystanders = s.bystanders) : t.Alone where
  noMoves := (congrArg State.moves hts :).trans h.noMoves
  notWaiting := (congrArg State.waiting hts :).trans h.notWaiting
  served := (congrArg State.answers hts :).trans h.served

theorem State.Alone.step_eq {i : Instr} (h : s.Alone) (hsel : decode (.select s.selector) = .ok i) :
    step s = exec i s := by
  rw [step_of_noMoves h.noMoves, coreStep_of_selects h.notWaiting hsel]

/-- The trees `f` have been grown from `s₀`: the priority structure is the set of their roots, the node created last
among them, and their leaves hold the symbols that meet `p`, each once. -/
structure Growing (p : Sym → Prop) (s₀ s : State) (f : Multiset Grown) : Prop where
  inv : s.Inv
  alone : s.Alone
  frame : s.bystanders = s₀.bystanders
  forest : Forest s f
  roots : s.queued.val = f.map Grown.root
  newest : ∀ i, i + 1 = s.nn → i ∈ s.queued
  once : (leafSyms f).Nodup
  occurs : ∀ sym, sym ∈ leafSyms f ↔ p sym

section Growth

variable {p : Sym → Prop} {s₀ : State} {f : Multiset Grown}

theorem Growing.freqAt (h : Growing p s₀ s f) (i : Nat) : s.freqAt i = s₀.freqAt i :=
  (congrArg (State.freqAt · i) h.frame :)

/-- A step of the builder that leaves the arena alone. -/
theorem Growing.congr (h : Growing p s₀ s f) (hstep : step s = .next t)
    (hts : t.bystanders = s.bystanders) (hnn : t.nn = s.nn) (hnode : ∀ i, t.nodeAt i = s.nodeAt i) :
    Growing p s₀ t f where
  inv := stepKeepsTheInvariant s t h.inv hstep
  alone := h.alone.of_bystanders hts
  frame := hts.trans h.frame
  forest := h.forest.mono (State.keepsNodes_of_eq hnode)
  roots := (congrArg Finset.val (State.queued_congr hnode)).trans h.roots
  newest i hi := State.queued_congr hnode ▸ h.newest i (hi.trans hnn)
  once := h.once
  occurs := h.occurs

/-- A step of the builder that ends with `nd`, in the structure, as the newest node of an arena otherwise as `u`. -/
theorem Growing.grow {q : Sym → Prop} {g : Multiset Grown} {x : Grown} {nd : Node} {u : State}
    (h : Growing p s₀ s f) (hstep : step s = .next t) (hts : t.bystanders = s.bystanders)
    (hnn : t.nn = (u.allocated nd).nn) (hnode : ∀ i, t.nodeAt i = (u.allocated nd).nodeAt i) (hq : nd.inq = true)
    (hforest : Forest (u.allocated nd) (x ::ₘ g)) (hx : x.root = u.nn) (hroots : u.queued.val = g.map Grown.root)
    (honce : (leafSyms (x ::ₘ g)).Nodup) (hoccurs : ∀ sym, sym ∈ leafSyms (x ::ₘ g) ↔ q sym) :
    Growing q s₀ t (x ::ₘ g) := by
  have hqueued : t.queued = insert u.nn u.queued :=
    (State.queued_congr hnode).trans (State.queued_allocated hq)
  refine
    { inv := stepKeepsTheInvariant s t h.inv hstep
      alone := h.alone.of_bystanders hts
      frame := hts.trans h.frame
      forest := hforest.mono (State.keepsNodes_of_eq hnode)
      roots := ?_
      newest := fun i hi => ?_
      once := honce
      occurs := hoccurs }
  · rw [hqueued, Finset.insert_val_of_notMem u.nn_notMem_queued, hroots, Multiset.map_cons, hx]
  · obtain rfl : i = u.nn := Nat.succ.inj (hi.trans hnn)
    exact hqueued ▸ Finset.mem_insert_self _ _

end Growth

/-! ### P_LEAVES (R111) -/

/-- While leaves are made every node is in the structure, and there is at most one per symbol examined. -/
theorem State.Inv.leaves (h : s.Inv) (ha : s.Alone) (hp : s.phase = .leaves) : s.qn = s.nn ∧ s.nn ≤ s.scan := by
  have hhere := h.here ha.notWaiting
  rw [phaseInv, hp] at hhere
  obtain ⟨hbuilt, -, hle, -⟩ := hhere
  have hc := hbuilt.count
  exact ⟨by omega, hle⟩

/-- A symbol below `n` that occurs. -/
def State.occursBelow (s : State) (n : Nat) (sym : Sym) : Prop := sym.toNat < n ∧ 0 < s.freqAt sym.toNat

theorem State.occursBelow_succ {n : Nat} (hn : n ≤ 256) (sym : Sym) :
    s.occursBelow (n + 1) sym ↔ sym = BitVec.ofNat 9 n ∧ 0 < s.freqAt n ∨ s.occursBelow n sym := by
  have heq : sym = BitVec.ofNat 9 n ↔ sym.toNat = n := by
    rw [← BitVec.toNat_inj, BitVec.toNat_ofNat, Nat.mod_eq_of_lt (by omega)]
  rw [heq, State.occursBelow, State.occursBelow, Nat.lt_succ_iff_lt_or_eq]
  constructor
  · rintro ⟨hlt | rfl, hf⟩
    exacts [.inr ⟨hlt, hf⟩, .inl ⟨rfl, hf⟩]
  · rintro (⟨rfl, hf⟩ | ⟨hlt, hf⟩)
    exacts [⟨.inr rfl, hf⟩, ⟨.inl hlt, hf⟩]

/-- In P_LEAVES with `n` symbols still to examine. -/
def Scanning (s₀ : State) (n : Nat) (s : State) : Prop :=
  s.phase = .leaves ∧ s.scan + n = 257 ∧ ∃ f, Growing (s₀.occursBelow s.scan) s₀ s f

theorem Scanning.next {s₀ : State} {n : Nat} (h : Scanning s₀ (n + 1) s) :
    ∃ t, step s = .next t ∧ Scanning s₀ n t := by
  obtain ⟨hp, hn, f, hf⟩ := h
  have hscan : s.scan ≤ 256 := by omega
  obtain ⟨-, hle⟩ := hf.inv.leaves hf.alone hp
  have hexec : step s = execPqLeaf s := hf.alone.step_eq ((select_leaves hp).trans (if_pos hscan))
  have hsym : (BitVec.ofNat 9 s.scan).toNat = s.scan := by simp; omega
  rcases Nat.eq_zero_or_pos (s.freqAt s.scan) with h0 | hpos
  · rw [execPqLeaf_skips hscan h0] at hexec
    have hgrow := hf.congr hexec rfl rfl fun _ => rfl
    refine ⟨_, hexec, hp, by show s.scan + 1 + n = 257; omega, f, { hgrow with occurs := fun sym => ?_ }⟩
    rw [State.occursBelow_succ hscan, ← hf.freqAt, h0]
    simpa using hf.occurs sym
  · rw [execPqLeaf_adds hscan (by omega) hpos] at hexec
    refine ⟨_, hexec, hp, by show s.scan + 1 + n = 257; omega, Grown.ofLeaf s.nn (BitVec.ofNat 9 s.scan) ::ₘ f, ?_⟩
    refine hf.grow hexec rfl rfl (fun _ => rfl) rfl (hf.forest.addLeaf (by omega) _ true) rfl hf.roots ?_ fun sym => ?_
    · rw [leafSyms_ofLeaf, Multiset.nodup_cons, hf.occurs]
      exact ⟨fun hocc => hsym.not_lt hocc.1, hf.once⟩
    · show _ ↔ s₀.occursBelow (s.scan + 1) sym
      rw [leafSyms_ofLeaf, Multiset.mem_cons, hf.occurs, State.occursBelow_succ hscan, ← hf.freqAt]
      simp [hpos]

/-! ### P_MERGE (R113, R114, R115) -/

section Merging

variable {p : Sym → Prop} {s₀ : State} {f : Multiset Grown}

theorem Growing.sorted (h : Growing p s₀ s f) : Table.sorted s.node = true := (Table.wf_iff.1 h.inv.nodeWf).1

/-- The invariant's part for P_MERGE. -/
theorem Growing.merging (h : Growing p s₀ s f) (hp : s.phase = .merge) :
    (∃ m, Built m s.qn s) ∧ s.inqCount = s.qn ∧ 0 < s.qn ∧ s.sp = 0 := by
  have hhere := h.inv.here h.alone.notWaiting
  rwa [phaseInv, hp] at hhere

/-- PQ.MERGE joins the trees of the two least roots (R113). -/
theorem Growing.merge (h : Growing p s₀ s f) (hp : s.phase = .merge) (hq : 2 ≤ s.qn) :
    ∃ t g, step s = .next t ∧ t.phase = .merge ∧ t.qn = s.qn - 1 ∧ t.nn = s.nn + 1 ∧ Growing p s₀ t g := by
  obtain ⟨⟨m, hbuilt⟩, hcount, hpos, -⟩ := h.merging hp
  obtain ⟨a, na, hmina, ha, hqa⟩ := minInq_of_inqCount h.sorted (hcount ▸ hpos)
  have hs : Table.sorted (s.dequeued a na).node = true := Table.sorted_set _ _ h.sorted
  have hcounta : (s.dequeued a na).inqCount + 1 = s.inqCount := State.inqCount_dequeue h.sorted ha hqa
  obtain ⟨b, nb, hminb, hb, hqb⟩ := minInq_of_inqCount hs (by omega)
  obtain ⟨x, g, rfl, rfl, hg⟩ := dequeue_root h.roots ha hqa
  obtain ⟨y, g, rfl, rfl, hg'⟩ := dequeue_root (s := s.dequeued x.root na) hg hb hqb
  have hnn : s.nn < 513 := by
    have hc := hbuilt.count
    have hfew : m ≤ 257 := hbuilt.few
    omega
  have hexec : step s = .next (s.merged x.root na y.root nb) :=
    (h.alone.step_eq ((select_merge hp).trans (if_pos hq))).trans
      (execPqMerge_least h.sorted hq hnn ((minInq_eq_some_iff h.sorted _ _).1 hmina)
        ((minInq_eq_some_iff hs _ _).1 hminb))
  let u := (s.dequeued x.root na).dequeued y.root nb
  have hforest : Forest u (x ::ₘ y ::ₘ g) :=
    (h.forest.mono (State.keepsNodes_setInq ha false)).mono
      (State.keepsNodes_setInq (s := s.dequeued x.root na) hb false)
  refine ⟨_, _, hexec, hp, rfl, rfl,
    h.grow (u := u) hexec rfl rfl (fun _ => rfl) rfl (hforest.join _ true) rfl hg' ?_ ?_⟩
  · exact leafSyms_join s.nn x y g ▸ h.once
  · exact fun sym => leafSyms_join s.nn x y g ▸ h.occurs sym

/-- With one node in the structure there is one tree, at the node created last. -/
theorem Growing.one (h : Growing p s₀ s f) (hp : s.phase = .merge) (hq : s.qn = 1) :
    ∃ x nd, f = {x} ∧ x.root + 1 = s.nn ∧ s.least x.root nd := by
  obtain ⟨⟨m, hbuilt⟩, hcount, hpos, -⟩ := h.merging hp
  have hcard : f.card = 1 := by
    rw [← Multiset.card_map Grown.root, ← h.roots, Finset.card_val, ← State.inqCount_eq h.sorted, hcount, hq]
  obtain ⟨x, rfl⟩ := Multiset.card_eq_one.1 hcard
  have honly (i : Nat) (hi : i ∈ s.queued) : i = x.root := by
    have hi : i ∈ s.queued.val := hi
    rw [h.roots] at hi
    simpa using hi
  obtain ⟨i, nd, hmin, hn, hinq⟩ := minInq_of_inqCount h.sorted (hcount ▸ hpos)
  obtain rfl := honly i (State.mem_queued.2 ⟨nd, hn, hinq⟩)
  refine ⟨x, nd, rfl, ?_, (minInq_eq_some_iff h.sorted _ _).1 hmin⟩
  have hlt := State.nodeAt_lt hn
  have hlast := honly (s.nn - 1) (h.newest _ (by omega))
  omega

/-- The last tree is one leaf only where there is one node: a later node stands above all leaves. -/
theorem Growing.isNode_of_one {x : Grown} (h : Growing p s₀ s {x}) (hp : s.phase = .merge) (hq : s.qn = 1)
    (hx : x.root + 1 = s.nn) : x.tree.isNode = decide (1 < s.nn) := by
  obtain ⟨⟨m, hbuilt⟩, -⟩ := h.merging hp
  obtain ⟨nd, hnd, hkind, -⟩ := hbuilt.entry x.root (by omega)
  have hc := hbuilt.count
  rw [State.treeAt_isNode (h.forest.trees x (Multiset.mem_singleton_self x)) hnd, hkind, ← decide_not, decide_eq_decide]
  omega

/-- The tree of a lone node has one symbol. -/
theorem Growing.lone (h : Growing p s₀ s f) (hp : s.phase = .merge) (hq : s.qn = 1) (hnn : s.nn = 1) :
    ∃ sym, ∀ sym', p sym' ↔ sym' = sym := by
  obtain ⟨x, -, rfl, hx, -⟩ := h.one hp hq
  have hleaf : x.tree.isNode = false := (h.isNode_of_one hp hq hx).trans (by simp [hnn])
  have hocc := h.occurs
  cases htr : x.tree with
  | leaf sym => exact ⟨sym, fun sym' => by rw [← hocc]; simp [leafSyms, htr, HTree.syms]⟩
  | node l r => cases htr ▸ hleaf

/-- PQ.WRAP puts the lone tree and the placeholder's leaf under a new node (R115). -/
theorem Growing.wrap (h : Growing p s₀ s f) (hp : s.phase = .merge) (hq : s.qn = 1) (hnn : s.nn = 1) (h0 : ¬ p 0) :
    ∃ t g, step s = .next t ∧ t.phase = .merge ∧ t.qn = 1 ∧ t.nn = 3 ∧
      Growing (fun sym => sym = 0 ∨ p sym) s₀ t g := by
  obtain ⟨x, nd, rfl, hx, hn, hinq, -⟩ := h.one hp hq
  obtain ⟨y, g, hy, -, hg⟩ := dequeue_root h.roots hn hinq
  obtain ⟨rfl, rfl⟩ := (Multiset.singleton_eq_cons_iff _).1 hy
  have hroot : x.root = 0 := by omega
  have hexec : step s = .next (s.wrapped nd) := by
    rw [hroot] at hn
    exact (h.alone.step_eq (select_pqWrap hp hq hnn)).trans (execPqWrap_ok hn)
  let u := (s.setNode x.root (nd.setInq false)).allocated (.leaf 0 0 false)
  let v := u.allocated (.inner nd.wgt (some x.root) (some s.nn) true)
  have hnode (i : Nat) : (s.wrapped nd).nodeAt i = v.nodeAt i := by
    simp [State.nodeAt, State.wrapped, v, u, State.allocated, State.setNode, hnn, hroot]
  have hleaf : Forest u {x, Grown.ofLeaf s.nn 0} := by
    rw [Multiset.pair_comm]
    exact (h.forest.mono (State.keepsNodes_setInq hn false)).addLeaf (by decide) 0 false
  have hv : Forest v {Grown.join u.nn x (Grown.ofLeaf s.nn 0)} :=
    Forest.join (y := Grown.ofLeaf s.nn 0) hleaf nd.wgt true
  have hsyms : leafSyms {Grown.join u.nn x (Grown.ofLeaf s.nn 0)} = 0 ::ₘ leafSyms {x} := by
    rw [← leafSyms_ofLeaf s.nn, ← Multiset.cons_zero, leafSyms_join, Multiset.cons_swap, Multiset.cons_zero]
  refine ⟨_, _, hexec, hp, hq, rfl, h.grow (u := u) hexec rfl ?_ hnode rfl hv rfl ?_ ?_ fun sym => ?_⟩
  · show 3 = s.nn + 1 + 1
    omega
  · exact (congrArg Finset.val (State.queued_allocated_out rfl)).trans hg
  · exact hsyms ▸ Multiset.nodup_cons.2 ⟨fun hmem => h0 ((h.occurs 0).1 hmem), h.once⟩
  · rw [← h.occurs, ← Multiset.mem_cons, ← hsyms]
    rfl

/-- What the builder leaves behind (R110, R116), the symbols of the tree being those that meet `p`. -/
structure Finished (p : Sym → Prop) (s₀ t : State) (r : Nat) (tr : HTree) (ns : List Nat) : Prop where
  phase : t.phase = .derive
  frame : t.bystanders = s₀.bystanders
  root : t.root = some r
  last : r + 1 = t.nn
  tree : t.treeAt r tr ns
  apart : ns.Nodup
  inner : tr.isNode = true
  once : tr.syms.Nodup
  occurs : ∀ sym, sym ∈ tr.syms ↔ p sym
  sp : t.sp = 1
  top : t.top = some { n := some r, code := some Code.empty }
  qn : t.qn = 0

/-- PQ.ROOT takes the last tree (R114). -/
theorem Growing.finish (h : Growing p s₀ s f) (hp : s.phase = .merge) (hq : s.qn = 1) (hnn : 1 < s.nn) :
    ∃ t r tr ns, step s = .next t ∧ Finished p s₀ t r tr ns := by
  obtain ⟨-, -, hpos, hsp⟩ := h.merging hp
  obtain ⟨x, nd, rfl, hx, hleast⟩ := h.one hp hq
  have hexec := (h.alone.step_eq (select_pqRoot hp hq hnn)).trans (execPqRoot_least h.sorted hpos (by omega) hleast)
  have htree := h.forest.trees x (Multiset.mem_singleton_self x)
  have hsyms : leafSyms {x} = (x.tree.syms : Multiset Sym) := Multiset.singleton_bind _ _
  refine ⟨_, x.root, x.tree, x.nodes, hexec,
    { phase := rfl
      frame := h.frame
      root := rfl
      last := hx
      tree := State.treeAt_mono (t := s.rooted x.root nd) (State.keepsNodes_setInq hleast.1 false) htree
      apart := ?_
      inner := (h.isNode_of_one hp hq hx).trans (decide_eq_true hnn)
      once := Multiset.coe_nodup.1 (hsyms ▸ h.once)
      occurs := fun sym => by rw [← h.occurs, hsyms, Multiset.mem_coe]
      sp := congrArg Nat.succ hsp
      top := Table.get?_set_self s.stk s.sp _
      qn := Nat.sub_eq_zero_of_le hq.le }⟩
  have hapart := h.forest.apart
  rwa [Multiset.singleton_bind, Multiset.coe_nodup] at hapart

end Merging

/-- In P_MERGE with `n` merges still to make and more than one node. -/
def Merging (p : Sym → Prop) (s₀ : State) (n : Nat) (s : State) : Prop :=
  s.phase = .merge ∧ s.qn = n + 1 ∧ 1 < s.nn ∧ ∃ f, Growing p s₀ s f

theorem Merging.next {p : Sym → Prop} {s₀ : State} {n : Nat} (h : Merging p s₀ (n + 1) s) :
    ∃ t, step s = .next t ∧ Merging p s₀ n t := by
  obtain ⟨hp, hq, hnn, f, hf⟩ := h
  obtain ⟨t, g, hstep, hpt, hqt, hnnt, hg⟩ := hf.merge hp (by omega)
  exact ⟨t, hstep, hpt, by omega, by omega, g, hg⟩

/-! ### The two phases together -/

/-- A run of steps that each count a number down. -/
theorem run_of_countdown {P : Nat → State → Prop}
    (hstep : ∀ {n s}, P (n + 1) s → ∃ t, step s = .next t ∧ P n t) {n : Nat} {s : State} (h : P n s) :
    ∃ t, run n s = .next t ∧ P 0 t := by
  induction n generalizing s with
  | zero => exact ⟨s, rfl, h⟩
  | succ n ih =>
    obtain ⟨t, hst, ht⟩ := hstep h
    obtain ⟨u, hrun, hu⟩ := ih ht
    exact ⟨u, (run_succ n hst).trans hrun, hu⟩

/-- Nothing has grown when P_LEAVES begins. -/
theorem Growing.init (hinv : s.Inv) (halone : s.Alone) (hp : s.phase = .leaves) (hscan : s.scan = 0) :
    Growing (s.occursBelow s.scan) s s 0 := by
  obtain ⟨-, hle⟩ := hinv.leaves halone hp
  have hnn : s.nn = 0 := by omega
  exact
    { inv := hinv
      alone := halone
      frame := rfl
      forest := ⟨fun x hx => absurd hx (Multiset.notMem_zero x), by simp⟩
      roots := by simp [State.queued, hnn]
      newest := fun i hi => absurd (hi.trans hnn) i.succ_ne_zero
      once := by simp [leafSyms]
      occurs := fun sym => by simp [leafSyms, State.occursBelow, hscan] }

/-- P_LEAVES makes the leaves of all symbols that occur in 257 steps, and ends (R117). -/
theorem run_leaves (hinv : s.Inv) (halone : s.Alone) (hp : s.phase = .leaves) (hscan : s.scan = 0) :
    ∃ t f, run 258 s = .next t ∧ t.phase = .merge ∧ t.qn = t.nn ∧ Growing (s.occursBelow 257) s t f := by
  have hstart : Scanning s 257 s := ⟨hp, by omega, 0, Growing.init hinv halone hp hscan⟩
  obtain ⟨t, hrun, hpt, hscant, f, hf⟩ := run_of_countdown Scanning.next hstart
  have hscant : t.scan = 257 := hscant
  obtain ⟨hqt, -⟩ := hf.inv.leaves hf.alone hpt
  have hexec : step t = .next (t.enter .merge) := by
    refine hf.alone.step_eq (i := .pqScanEnd) ((select_leaves hpt).trans ?_)
    rw [if_neg (by omega), if_pos hscant]
  refine ⟨_, f, (run_add 1 hrun).trans (run_succ 0 hexec), rfl, hqt, ?_⟩
  exact hscant ▸ hf.congr hexec rfl rfl fun _ => rfl

/-- The symbols of the built tree (R116): those that occur, and the placeholder where no byte does. -/
def State.builtSym (s : State) (sym : Sym) : Prop :=
  sym.toNat ≤ 256 ∧ 0 < s.freqAt sym.toNat ∨ sym = 0 ∧ ∀ v, v < 256 → s.freqAt v = 0

theorem State.occursBelow_257 {sym : Sym} : s.occursBelow 257 sym ↔ sym.toNat ≤ 256 ∧ 0 < s.freqAt sym.toNat :=
  and_congr_left' Nat.lt_succ_iff

/-- A symbol that occurs and is not the sentinel is a byte. -/
theorem State.occursBelow.byte {sym : Sym} (h : s.occursBelow 257 sym) (hne : sym ≠ 256) :
    sym.toNat < 256 ∧ s.freqAt sym.toNat ≠ 0 := by
  have hne : sym.toNat ≠ 256 := fun he => hne (BitVec.eq_of_toNat_eq he)
  exact ⟨by have := h.1; omega, h.2.ne'⟩

/-- With two leaves or more some byte occurs, and no placeholder is needed. -/
theorem Finished.builtSym_of_occurs {r : Nat} {tr : HTree} {ns : List Nat}
    (h : Finished (s.occursBelow 257) s t r tr ns) : Finished s.builtSym s t r tr ns := by
  obtain ⟨sym, hsym, hne⟩ := HTree.exists_sym_ne h.inner h.once 256
  obtain ⟨hlt, hfreq⟩ := ((h.occurs sym).1 hsym).byte hne
  refine { h with occurs := fun sym' => ?_ }
  rw [h.occurs, State.occursBelow_257, State.builtSym, or_iff_left]
  exact fun hzero => hfreq (hzero.2 _ hlt)

/-- With one leaf, the sentinel's, no byte occurs, and PQ.WRAP adds the placeholder. -/
theorem builtSym_of_lone {sym : Sym} (hlone : ∀ sym', s.occursBelow 257 sym' ↔ sym' = sym) (heod : s.freqAt 256 = 1)
    (sym' : Sym) : sym' = 0 ∨ s.occursBelow 257 sym' ↔ s.builtSym sym' := by
  obtain rfl : 256 = sym := (hlone 256).1 ⟨by decide, heod ▸ Nat.one_pos⟩
  have hzero (v : Nat) (hv : v < 256) : s.freqAt v = 0 := by
    by_contra hne
    have hval : (BitVec.ofNat 9 v).toNat = v := by simp; omega
    have hocc := (hlone (BitVec.ofNat 9 v)).1 ⟨by omega, hval.symm ▸ Nat.pos_of_ne_zero hne⟩
    rw [hocc] at hval
    exact hv.ne' hval
  rw [State.occursBelow_257, State.builtSym, or_comm, and_iff_left hzero]

/-- P_MERGE takes one step per leaf, and two for a lone leaf (R116). -/
theorem run_merge {s₀ : State} {f : Multiset Grown} {n : Nat} (h : Growing (s₀.occursBelow 257) s₀ s f)
    (hp : s.phase = .merge) (hq : s.qn = n + 1) (hnn : s.qn = s.nn) (heod : s₀.freqAt 256 = 1) :
    ∃ k t r tr ns, k ≤ max 2 (n + 1) ∧ run k s = .next t ∧ Finished s₀.builtSym s₀ t r tr ns := by
  cases n with
  | zero =>
    obtain ⟨sym, hlone⟩ := h.lone hp hq (hnn.symm.trans hq)
    have h256 : 256 = sym := (hlone 256).1 ⟨by decide, heod ▸ Nat.one_pos⟩
    have h0 : ¬ s₀.occursBelow 257 0 := fun hocc => absurd (((hlone 0).1 hocc).trans h256.symm) (by decide)
    obtain ⟨t, g, hwrap, hpt, hqt, hnnt, hg⟩ := h.wrap hp hq (hnn.symm.trans hq) h0
    obtain ⟨u, r, tr, ns, hroot, hu⟩ := hg.finish hpt hqt (by omega)
    refine ⟨2, u, r, tr, ns, le_max_left _ _, (run_succ 1 hwrap).trans (run_succ 0 hroot), ?_⟩
    exact { hu with occurs := fun sym' => (hu.occurs sym').trans (builtSym_of_lone hlone heod sym') }
  | succ n =>
    have hstart : Merging (s₀.occursBelow 257) s₀ (n + 1) s := ⟨hp, hq, by omega, f, h⟩
    obtain ⟨t, hrun, hpt, hqt, hnnt, g, hg⟩ := run_of_countdown Merging.next hstart
    obtain ⟨u, r, tr, ns, hroot, hu⟩ := hg.finish hpt hqt hnnt
    exact ⟨n + 1 + 1, u, r, tr, ns, le_max_right _ _, (run_add 1 hrun).trans (run_succ 0 hroot), hu.builtSym_of_occurs⟩

/-- Settles O54: P_LEAVES grows one leaf for each symbol that occurs, P_MERGE joins them to one tree. -/
theorem builderMakesTheTree : Obligations.BuilderMakesTheTree := by
  intro s hinv halone hp hscan heod
  obtain ⟨t, f, hleaves, hpt, hqt, hf⟩ := run_leaves hinv halone hp hscan
  have hqle : t.qn ≤ 257 := hf.inv.qnLe
  obtain ⟨-, -, hpos, -⟩ := hf.merging hpt
  obtain ⟨k, u, r, tr, ns, hk, hmerge, hu⟩ :=
    run_merge (n := t.qn - 1) hf hpt (Nat.sub_add_cancel hpos).symm hqt heod
  exact ⟨258 + k, u, r, tr, ns, by omega, (run_add k hleaves).trans hmerge, hu.phase, hu.root, hu.last, hu.tree,
    hu.apart, hu.inner, hu.once, hu.occurs, hu.sp, hu.top, hu.qn, (congrArg State.freq hu.frame :),
    (congrArg State.code hu.frame :), (congrArg State.inp hu.frame :), (congrArg State.out hu.frame :),
    (congrArg State.par hu.frame :), halone.of_bystanders hu.frame⟩

end Sys2Proof.Machine
end

section
/-! ## PROOFS: codes of a tree (spec/42_code_table.md R129) -/

namespace Sys2Proof

/-! ### Codes below a node -/

theorem HTree.codes_append (t : HTree) (p q : Bits) :
    t.codes (p ++ q) = (t.codes q).map fun e => (e.1, p ++ e.2) := by
  induction t generalizing q with
  | leaf sym => rfl
  | node l r ihl ihr => simp [HTree.codes, List.append_assoc, ihl, ihr]

/-- The codes of a subtree, each with the bit `b` in front (R127). -/
def HTree.codesUnder (b : Bool) (t : HTree) : List (Sym × Bits) := (t.codes []).map fun e => (e.1, b :: e.2)

theorem HTree.codes_node (l r : HTree) : (HTree.node l r).codes [] = l.codesUnder false ++ r.codesUnder true :=
  congrArg₂ (· ++ ·) (l.codes_append [false] []) (r.codes_append [true] [])

theorem HTree.mem_codesUnder {b : Bool} {t : HTree} {e : Sym × Bits} :
    e ∈ t.codesUnder b ↔ ∃ p, (e.1, p) ∈ t.codes [] ∧ e.2 = b :: p := by
  constructor
  · intro h
    obtain ⟨⟨sym, p⟩, hmem, rfl⟩ := List.mem_map.1 h
    exact ⟨p, hmem, rfl⟩
  · rintro ⟨p, hmem, hp⟩
    exact List.mem_map.2 ⟨(e.1, p), hmem, Prod.ext rfl hp.symm⟩

theorem HTree.map_fst_codes (t : HTree) (p : Bits) : (t.codes p).map Prod.fst = t.syms := by
  induction t generalizing p with
  | leaf sym => rfl
  | node l r ihl ihr => rw [HTree.codes, List.map_append, ihl, ihr, HTree.syms]

theorem HTree.mem_syms {t : HTree} {sym : Sym} : sym ∈ t.syms ↔ ∃ p, (sym, p) ∈ t.codes [] := by
  rw [← t.map_fst_codes []]
  simp

/-! ### Lengths -/

theorem HTree.length_le_depth {t : HTree} {e : Sym × Bits} (h : e ∈ t.codes []) : e.2.length ≤ t.depth := by
  induction t generalizing e with
  | leaf sym => obtain rfl := List.mem_singleton.1 h; exact Nat.zero_le _
  | node l r ihl ihr =>
    rw [HTree.codes_node, List.mem_append, HTree.mem_codesUnder, HTree.mem_codesUnder] at h
    rcases h with ⟨p, hmem, hp⟩ | ⟨p, hmem, hp⟩ <;> rw [hp, List.length_cons, HTree.depth]
    · have hle : p.length ≤ l.depth := ihl hmem
      omega
    · have hle : p.length ≤ r.depth := ihr hmem
      omega

theorem HTree.word_ne_nil {t : HTree} (ht : t.isNode = true) {e : Sym × Bits} (h : e ∈ t.codes []) : e.2 ≠ [] := by
  cases t with
  | leaf sym => cases ht
  | node l r =>
    rw [HTree.codes_node, List.mem_append, HTree.mem_codesUnder, HTree.mem_codesUnder] at h
    rcases h with ⟨p, -, hp⟩ | ⟨p, -, hp⟩ <;> simp [hp]

theorem HTree.depth_lt_leaves (t : HTree) : t.depth < t.syms.length := by
  induction t with
  | leaf sym => exact Nat.one_pos
  | node l r ihl ihr => simp only [HTree.depth, HTree.syms, List.length_append]; omega

theorem HTree.size_succ (t : HTree) : t.size + 1 = 2 * t.syms.length := by
  induction t with
  | leaf sym => rfl
  | node l r ihl ihr => simp only [HTree.size, HTree.syms, List.length_append]; omega

/-! ### Leaves as indices of CODE -/

theorem HTree.nodup_indices {tr : HTree} (honce : tr.syms.Nodup) : (tr.syms.map BitVec.toNat).Nodup :=
  honce.map fun _ _ => BitVec.eq_of_toNat_eq

theorem HTree.indices_subset {tr : HTree} (hsyms : ∀ sym ∈ tr.syms, sym.toNat ≤ 256) :
    (tr.syms.map BitVec.toNat).toFinset ⊆ Finset.range 257 := by
  intro v hv
  obtain ⟨sym, hsym, rfl⟩ := List.mem_map.1 (List.mem_toFinset.1 hv)
  exact Finset.mem_range.2 (Nat.lt_succ_of_le (hsyms sym hsym))

/-- A tree that has each symbol once is not deeper than a code can be long (R128). -/
theorem HTree.depth_le_maxLen {tr : HTree} (honce : tr.syms.Nodup) (hsyms : ∀ sym ∈ tr.syms, sym.toNat ≤ 256) :
    tr.depth ≤ 256 := by
  have hcard := Finset.card_le_card (HTree.indices_subset hsyms)
  rw [List.toFinset_card_of_nodup (HTree.nodup_indices honce), List.length_map, Finset.card_range] at hcard
  have := tr.depth_lt_leaves
  omega

/-! ### Code words apart from each other, and the Kraft sum (R129) -/

/-- Neither code word begins with the other. -/
def Apart (a b : Sym × Bits) : Prop := ¬ a.2 <+: b.2 ∧ ¬ b.2 <+: a.2

theorem HTree.pairwise_codesUnder {b : Bool} {t : HTree} (h : (t.codes []).Pairwise Apart) :
    (t.codesUnder b).Pairwise Apart :=
  List.pairwise_map.2 (h.imp fun hab => by simpa [Apart, List.cons_prefix_cons] using hab)

theorem HTree.pairwise_codes (t : HTree) : (t.codes []).Pairwise Apart := by
  induction t with
  | leaf sym => exact List.pairwise_singleton _ _
  | node l r ihl ihr =>
    rw [HTree.codes_node]
    refine List.pairwise_append.2 ⟨pairwise_codesUnder ihl, pairwise_codesUnder ihr, fun a ha b hb => ?_⟩
    obtain ⟨p, -, hp⟩ := HTree.mem_codesUnder.1 ha
    obtain ⟨q, -, hq⟩ := HTree.mem_codesUnder.1 hb
    simp [Apart, hp, hq, List.cons_prefix_cons]

theorem HTree.apart_of_mem {t : HTree} {a b : Sym × Bits} (ha : a ∈ t.codes []) (hb : b ∈ t.codes []) (hab : a ≠ b) :
    Apart a b :=
  have : Std.Symm Apart := ⟨fun _ _ h => h.symm⟩
  t.pairwise_codes.forall ha hb hab

/-- The Kraft sum of code words, in units of `2 ^ -n`. -/
def kraft (n : Nat) (es : List (Sym × Bits)) : Nat := (es.map fun e => 2 ^ (n - e.2.length)).sum

theorem kraft_codesUnder (n : Nat) (b : Bool) (t : HTree) : kraft (n + 1) (t.codesUnder b) = kraft n (t.codes []) := by
  simp [kraft, HTree.codesUnder, Function.comp_def]

theorem HTree.kraft_codes {t : HTree} {n : Nat} (h : t.depth ≤ n) : kraft n (t.codes []) = 2 ^ n := by
  induction t generalizing n with
  | leaf sym => simp [kraft, HTree.codes]
  | node l r ihl ihr =>
    have hdepth : 1 + max l.depth r.depth ≤ n := h
    obtain ⟨m, rfl⟩ : ∃ m, n = m + 1 := ⟨n - 1, by omega⟩
    have hsum : kraft (m + 1) ((node l r).codes []) = kraft m (l.codes []) + kraft m (r.codes []) := by
      rw [← kraft_codesUnder m false, ← kraft_codesUnder m true, HTree.codes_node, kraft, List.map_append,
        List.sum_append]
      rfl
    rw [hsum, ihl (by omega), ihr (by omega), Nat.pow_succ]
    omega

/-- The codes are exactly the paths to the leaves. -/
theorem HTree.mem_codes_iff {t : HTree} {sym : Sym} {p : Bits} : (sym, p) ∈ t.codes [] ↔ t.follow p = some sym := by
  induction t generalizing p with
  | leaf x => cases p <;> simp [HTree.codes, HTree.follow, eq_comm]
  | node l r ihl ihr =>
    rw [HTree.codes_node, List.mem_append, HTree.mem_codesUnder, HTree.mem_codesUnder]
    match p with
    | [] => simp [HTree.follow]
    | false :: q => simp [HTree.follow, ihl]
    | true :: q => simp [HTree.follow, ihr]

end Sys2Proof
end

section
/-! ## PROOFS: the code table (spec/42_code_table.md R126, R127, R129) -/

namespace Sys2Proof.Machine

variable {s : State}

/-! ### TBL.STEP (R126) -/

/-- What P_DERIVE writes: CODE, and STK with SP. -/
def State.derived (s : State) (code : Table Code) (stk : Table StkEntry) (sp : Nat) : State :=
  { s with code := code, stk := stk, sp := sp }

theorem State.Alone.derived (h : s.Alone) (code : Table Code) (stk : Table StkEntry) (sp : Nat) :
    (s.derived code stk sp).Alone := ⟨h.noMoves, h.notWaiting, h.served⟩

theorem State.treeAt_derived {i : Nat} {tr : HTree} {ns : List Nat} (h : s.treeAt i tr ns) (code : Table Code)
    (stk : Table StkEntry) (sp : Nat) : (s.derived code stk sp).treeAt i tr ns :=
  State.treeAt_mono (s := s) (t := s.derived code stk sp) (State.keepsNodes_of_eq fun _ => rfl) h

/-- The state after TBL.STEP at a leaf (R126). -/
def State.recorded (s : State) (sym : Sym) (c : Code) : State :=
  s.derived (Table.put s.code Code.empty sym.toNat c) s.stk (s.sp - 1)

/-- The state after TBL.STEP at an internal node (R126). -/
def State.branched (s : State) (l r : Option Nat) (c : Code) : State :=
  s.derived s.code
    (Table.set (Table.set s.stk (s.sp - 1) { n := r, code := some (c.descend true) }) s.sp
      { n := l, code := some (c.descend false) }) (s.sp + 1)

theorem State.get?_branched_right (hsp : 0 < s.sp) (l r : Option Nat) (c : Code) :
    Table.get? (s.branched l r c).stk (s.sp - 1) = some { n := r, code := some (c.descend true) } :=
  (Table.get?_set_ne _ _ (by omega)).trans (Table.get?_set_self _ _ _)

theorem State.get?_branched_left (l r : Option Nat) (c : Code) :
    Table.get? (s.branched l r c).stk s.sp = some { n := l, code := some (c.descend false) } :=
  Table.get?_set_self _ _ _

theorem State.get?_branched_below {p : Nat} (hp : p + 1 < s.sp) (l r : Option Nat) (c : Code) :
    Table.get? (s.branched l r c).stk p = Table.get? s.stk p :=
  (Table.get?_set_ne _ _ (by omega)).trans (Table.get?_set_ne _ _ (by omega))

section Visit

variable {n : Nat} {c : Code}

theorem execTblStep_leaf {sym : Sym} {w : Nat} {q : Bool} (htop : s.top = some { n := some n, code := some c })
    (hn : s.nodeAt n = some (.leaf sym w q)) (hsym : sym.toNat ≤ 256) :
    execTblStep s = .next (s.recorded sym c) :=
  (pop_node htop hn).trans (if_pos (Nat.lt_succ_of_le hsym))

theorem execTblStep_inner {w : Nat} {l r : Option Nat} {q : Bool}
    (htop : s.top = some { n := some n, code := some c }) (hn : s.nodeAt n = some (.inner w l r q))
    (hlen : c.len + 1 ≤ 256) (hsp : s.sp ≤ 512) : execTblStep s = .next (s.branched l r c) := by
  obtain ⟨hpos, -⟩ := State.top_pos htop
  have hback : s.sp - 1 + 1 = s.sp := Nat.sub_add_cancel hpos
  refine (pop_node htop hn).trans ((if_pos hlen).trans ?_)
  rw [push_ok (s := { s with sp := s.sp - 1 }) _ (by show s.sp - 1 < 513; omega),
    push_ok (s := { s with stk := _, sp := s.sp - 1 + 1 }) _ (by show s.sp - 1 + 1 < 513; omega), hback]
  rfl

theorem select_tblStep (hp : s.phase = .derive) (hsp : 0 < s.sp) : decode (.select s.selector) = .ok .tblStep := by
  rw [select_derive hp, if_pos hsp]

/-- Settles O27: a leaf and an internal node have one equation each. -/
theorem visitOneNode : Obligations.VisitOneNode := by
  intro s n c htop
  obtain ⟨hpos, -⟩ := State.top_pos htop
  refine ⟨fun hp => select_tblStep hp hpos, fun sym w q hn hsym hwf => ?_, fun w l r q hn hlen hsp => ?_⟩
  · refine ⟨s.recorded sym c, execTblStep_leaf htop hn hsym, rfl, fun i => ?_⟩
    simp only [eq_comm (a := i)]
    exact State.codeAt_setCode (s := { s with sp := s.sp - 1 }) hwf sym.toNat c i
  · refine ⟨s.branched l r c, execTblStep_inner htop hn hlen hsp, rfl, State.get?_branched_right hpos l r c, ?_,
      fun p hp => State.get?_branched_below hp l r c⟩
    simpa [Code.descend] using State.get?_branched_left (s := s) l r c

end Visit

/-! ### A bit string as a code -/

/-- The code whose LEN bits are `p` (R127). -/
def Code.ofWord (p : Bits) : Code := { len := p.length, bits := BitVec.ofNat 256 (valOf p) }

theorem Code.ofWord_ne_empty {p : Bits} (h : p ≠ []) : Code.ofWord p ≠ Code.empty :=
  fun he => h (List.length_eq_zero_iff.1 (congrArg Code.len he :))

/-- Appending the descent bit to BITS appends it to the word (R126). -/
theorem Code.descend_ofWord (p : Bits) (b : Bool) : (Code.ofWord p).descend b = Code.ofWord (p ++ [b]) := by
  have hor (x : BitVec 256) : x <<< 1 ||| (if b then 1#256 else 0#256) = x <<< 1 + if b then 1#256 else 0#256 := by
    cases b
    · simp
    · exact (BitVec.shiftLeft_add_eq_shiftLeft_or (x := 1#256) (y := x)).symm
  have hbits : BitVec.ofNat 256 (valOf p) <<< 1 ||| (if b then 1#256 else 0#256) =
      BitVec.ofNat 256 (valOf (p ++ [b])) := by
    rw [hor]
    apply BitVec.eq_of_toNat_eq
    cases b <;> simp [valOf_append, valOf, Nat.shiftLeft_eq]
  exact congrArg₂ Code.mk (List.length_append (as := p) (bs := [b])).symm hbits

theorem Code.word_ofWord {p : Bits} (h : p.length ≤ 256) : (Code.ofWord p).word = p := by
  have hlt : valOf p < 2 ^ 256 := (valOf_lt p).trans_le (Nat.pow_le_pow_right (by decide) h)
  rw [Code.word, Code.ofWord, BitVec.toNat_ofNat, Nat.mod_eq_of_lt hlt, bitsOf_valOf]

/-! ### Recording the codes of all leaves -/

/-- A code table after the codes `es` have been recorded in it, in their order. -/
def recordAll (t : Table Code) (es : List (Sym × Bits)) : Table Code :=
  es.foldl (fun t e => Table.put t Code.empty e.1.toNat (Code.ofWord e.2)) t

theorem recordAll_append (t : Table Code) (es fs : List (Sym × Bits)) :
    recordAll t (es ++ fs) = recordAll (recordAll t es) fs := List.foldl_append

section Recording

variable {t : Table Code} {es : List (Sym × Bits)}

theorem getD_recordAll_of_ne (hne : ∀ e ∈ es, e.2 ≠ []) {v : Nat} (hv : ∀ e ∈ es, e.1.toNat ≠ v) :
    Table.getD (recordAll t es) Code.empty v = Table.getD t Code.empty v := by
  induction es generalizing t with
  | nil => rfl
  | cons e r ih =>
    obtain ⟨hnee, hner⟩ := List.forall_mem_cons.1 hne
    obtain ⟨hve, hvr⟩ := List.forall_mem_cons.1 hv
    exact (ih hner hvr).trans ((Table.getD_put_of_ne t (Code.ofWord_ne_empty hnee) _ v).trans (if_neg hve))

theorem getD_recordAll_of_mem (hne : ∀ e ∈ es, e.2 ≠ []) (hnodup : (es.map Prod.fst).Nodup) {e : Sym × Bits}
    (he : e ∈ es) : Table.getD (recordAll t es) Code.empty e.1.toNat = Code.ofWord e.2 := by
  induction es generalizing t with
  | nil => cases he
  | cons f r ih =>
    obtain ⟨hnef, hner⟩ := List.forall_mem_cons.1 hne
    obtain ⟨hf, hr⟩ := List.nodup_cons.1 hnodup
    rcases List.mem_cons.1 he with rfl | he
    · have hother (g : Sym × Bits) (hg : g ∈ r) : g.1.toNat ≠ e.1.toNat :=
        fun hge => hf (BitVec.eq_of_toNat_eq hge ▸ List.mem_map_of_mem hg)
      exact (getD_recordAll_of_ne hner hother).trans
        ((Table.getD_put_of_ne t (Code.ofWord_ne_empty hnef) _ _).trans (if_pos rfl))
    · exact ih hner hr he

end Recording

/-! ### P_DERIVE as a function (R127) -/

/-- TBL.STEP is next, over the subtree `tr` at the path `p`; the codes in it fit, and so does the stack. -/
structure Visiting (tr : HTree) (p : Bits) (s : State) : Prop where
  alone : s.Alone
  phase : s.phase = .derive
  here : ∃ i ns, s.top = some { n := some i, code := some (Code.ofWord p) } ∧ s.treeAt i tr ns
  short : p.length + tr.depth ≤ 256
  room : s.sp + tr.depth ≤ 513

section Visiting

variable {p : Bits}

theorem Visiting.sp_pos {tr : HTree} (h : Visiting tr p s) : 0 < s.sp := by
  obtain ⟨i, ns, htop, -⟩ := h.here
  exact (State.top_pos htop).1

theorem Visiting.step_eq {tr : HTree} (h : Visiting tr p s) : step s = execTblStep s :=
  h.alone.step_eq (i := .tblStep) (select_tblStep h.phase h.sp_pos)

theorem Visiting.step_leaf {sym : Sym} (h : Visiting (.leaf sym) p s) :
    step s = .next (s.recorded sym (Code.ofWord p)) := by
  obtain ⟨i, ns, htop, -, hsym, w, q, hn⟩ := h.here
  exact h.step_eq.trans (execTblStep_leaf htop hn hsym)

/-- At an internal node the left child is next, and the right one when the entry pushed for it is on top again. -/
theorem Visiting.step_node {l r : HTree} (h : Visiting (.node l r) p s) :
    ∃ stk, step s = .next (s.derived s.code stk (s.sp + 1)) ∧
      Visiting l (p ++ [false]) (s.derived s.code stk (s.sp + 1)) ∧
      (∀ code stk', Table.get? stk' (s.sp - 1) = Table.get? stk (s.sp - 1) →
        Visiting r (p ++ [true]) (s.derived code stk' s.sp)) ∧
      ∀ x, x + 1 < s.sp → Table.get? stk x = Table.get? s.stk x := by
  obtain ⟨i, ns, htop, w, q, a, b, na, nb, hn, hl, hr, -⟩ := h.here
  have hpos := h.sp_pos
  have hshort : p.length + (1 + max l.depth r.depth) ≤ 256 := h.short
  have hroom : s.sp + (1 + max l.depth r.depth) ≤ 513 := h.room
  have hlen (x : Bool) : (p ++ [x]).length = p.length + 1 := List.length_append
  have hleft := State.get?_branched_left (s := s) (some a) (some b) (Code.ofWord p)
  have hright := State.get?_branched_right hpos (some a) (some b) (Code.ofWord p)
  rw [Code.descend_ofWord] at hleft hright
  refine ⟨(s.branched (some a) (some b) (Code.ofWord p)).stk, ?_, ?_, fun code stk hstk => ?_,
    fun x hx => State.get?_branched_below hx _ _ _⟩
  · exact h.step_eq.trans (execTblStep_inner htop hn (by show p.length + 1 ≤ 256; omega) (by omega))
  · exact ⟨h.alone.derived _ _ _, h.phase, ⟨a, na, hleft, State.treeAt_derived hl _ _ _⟩, by rw [hlen]; omega,
      by show s.sp + 1 + l.depth ≤ 513; omega⟩
  · have htopr := (State.top_of_pos (s := s.derived code stk s.sp) hpos).trans (hstk.trans hright)
    exact ⟨h.alone.derived _ _ _, h.phase, ⟨b, nb, htopr, State.treeAt_derived hr _ _ _⟩, by rw [hlen]; omega,
      by show s.sp + r.depth ≤ 513; omega⟩

/-- A subtree takes one step per node: its codes are recorded, its entry is popped, and the entries below stay. -/
theorem run_visits {tr : HTree} (h : Visiting tr p s) :
    ∃ stk, run tr.size s = .next (s.derived (recordAll s.code (tr.codes p)) stk (s.sp - 1)) ∧
      ∀ x, x + 1 < s.sp → Table.get? stk x = Table.get? s.stk x := by
  induction tr generalizing s p with
  | leaf sym => exact ⟨s.stk, run_succ 0 h.step_leaf, fun _ _ => rfl⟩
  | node l r ihl ihr =>
    have hpos := h.sp_pos
    have hsize : (HTree.node l r).size = l.size + r.size + 1 := by rw [HTree.size]; omega
    obtain ⟨stk, hstep, hl, hr, hbelow⟩ := h.step_node
    obtain ⟨stkl, hrunl, hbelowl⟩ := ihl hl
    have hkept (x : Nat) (hx : x < s.sp) : Table.get? stkl x = Table.get? stk x := hbelowl x (Nat.succ_lt_succ hx)
    obtain ⟨stkr, hrunr, hbelowr⟩ := ihr (hr (recordAll s.code (l.codes (p ++ [false]))) stkl (hkept _ (by omega)))
    refine ⟨stkr, ?_, fun x hx => ?_⟩
    · rw [hsize, run_succ _ hstep, run_add _ hrunl, HTree.codes, recordAll_append]
      exact hrunr
    · exact (hbelowr x hx).trans ((hkept x (by omega)).trans (hbelow x hx))

end Visiting

/-- P_DERIVE of a tree: all its codes are recorded, and TBL.END ends the phase. -/
theorem run_derive {r : Nat} {tr : HTree} {ns : List Nat} (halone : s.Alone) (hp : s.phase = .derive) (hsp : s.sp = 1)
    (htop : s.top = some { n := some r, code := some Code.empty }) (htree : s.treeAt r tr ns)
    (hdepth : tr.depth ≤ 256) :
    ∃ stk, run (tr.size + 1) s = .next ((s.derived (recordAll s.code (tr.codes [])) stk 0).enter .wmagic) := by
  obtain ⟨stk, hrun, -⟩ := run_visits (p := []) ⟨halone, hp, ⟨r, ns, htop, htree⟩, by simpa using hdepth, by omega⟩
  rw [hsp] at hrun
  have hend := (halone.derived (recordAll s.code (tr.codes [])) stk 0).step_eq (i := .tblEnd) (select_derive hp)
  exact ⟨stk, (run_add 1 hrun).trans (run_succ 0 hend)⟩

/-- Settles O55: P_DERIVE records the codes in pre-order, and no later one of distinct symbols overwrites an earlier. -/
theorem derivedCodesArePaths : Obligations.DerivedCodesArePaths := by
  intro s r tr ns halone hp hcode hsp htop htree hdepth hinner honce
  obtain ⟨stk, hrun⟩ := run_derive halone hp hsp htop htree hdepth
  have hne (e : Sym × Bits) (he : e ∈ tr.codes []) : e.2 ≠ [] := HTree.word_ne_nil hinner he
  have hnodup : ((tr.codes []).map Prod.fst).Nodup := by rwa [HTree.map_fst_codes]
  refine ⟨_, hrun, rfl, fun sym p hmem => getD_recordAll_of_mem hne hnodup hmem, fun v hv => ?_⟩
  refine (getD_recordAll_of_ne hne fun e he => hv e.1 (HTree.mem_syms.2 ⟨e.2, he⟩)).trans ?_
  rw [hcode]
  rfl

/-! ### The derived table (R129) -/

theorem State.treeAt_syms {i : Nat} {tr : HTree} {ns : List Nat} (h : s.treeAt i tr ns) :
    ∀ sym ∈ tr.syms, sym.toNat ≤ 256 := by
  induction tr generalizing i ns with
  | leaf sym =>
    obtain ⟨-, hsym, -⟩ := h
    simpa [HTree.syms] using hsym
  | node l r ihl ihr =>
    obtain ⟨-, -, a, b, na, nb, -, hl, hr, -⟩ := h
    exact List.forall_mem_append.2 ⟨ihl hl, ihr hr⟩

/-- CODE holds the codes of the tree and no others. -/
structure HoldsCodes (tr : HTree) (t : State) : Prop where
  paths : ∀ sym p, (sym, p) ∈ tr.codes [] → t.codeAt sym.toNat = Code.ofWord p
  others : ∀ v, (∀ sym ∈ tr.syms, sym.toNat ≠ v) → t.codeAt v = Code.empty

section Holding

variable {tr : HTree} {t : State}

theorem HoldsCodes.exists_path (h : HoldsCodes tr t) {v : Nat} (hv : (t.codeAt v).len ≠ 0) :
    ∃ sym p, (sym, p) ∈ tr.codes [] ∧ sym.toNat = v ∧ t.codeAt v = Code.ofWord p := by
  by_cases hsym : ∃ sym ∈ tr.syms, sym.toNat = v
  · obtain ⟨sym, hmem, rfl⟩ := hsym
    obtain ⟨p, hp⟩ := HTree.mem_syms.1 hmem
    exact ⟨sym, p, hp, rfl, h.paths sym p hp⟩
  · rw [h.others v fun sym hmem he => hsym ⟨sym, hmem, he⟩] at hv
    exact absurd rfl hv

theorem HoldsCodes.len_le (h : HoldsCodes tr t) (hdepth : tr.depth ≤ 256) {v : Nat} (hv : (t.codeAt v).len ≠ 0) :
    (t.codeAt v).len ≤ 256 := by
  obtain ⟨sym, p, hp, -, hcode⟩ := h.exists_path hv
  rw [hcode]
  exact (HTree.length_le_depth hp).trans hdepth

theorem HoldsCodes.words_apart (h : HoldsCodes tr t) (hdepth : tr.depth ≤ 256) {v w : Nat} (hvw : v ≠ w)
    (hv : (t.codeAt v).len ≠ 0) (hw : (t.codeAt w).len ≠ 0) : ¬ (t.codeAt v).word <+: (t.codeAt w).word := by
  obtain ⟨x, p, hp, rfl, hx⟩ := h.exists_path hv
  obtain ⟨y, q, hq, rfl, hy⟩ := h.exists_path hw
  rw [hx, hy, Code.word_ofWord ((HTree.length_le_depth hp).trans hdepth),
    Code.word_ofWord ((HTree.length_le_depth hq).trans hdepth)]
  exact (HTree.apart_of_mem hp hq fun he => hvw (congrArg (fun e => e.1.toNat) he)).1

/-- What CODE[v] adds to the Kraft sum, in units of `2 ^ -256`. -/
def State.kraftAt (t : State) (v : Nat) : Nat := if (t.codeAt v).len = 0 then 0 else 2 ^ (256 - (t.codeAt v).len)

theorem HoldsCodes.kraft_sum (h : HoldsCodes tr t) (hinner : tr.isNode = true) (honce : tr.syms.Nodup)
    (hsyms : ∀ sym ∈ tr.syms, sym.toNat ≤ 256) : ((List.range 257).map t.kraftAt).sum = 2 ^ 256 := by
  have hzero (v : Nat) (hv : v ∉ (tr.syms.map BitVec.toNat).toFinset) : t.kraftAt v = 0 := by
    refine if_pos (congrArg Code.len (h.others v fun sym hmem he => hv ?_))
    exact List.mem_toFinset.2 (List.mem_map.2 ⟨sym, hmem, he⟩)
  have hleaf (e : Sym × Bits) (he : e ∈ tr.codes []) : t.kraftAt e.1.toNat = 2 ^ (256 - e.2.length) := by
    have hlen : (t.codeAt e.1.toNat).len = e.2.length := congrArg Code.len (h.paths e.1 e.2 he)
    rw [State.kraftAt, hlen, if_neg fun h0 => HTree.word_ne_nil hinner he (List.length_eq_zero_iff.1 h0)]
  calc ((List.range 257).map t.kraftAt).sum
      = ∑ v ∈ Finset.range 257, t.kraftAt v := by
        rw [← List.sum_toFinset _ List.nodup_range, List.toFinset_range]
    _ = ∑ v ∈ (tr.syms.map BitVec.toNat).toFinset, t.kraftAt v :=
        (Finset.sum_subset (HTree.indices_subset hsyms) fun v _ hv => hzero v hv).symm
    _ = ((tr.syms.map BitVec.toNat).map t.kraftAt).sum := List.sum_toFinset _ (HTree.nodup_indices honce)
    _ = kraft 256 (tr.codes []) := by
        rw [← HTree.map_fst_codes tr [], List.map_map, List.map_map]
        exact congrArg List.sum (List.map_congr_left hleaf)
    _ = 2 ^ 256 := HTree.kraft_codes (HTree.depth_le_maxLen honce hsyms)

end Holding

/-- Settles O52: each clause about a tree is an induction over it, and CODE holds what O55 says. -/
theorem treeCodesArePrefixFree : Obligations.TreeCodesArePrefixFree := by
  refine ⟨fun t => ⟨t.pairwise_codes, fun e he => ⟨fun ht => ?_, HTree.length_le_depth he, fun hfew => ?_⟩,
    t.depth_lt_leaves, fun n hn => HTree.kraft_codes hn, t.size_succ, fun sym p => HTree.mem_codes_iff⟩, ?_⟩
  · exact List.length_pos_iff.2 (HTree.word_ne_nil ht he)
  · have hlen := HTree.length_le_depth he
    have hleaves := t.depth_lt_leaves
    omega
  · intro s r tr ns halone hp hcode hsp htop htree hinner honce
    have hsyms := State.treeAt_syms htree
    have hdepth := HTree.depth_le_maxLen honce hsyms
    obtain ⟨t, hrun, ht, hpaths, hothers⟩ :=
      derivedCodesArePaths s r tr ns halone hp hcode hsp htop htree hdepth hinner honce
    have h : HoldsCodes tr t := ⟨hpaths, hothers⟩
    exact ⟨t, hrun, congrArg State.phase ht, fun v hv => ⟨Nat.pos_of_ne_zero hv, h.len_le hdepth hv⟩,
      fun v w hvw hv hw => h.words_apart hdepth hvw hv hw, h.kraft_sum hinner honce hsyms⟩

end Sys2Proof.Machine
end

section
/-! ## PROOFS: the tree serialiser (spec/43_tree_codec.md R135 to R138) -/

namespace Sys2Proof

/-- A header has 10 bits a leaf and 1 bit an internal node (R138). -/
theorem HTree.header_length_succ (t : HTree) : t.header.length + 1 = 11 * t.syms.length := by
  induction t with
  | leaf sym => simp [HTree.header, HTree.syms]
  | node l r ihl ihr =>
    simp only [HTree.header, HTree.syms, tokenBits_hdrInt, List.length_append, List.length_singleton]
    omega

end Sys2Proof

namespace Sys2Proof.Machine

variable {s : State}

/-! ### SER.INT and SER.LEAF (R136, R137) -/

/-- What P_SER writes: the end of OUT, and STK with SP. -/
def State.serialised (s : State) (bs : Bits) (stk : Table StkEntry) (sp : Nat) : State :=
  { s.append bs with stk := stk, sp := sp }

theorem State.Alone.serialised (h : s.Alone) (bs : Bits) (stk : Table StkEntry) (sp : Nat) :
    (s.serialised bs stk sp).Alone := ⟨h.noMoves, h.notWaiting, h.served⟩

theorem State.treeAt_serialised {i : Nat} {tr : HTree} {ns : List Nat} (h : s.treeAt i tr ns) (bs : Bits)
    (stk : Table StkEntry) (sp : Nat) : (s.serialised bs stk sp).treeAt i tr ns :=
  State.treeAt_mono (s := s) (t := s.serialised bs stk sp) (State.keepsNodes_of_eq fun _ => rfl) h

theorem State.serialised_serialised (bs bs' : Bits) (stk stk' : Table StkEntry) (sp sp' : Nat) :
    (s.serialised bs stk sp).serialised bs' stk' sp' = s.serialised (bs ++ bs') stk' sp' := by
  simp [State.serialised, State.append]

/-- STK after SER.INT: the right child in the place of the entry popped, the left child above it. -/
def State.withChildren (s : State) (l r : Option Nat) : Table StkEntry :=
  Table.set (Table.set s.stk (s.sp - 1) { n := r, code := none }) s.sp { n := l, code := none }

theorem State.get?_withChildren_right (hsp : 0 < s.sp) (l r : Option Nat) :
    Table.get? (s.withChildren l r) (s.sp - 1) = some { n := r, code := none } :=
  (Table.get?_set_ne _ _ (by omega)).trans (Table.get?_set_self _ _ _)

theorem State.get?_withChildren_left (s : State) (l r : Option Nat) :
    Table.get? (s.withChildren l r) s.sp = some { n := l, code := none } :=
  Table.get?_set_self _ _ _

theorem State.get?_withChildren_below {p : Nat} (hp : p + 1 < s.sp) (l r : Option Nat) :
    Table.get? (s.withChildren l r) p = Table.get? s.stk p :=
  (Table.get?_set_ne _ _ (by omega)).trans (Table.get?_set_ne _ _ (by omega))

section OneNode

variable {n : Nat} {c : Option Code}

theorem execSerInt_inner {w : Nat} {l r : Option Nat} {q : Bool} (htop : s.top = some { n := some n, code := c })
    (hn : s.nodeAt n = some (.inner w l r q)) (ha : s.answer = .ok) (hsp : s.sp ≤ 512) :
    execSerInt s = .next (s.called.serialised [false] (s.withChildren l r) (s.sp + 1)) := by
  obtain ⟨hpos, -⟩ := State.top_pos htop
  have hback : s.sp - 1 + 1 = s.sp := Nat.sub_add_cancel hpos
  have hpopped : State.answer { s with sp := s.sp - 1 } = .ok := ha
  refine (pop_node htop hn).trans ((memWrite_ok _ hpopped).trans ?_)
  rw [push_ok _ (show s.sp - 1 < 513 by omega), push_ok _ (show s.sp - 1 + 1 < 513 by omega)]
  dsimp only [State.append_sp, State.called_sp]
  rw [hback]
  rfl

theorem execSerLeaf_leaf {sym : Sym} {w : Nat} {q : Bool} (htop : s.top = some { n := some n, code := c })
    (hn : s.nodeAt n = some (.leaf sym w q)) (hs : s.servesTwo) :
    execSerLeaf s = .next (s.called.called.serialised (tokenBits (.hdrLeaf sym)) s.stk (s.sp - 1)) := by
  obtain ⟨hfirst, hsecond⟩ := hs
  have hpopped : State.answer { s with sp := s.sp - 1 } = .ok := hfirst
  have htagged : State.answer { s.called.append [true] with sp := s.sp - 1 } = .ok := hsecond
  refine (pop_node htop hn).trans ((memWrite_ok _ hpopped).trans ((memWrite_ok _ htagged).trans ?_))
  simp [State.serialised, State.append, State.called]

/-- Settles O29: an internal node and a leaf have one equation each. -/
theorem serialiseOneNode : Obligations.SerialiseOneNode := by
  intro s n c htop
  refine ⟨fun w l r q hn ha hsp => ?_, fun sym w q hn hs => execSerLeaf_leaf htop hn hs⟩
  exact ⟨_, execSerInt_inner htop hn ha hsp, rfl, ⟨none, State.get?_withChildren_right (State.top_pos htop).1 l r⟩,
    ⟨none, s.get?_withChildren_left l r⟩, fun p hp => State.get?_withChildren_below hp l r⟩

end OneNode

/-! ### P_SER as a function (R135, R138) -/

/-- The token of the root of `tr` is to be written next, and the stack has room for what lies below it. -/
structure Serialising (tr : HTree) (s : State) : Prop where
  alone : s.Alone
  phase : s.phase = .ser
  here : ∃ i c ns, s.top = some { n := some i, code := c } ∧ s.treeAt i tr ns
  room : s.sp + tr.depth ≤ 513

theorem State.topLeaf_eq {n : Nat} {c : Option Code} {nd : Node} (htop : s.top = some { n := some n, code := c })
    (hn : s.nodeAt n = some nd) : s.topLeaf = nd.kindBit := by
  simp only [State.topLeaf, htop, hn]

theorem Serialising.sp_pos {tr : HTree} (h : Serialising tr s) : 0 < s.sp := by
  obtain ⟨i, c, ns, htop, -⟩ := h.here
  exact (State.top_pos htop).1

theorem Serialising.step_eq {tr : HTree} {n : Nat} {c : Option Code} {nd : Node} (h : Serialising tr s)
    (htop : s.top = some { n := some n, code := c }) (hn : s.nodeAt n = some nd) :
    step s = exec (if nd.kindBit then .serLeaf else .serInt) s :=
  h.alone.step_eq (by rw [select_ser h.phase, if_pos h.sp_pos, State.topLeaf_eq htop hn])

theorem Serialising.step_leaf {sym : Sym} (h : Serialising (.leaf sym) s) :
    step s = .next (s.serialised (HTree.leaf sym).header s.stk (s.sp - 1)) := by
  obtain ⟨i, c, ns, htop, -, -, w, q, hn⟩ := h.here
  have hexec := execSerLeaf_leaf htop hn h.alone.servesTwo
  rw [h.alone.called, h.alone.called] at hexec
  exact (h.step_eq htop hn).trans hexec

/-- At an internal node the left child is next, and the right one when the entry pushed for it is on top again. -/
theorem Serialising.step_node {l r : HTree} (h : Serialising (.node l r) s) :
    ∃ stk, step s = .next (s.serialised [false] stk (s.sp + 1)) ∧
      Serialising l (s.serialised [false] stk (s.sp + 1)) ∧
      (∀ bs stk', Table.get? stk' (s.sp - 1) = Table.get? stk (s.sp - 1) →
        Serialising r (s.serialised bs stk' s.sp)) ∧
      ∀ x, x + 1 < s.sp → Table.get? stk x = Table.get? s.stk x := by
  obtain ⟨i, c, ns, htop, w, q, a, b, na, nb, hn, hl, hr, -⟩ := h.here
  have hpos := h.sp_pos
  have hroom : s.sp + (1 + max l.depth r.depth) ≤ 513 := h.room
  have hexec := execSerInt_inner htop hn h.alone.answer (by omega)
  rw [h.alone.called] at hexec
  refine ⟨s.withChildren (some a) (some b), (h.step_eq htop hn).trans hexec, ?_, fun bs stk hstk => ?_,
    fun x hx => State.get?_withChildren_below hx _ _⟩
  · exact ⟨h.alone.serialised _ _ _, h.phase,
      ⟨a, none, na, s.get?_withChildren_left (some a) (some b), State.treeAt_serialised hl _ _ _⟩,
      by show s.sp + 1 + l.depth ≤ 513; omega⟩
  · have htopr := (State.top_of_pos (s := s.serialised bs stk s.sp) hpos).trans
      (hstk.trans (State.get?_withChildren_right hpos (some a) (some b)))
    exact ⟨h.alone.serialised _ _ _, h.phase, ⟨b, none, nb, htopr, State.treeAt_serialised hr _ _ _⟩,
      by show s.sp + r.depth ≤ 513; omega⟩

/-- A subtree takes one step per node: its header is appended, its entry is popped, and the entries below stay. -/
theorem run_serialises {tr : HTree} (h : Serialising tr s) :
    ∃ stk, run tr.size s = .next (s.serialised tr.header stk (s.sp - 1)) ∧
      ∀ x, x + 1 < s.sp → Table.get? stk x = Table.get? s.stk x := by
  induction tr generalizing s with
  | leaf sym => exact ⟨s.stk, run_succ 0 h.step_leaf, fun _ _ => rfl⟩
  | node l r ihl ihr =>
    have hpos := h.sp_pos
    have hsize : (HTree.node l r).size = l.size + r.size + 1 := by rw [HTree.size]; omega
    obtain ⟨stk, hstep, hl, hr, hbelow⟩ := h.step_node
    obtain ⟨stkl, hrunl, hbelowl⟩ := ihl hl
    have hkept (x : Nat) (hx : x < s.sp) : Table.get? stkl x = Table.get? stk x := hbelowl x (Nat.succ_lt_succ hx)
    obtain ⟨stkr, hrunr, hbelowr⟩ := ihr (hr ([false] ++ l.header) stkl (hkept _ (by omega)))
    refine ⟨stkr, ?_, fun x hx => ?_⟩
    · rw [State.serialised_serialised] at hrunl hrunr
      rw [hsize, run_succ _ hstep, run_add _ hrunl]
      exact hrunr
    · exact (hbelowr x hx).trans ((hkept x (by omega)).trans (hbelow x hx))

/-- Settles O56: `run_serialises` from the root's entry, then SER.END. -/
theorem serialiserAppendsTheHeader : Obligations.SerialiserAppendsTheHeader := by
  intro s r c tr ns halone hp hsp htop htree hdepth
  obtain ⟨stk, hrun, -⟩ := run_serialises (tr := tr) ⟨halone, hp, ⟨r, c, ns, htop, htree⟩, by omega⟩
  rw [hsp] at hrun
  have hend := (halone.serialised tr.header stk 0).step_eq (i := .serEnd) (select_ser hp)
  exact ⟨tr.header_length_succ, _, (run_add 1 hrun).trans (run_succ 0 hend), rfl⟩

end Sys2Proof.Machine
end

section
/-! ## PROOFS: one step of the tree deserialiser (spec/43_tree_codec.md R140 to R145) -/

namespace Sys2Proof.Machine

variable {s t : State}

/-! ### The token at the cursor (R89) -/

theorem InChan.next_add (c : InChan) (m n : Nat) :
    c.next (m + n) = c.next m ++ InChan.next { c with pos := c.pos + m } n := streamBits_add _ _ _ _

/-- Of a leaf's 10 bits 9 are left after the tag. -/
theorem has_symbol_iff : (s.called.advance 1).inp.has 9 ↔ s.inp.has 10 := by
  simp [InChan.has, InChan.len, Nat.add_assoc]

theorem next_symbol {b : Bool} {bits : Bits} (h : s.inp.next 10 = b :: bits) :
    s.inp.next 1 = [b] ∧ (s.called.advance 1).inp.next 9 = bits := by
  rw [show 10 = 1 + 9 from rfl, InChan.next_add] at h
  exact List.append_inj (s₂ := [b]) h (InChan.next_length _ _)

/-- What lies ahead starts with the next bits. -/
theorem InChan.ahead_eq_next_append {c : InChan} {m n : Nat} (h : c.has m) (hm : m ≤ n) :
    ∃ r, c.ahead n = c.next m ++ r := by
  have hhas : c.pos + m ≤ c.len := h
  have hwidth : min n (c.len - c.pos) = m + (min n (c.len - c.pos) - m) := by omega
  rw [InChan.ahead, hwidth, InChan.next_add]
  exact ⟨_, rfl⟩

/-- A token whose bits come next, in the position that gives it its kind, is the one at the cursor. -/
theorem tokenAt_of_next {i : Instr} {pos : TokenPos} (hpos : s.tokenPos = some pos)
    (henc : encode i = .token pos (tokenBits i)) (hlen : (tokenBits i).length ≤ 32)
    (h : s.inp.has (tokenBits i).length) (hbits : s.inp.next (tokenBits i).length = tokenBits i) :
    s.tokenAt = some i := by
  obtain ⟨r, hr⟩ := InChan.ahead_eq_next_append h hlen
  rw [hbits] at hr
  simp only [State.tokenAt, hpos, hr, decode, decodeToken_tokenBits_append henc]

/-- The state in which both parts of a leaf's token have been read. -/
def State.leafRead (s : State) : State :=
  { s with inp := { s.inp with pos := s.inp.pos + 10 }, answers := s.answers.tail.tail }

theorem State.leafRead_eq (s : State) : (s.called.advance 1).called.advance 9 = s.leafRead := rfl

/-! ### The tag, and the symbol of a leaf -/

/-- DES.INT, and HDR.INT where it is the next token, consume the tag bit 0 and open a node (R141). -/
theorem exec_intToken {i : Instr} (hi : i = .desInt ∨ i = .hdrInt ∧ s.tokenPos = some .header) (ha : s.answer = .ok)
    (hnn : s.nn ≠ 513) (h : s.inp.has 1) (hbit : s.inp.next 1 = [false]) :
    exec i s = desOpen (s.called.advance 1) := by
  rcases hi with rfl | ⟨rfl, hpos⟩
  · rw [exec, execDesInt, desTag_bit _ ha hnn h, hbit]
    rfl
  · have htoken : s.tokenAt = some .hdrInt := tokenAt_of_next hpos rfl (by decide) h hbit
    rw [exec, execHdrInt, interpret, if_pos htoken, desTag_bit _ ha hnn h]

theorem execDesLeaf_tag (ha : s.answer = .ok) (hnn : s.nn ≠ 513) (h : s.inp.has 1) (hbit : s.inp.next 1 = [true]) :
    execDesLeaf s = desSymbol (s.called.advance 1) := by
  rw [execDesLeaf, desTag_bit _ ha hnn h, hbit]
  rfl

/-- DES.LEAF, and HDR.LEAF where it is the next token, consume the tag bit 1 and read the symbol (R142). -/
theorem exec_leafToken {i : Instr} {sym : Sym} (hi : i = .desLeaf ∨ i = .hdrLeaf sym ∧ s.tokenPos = some .header)
    (ha : s.answer = .ok) (hnn : s.nn ≠ 513) (h : s.inp.has 10)
    (hbits : s.inp.next 10 = true :: bitsOf 9 sym.toNat) : exec i s = desSymbol (s.called.advance 1) := by
  have h1 : s.inp.has 1 := (Nat.add_le_add_left (by decide) _).trans h
  rcases hi with rfl | ⟨rfl, hpos⟩
  · obtain ⟨hbit, -⟩ := next_symbol hbits
    exact execDesLeaf_tag ha hnn h1 hbit
  · have hlen : (tokenBits (.hdrLeaf sym)).length = 10 := by simp
    have htoken : s.tokenAt = some (.hdrLeaf sym) :=
      tokenAt_of_next hpos rfl (by simp) (hlen ▸ h) (by rw [hlen]; exact hbits)
    rw [exec, execHdrLeaf, interpret, if_pos htoken, desTag_bit _ ha hnn h1]

/-- The symbol read decides between E_RSVSYM and a new leaf (R142). -/
theorem desSymbol_eq {sym : Sym} (ha : s.answer = .ok) (h : s.inp.has 9)
    (hbits : s.inp.next 9 = bitsOf 9 sym.toNat) :
    desSymbol s =
      if 256 < sym.toNat then raise .eRsvsym 0 (s.called.advance 9)
      else alloc (.leaf sym 0 false) (s.called.advance 9) fun n u =>
        attach n u fun x => popComplete x.sp x fun y => .next y := by
  have hval : valOf (s.inp.next 9) = sym.toNat := by
    rw [hbits, valOf_bitsOf, Nat.mod_eq_of_lt sym.isLt]
  rw [desSymbol, memRead_bits _ ha h]
  dsimp only
  rw [hval, BitVec.ofNat_toNat, BitVec.setWidth_eq]

theorem desSymbol_reserved {sym : Sym} (ha : s.answer = .ok) (h : s.inp.has 9)
    (hbits : s.inp.next 9 = bitsOf 9 sym.toNat) (hsym : 256 < sym.toNat) :
    desSymbol s = raise .eRsvsym 0 (s.called.advance 9) := by
  rw [desSymbol_eq ha h hbits, if_pos hsym]

theorem desSymbol_leaf {sym : Sym} (ha : s.answer = .ok) (h : s.inp.has 9)
    (hbits : s.inp.next 9 = bitsOf 9 sym.toNat) (hsym : sym.toNat ≤ 256) (hnn : s.nn < 513) :
    desSymbol s = attach s.nn ((s.called.advance 9).allocated (.leaf sym 0 false))
      fun x => popComplete x.sp x fun y => .next y := by
  rw [desSymbol_eq ha h hbits, if_neg hsym.not_gt]
  exact alloc_ok _ hnn

/-! ### Attaching the new node (R140) -/

theorem State.openStack.openTop (h : s.openStack) : s.openTop := by
  rcases Nat.eq_zero_or_pos s.sp with h0 | hpos
  · exact .inl h0
  · obtain ⟨n, c, w, l, r, q, hget, hn⟩ := h (s.sp - 1) (by omega)
    exact .inr ⟨n, c, w, l, r, q, (State.top_of_pos hpos).trans hget, hn⟩

/-- A new node takes the place at NN and is attached, and only ROOT and one older node may change. -/
theorem attach_allocated (h : s.openTop) (nd : Node) (k : State → Result) :
    ∃ t, attach s.nn (s.allocated nd) k = k t ∧ t = { s.allocated nd with node := t.node, root := t.root } ∧
      t.nodeAt s.nn = some nd ∧ Attached s t s.nn := by
  have hnew : (s.allocated nd).nodeAt s.nn = some nd := by rw [State.nodeAt_allocated, if_pos rfl]
  have hold {i : Nat} (hi : i < s.nn) : (s.allocated nd).nodeAt i = s.nodeAt i := by
    rw [State.nodeAt_allocated, if_neg hi.ne]
  have hopen : (s.allocated nd).openTop := h.imp id fun ⟨p, c, w, l, r, q, htop, hp⟩ =>
    ⟨p, c, w, l, r, q, htop, (hold (State.nodeAt_lt hp)).trans hp⟩
  obtain ⟨t, heq, ht, hcase⟩ := attach_ok (n := s.nn) (k := k) hopen
  refine ⟨t, heq, ht, ?_⟩
  rcases hcase with ⟨h0, hroot, -, hsame⟩ | ⟨p, c, w, l, r, q, htop, hp, hroot, hchild, -, hsame⟩
  · exact ⟨(hsame _).trans hnew, .inl ⟨h0, hroot, fun i hi => (hsame i).trans (hold hi)⟩⟩
  · obtain ⟨p', c', w', l', r', q', htop', hp'⟩ := h.resolve_left (State.top_pos htop).1.ne'
    obtain ⟨⟨⟩, -⟩ := StkEntry.mk.inj (Option.some.inj (htop.symm.trans htop'))
    have hlt : p < s.nn := State.nodeAt_lt hp'
    refine ⟨(hsame _ hlt.ne').trans hnew, .inr ⟨p, c, w, l, r, q, htop, (hold hlt).symm.trans hp, hroot, hchild, ?_⟩⟩
    exact fun i hi hip => (hsame i hip).trans (hold hi)

/-- DES.INT after its tag: the open node is attached and pushed (R141). -/
theorem desOpen_ok (hnn : s.nn < 513) (hsp : s.sp < 513) (h : s.openTop) :
    ∃ t, desOpen s = .next (t.pushed { n := some s.nn, code := none }) ∧
      t = { s.allocated (.inner 0 none none false) with node := t.node, root := t.root } ∧
      t.nodeAt s.nn = some (.inner 0 none none false) ∧ Attached s t s.nn := by
  obtain ⟨t, heq, ht, hnew, hattached⟩ := attach_allocated h (.inner 0 none none false)
    fun u => push { n := some s.nn, code := none } u fun v => .next v
  have hroom : t.sp < 513 := (congrArg State.sp ht :).trans_lt hsp
  exact ⟨t, (alloc_ok _ hnn).trans (heq.trans (push_ok _ hroom)), ht, hnew, hattached⟩

/-- Settles O33: the tag is consumed, and `desOpen_ok` says the rest. -/
theorem readInternalToken : Obligations.ReadInternalToken := by
  intro s i hi hnn hsp ha h hbit hopen
  obtain ⟨t, heq, ht, hnew, hattached⟩ := desOpen_ok (s := s.called.advance 1) hnn hsp hopen
  have hsp' : t.sp = s.sp := (congrArg State.sp ht :)
  have hstk : t.stk = s.stk := (congrArg State.stk ht :)
  refine ⟨_, (exec_intToken hi ha hnn.ne h hbit).trans heq, ?_, hnew, hattached, ⟨none, ?_⟩, fun p hp => ?_⟩
  · rw [ht]
    rfl
  · rw [State.pushed, hsp']
    exact Table.get?_set_self _ _ _
  · rw [State.pushed, hsp', hstk]
    exact Table.get?_set_ne _ _ hp.ne'

/-- DES.LEAF up to its last line: the leaf is attached, and the complete nodes are still to be popped (R142). -/
theorem exec_leafToken_attaches {i : Instr} {sym : Sym}
    (hi : i = .desLeaf ∨ i = .hdrLeaf sym ∧ s.tokenPos = some .header) (hnn : s.nn < 513) (hs : s.servesTwo)
    (h : s.inp.has 10) (hbits : s.inp.next 10 = true :: bitsOf 9 sym.toNat) (hsym : sym.toNat ≤ 256)
    (hopen : s.openTop) :
    ∃ t, exec i s = popComplete s.sp t (fun y => .next y) ∧
      t = { s with inp := { s.inp with pos := s.inp.pos + 10 }, answers := s.answers.tail.tail, node := t.node,
                   nn := s.nn + 1, root := t.root } ∧
      t.nodeAt s.nn = some (.leaf sym 0 false) ∧ Attached s t s.nn := by
  obtain ⟨hfirst, hsecond⟩ := hs
  obtain ⟨-, hsymbol⟩ := next_symbol hbits
  have heq := (exec_leafToken hi hfirst hnn.ne h hbits).trans
    (desSymbol_leaf (s := s.called.advance 1) hsecond (has_symbol_iff.2 h) hsymbol hsym hnn)
  rw [State.leafRead_eq] at heq
  obtain ⟨t, hattach, ht, hnew, hattached⟩ := attach_allocated (s := s.leafRead) hopen (.leaf sym 0 false)
    fun x => popComplete x.sp x fun y => .next y
  have hsp : t.sp = s.sp := (congrArg State.sp ht :)
  rw [hsp] at hattach
  exact ⟨t, heq.trans hattach, ht, hnew, hattached⟩

/-- The nodes on the stack stay internal when a node is attached. -/
theorem Attached.openStack {n : Nat} (h : Attached s t n) (hstk : t.stk = s.stk) (hsp : t.sp = s.sp)
    (hopen : s.openStack) : t.openStack := by
  intro p hp
  obtain ⟨m, c, w, l, r, q, hget, hm⟩ := hopen p (hsp ▸ hp)
  rw [hstk]
  rcases h with ⟨-, -, hsame⟩ | ⟨p', c', w', l', r', q', -, -, -, hchild, hsame⟩
  · exact ⟨m, c, w, l, r, q, hget, (hsame m (State.nodeAt_lt hm)).trans hm⟩
  · by_cases hmp : m = p'
    · subst hmp
      by_cases hl : l' = none
      · exact ⟨m, c, w', some n, r', q', hget, hchild.trans (congrArg some (if_pos hl))⟩
      · exact ⟨m, c, w', l', some n, q', hget, hchild.trans (congrArg some (if_neg hl))⟩
    · exact ⟨m, c, w, l, r, q, hget, (hsame m (State.nodeAt_lt hm) hmp).trans hm⟩

/-- Settles O34: the leaf is attached, and `popComplete_ok` says what is popped. -/
theorem readLeafToken : Obligations.ReadLeafToken := by
  intro s i sym hi hnn hs h hbits hsym hopen
  obtain ⟨t, heq, ht, hnew, hattached⟩ := exec_leafToken_attaches hi hnn hs h hbits hsym hopen.openTop
  have hsp : t.sp = s.sp := (congrArg State.sp ht :)
  have hstk : t.stk = s.stk := (congrArg State.stk ht :)
  obtain ⟨q, hq, hpop, hgone, htop⟩ :=
    popComplete_ok t (fun y => .next y) s.sp (hsp ▸ hattached.openStack hstk hsp hopen)
  rw [hstk] at hgone
  refine ⟨{ t with sp := q }, heq.trans hpop, ?_, hnew, hattached, hq, hgone, fun hpos => ?_⟩
  · rw [ht]
  · obtain ⟨n, c, nd, hget, hn, hright⟩ := htop hpos
    exact ⟨n, c, nd, (State.top_of_pos (s := { t with sp := q }) hpos).trans hget, hn, hright⟩

/-! ### The faults of the header, and its end (R144, R145) -/

theorem desTag_treeOvf (k : Nat → State → Result) (hnn : s.nn = 513) : desTag s k = raise .eTreeovf 0 s :=
  if_pos hnn

theorem desTag_noBit (k : Nat → State → Result) (ha : s.answer = .ok) (hnn : s.nn ≠ 513) (h : ¬ s.inp.has 1) :
    desTag s k = raise .eHeader 0 s.called :=
  (if_neg hnn).trans (memRead_eos _ ha h)

theorem desSymbol_noSymbol (ha : s.answer = .ok) (h : ¬ s.inp.has 9) :
    desSymbol s = raise .eHeader 0 s.called :=
  memRead_eos _ ha h

/-- Settles O35: each fault is the branch that its condition selects, and `raise` keeps everything else. -/
theorem headerFaults : Obligations.HeaderFaults := by
  refine fun s => ⟨fun i hi => ⟨fun hnn => ?full, fun hnn ha h => ?noBit⟩, fun hnn hs h1 hbit =>
    ⟨fun h => ?noSymbol, fun i sym hi h hbits hsym => ?reserved⟩⟩
  case full => rcases hi with rfl | rfl <;> exact desTag_treeOvf _ hnn
  case noBit => rcases hi with rfl | rfl <;> exact desTag_noBit _ ha hnn (Nat.not_le.2 h)
  case noSymbol =>
    obtain ⟨hfirst, hsecond⟩ := hs
    have hcut : ¬ (s.called.advance 1).inp.has 9 := fun h9 => Nat.not_le.2 h (has_symbol_iff.1 h9)
    exact (execDesLeaf_tag hfirst hnn h1 hbit).trans (desSymbol_noSymbol (s := s.called.advance 1) hsecond hcut)
  case reserved =>
    obtain ⟨hfirst, hsecond⟩ := hs
    obtain ⟨-, hsymbol⟩ := next_symbol hbits
    have heq := desSymbol_reserved (s := s.called.advance 1) hsecond (has_symbol_iff.2 h) hsymbol hsym
    rw [State.leafRead_eq] at heq
    exact (exec_leafToken hi hfirst hnn h hbits).trans heq

theorem select_desEnd (hp : s.phase = .deser) (hnn : 0 < s.nn) (hsp : s.sp = 0) :
    decode (.select s.selector) = .ok .desEnd := by
  rw [select_deser hp, if_neg (by omega)]

theorem execDesEnd_eq {r : Nat} {nd : Node} (hroot : s.root = some r) (hn : s.nodeAt r = some nd) :
    execDesEnd s =
      if nd.kindBit then raise .eRootleaf 0 s else .next { s with cur := some r, phase := .decode } := by
  rw [execDesEnd, hroot, withNode_ok _ hn]
  rfl

/-- Settles O36: the kind of the root decides. -/
theorem headerEnd : Obligations.HeaderEnd := fun _ _ _ hroot hn =>
  ⟨fun hp hsp => select_desEnd hp (Nat.zero_lt_of_lt (State.nodeAt_lt hn)) hsp,
    fun hleaf => (execDesEnd_eq hroot hn).trans (if_pos hleaf),
    fun hinner => (execDesEnd_eq hroot hn).trans (if_neg (by simp [hinner]))⟩

end Sys2Proof.Machine
end

section
/-! ## PROOFS: the tree deserialiser as a function (spec/43_tree_codec.md R146)

The nodes of a subtree are allocated in pre-order. Reading its header leaves the state in which its root has been
attached as if it were one leaf, and in which the complete nodes are still to be popped. -/

namespace Sys2Proof

/-- The nodes of a tree numbered from `i` on in pre-order. -/
def HTree.preorder (tr : HTree) (i : Nat) : List Nat := List.range' i tr.size

theorem HTree.preorder_node (l r : HTree) (i : Nat) :
    HTree.preorder (.node l r) i = i :: (HTree.preorder l (i + 1) ++ HTree.preorder r (i + 1 + l.size)) := by
  have hsize : (HTree.node l r).size = l.size + r.size + 1 := by rw [HTree.size]; omega
  rw [HTree.preorder, hsize, List.range'_succ, ← List.range'_append_1]
  rfl

end Sys2Proof

namespace Sys2Proof.Machine

variable {s t u : State}

/-! ### Bits at the cursor -/

/-- The bits from the cursor to the end of IN are `bs`. -/
structure InChan.Holds (c : InChan) (bs : Bits) : Prop where
  posLe : c.pos ≤ c.len
  rest : c.rest = bs

section Holds

variable {c : InChan} {bs x : Bits}

theorem InChan.Holds.length (h : c.Holds bs) : c.len - c.pos = bs.length := by
  rw [← h.rest, InChan.rest, InChan.next_length]

theorem InChan.Holds.has (h : c.Holds (bs ++ x)) : c.has bs.length := by
  have hlen := h.length
  have hle := h.posLe
  rw [List.length_append] at hlen
  show c.pos + bs.length ≤ c.len
  omega

/-- The first bits come next, and the others are left after them. -/
theorem InChan.Holds.split (h : c.Holds (bs ++ x)) :
    c.next bs.length = bs ∧ InChan.next { c with pos := c.pos + bs.length } x.length = x := by
  have hrest := h.rest
  rw [InChan.rest, h.length, List.length_append, InChan.next_add] at hrest
  exact List.append_inj hrest (InChan.next_length _ _)

theorem InChan.Holds.skip (h : c.Holds (bs ++ x)) : InChan.Holds { c with pos := c.pos + bs.length } x where
  posLe := h.has
  rest := by
    have hlen := h.length
    have hleft : c.len - (c.pos + bs.length) = x.length := by rw [List.length_append] at hlen; omega
    obtain ⟨-, hx⟩ := h.split
    rw [← hleft] at hx
    exact hx

end Holds

/-! ### What a tree needs of the arena -/

theorem State.treeAt_congr {i : Nat} {tr : HTree} {ns : List Nat} (ht : s.treeAt i tr ns)
    (h : ∀ j ∈ ns, t.nodeAt j = s.nodeAt j) : t.treeAt i tr ns := by
  induction tr generalizing i ns with
  | leaf sym =>
    obtain ⟨rfl, hsym, w, q, hn⟩ := ht
    exact ⟨rfl, hsym, w, q, (h i (List.mem_singleton_self i)).trans hn⟩
  | node l r ihl ihr =>
    obtain ⟨w, q, a, b, na, nb, hn, hl, hr, rfl⟩ := ht
    obtain ⟨hi, hchildren⟩ := List.forall_mem_cons.1 h
    obtain ⟨ha, hb⟩ := List.forall_mem_append.1 hchildren
    exact ⟨w, q, a, b, na, nb, hi.trans hn, ihl hl ha, ihr hr hb, rfl⟩

/-! ### Attaching to a known node, and popping -/

/-- Where the top names an internal node, that node takes the new one as its first missing child. -/
theorem Attached.at_top {n p w : Nat} {c : Option Code} {l r : Option Nat} {q : Bool} (h : Attached s t n)
    (htop : s.top = some { n := some p, code := c }) (hp : s.nodeAt p = some (.inner w l r q)) :
    t.root = s.root ∧ t.nodeAt p = some (if l = none then .inner w (some n) r q else .inner w l (some n) q) ∧
      ∀ i, i < s.nn → i ≠ p → t.nodeAt i = s.nodeAt i := by
  rcases h with ⟨h0, -⟩ | ⟨p', c', w', l', r', q', htop', hp', hrest⟩
  · exact absurd h0 (State.top_pos htop).1.ne'
  · obtain ⟨⟨⟩, -⟩ := StkEntry.mk.inj (Option.some.inj (htop.symm.trans htop'))
    obtain ⟨rfl, rfl, rfl, rfl⟩ := Node.inner.inj (Option.some.inj (hp.symm.trans hp'))
    exact hrest

/-- With no node open the new one is the root. -/
theorem Attached.as_root {n : Nat} (h : Attached s t n) (hsp : s.sp = 0) : t.root = some n := by
  rcases h with ⟨-, hroot, -⟩ | ⟨p, c, w, l, r, q, htop, -⟩
  · exact hroot
  · exact absurd hsp (State.top_pos htop).1.ne'

/-- What happens to younger nodes later does not undo an attachment. -/
theorem Attached.congr {n : Nat} (h : Attached s t n) (hroot : u.root = t.root)
    (hold : ∀ i, i < s.nn → u.nodeAt i = t.nodeAt i) : Attached s u n := by
  rcases h with ⟨h0, ht, hsame⟩ | ⟨p, c, w, l, r, q, htop, hp, ht, hchild, hsame⟩
  · exact .inl ⟨h0, hroot.trans ht, fun i hi => (hold i hi).trans (hsame i hi)⟩
  · exact .inr ⟨p, c, w, l, r, q, htop, hp, hroot.trans ht, (hold p (State.nodeAt_lt hp)).trans hchild,
      fun i hi hip => (hold i hi).trans (hsame i hi hip)⟩

section Popping

variable {p n : Nat} {c : Option Code} {nd : Node} (k : State → Result)

theorem popComplete_stops (hget : Table.get? s.stk p = some { n := some n, code := c }) (hn : s.nodeAt n = some nd)
    (hright : nd.right = none) : popComplete (p + 1) s k = k { s with sp := p + 1 } := by
  simp only [popComplete, hget, withNode_ok _ hn, if_pos hright]

theorem popComplete_pops (hget : Table.get? s.stk p = some { n := some n, code := c }) (hn : s.nodeAt n = some nd)
    (hright : nd.right ≠ none) : popComplete (p + 1) s k = popComplete p s k := by
  simp only [popComplete, hget, withNode_ok _ hn, if_neg hright]

theorem State.withSp_self {q : Nat} (h : s.sp = q) : { s with sp := q } = s := by
  subst h
  rfl

/-- The loop starts from the SP that it is given. -/
theorem popComplete_withSp (s : State) (p q : Nat) : popComplete p { s with sp := q } k = popComplete p s k := by
  induction p with
  | zero => rfl
  | succ p ih =>
    simp only [popComplete]
    cases Table.get? s.stk p with
    | none => rfl
    | some e => exact congrArg (withNode e.n s) (funext₂ fun _ nd => by rw [ih])

end Popping

/-! ### P_DESER over a subtree -/

/-- The header of `tr`, then `x`, stands at the cursor, and the arena has room and a place for the tree. -/
structure Awaiting (tr : HTree) (x : Bits) (s : State) : Prop where
  alone : s.Alone
  phase : s.phase = .deser
  row : s.nn = 0 ∨ 0 < s.sp
  place : s.openTop
  spLe : s.sp ≤ s.nn
  room : s.nn + tr.size ≤ 513
  syms : ∀ sym ∈ tr.syms, sym.toNat ≤ 256
  bits : s.inp.Holds (tr.header ++ x)

/-- `s` with a tree of `tr`'s shape allocated, and its header consumed. -/
def State.planted (s : State) (tr : HTree) (node : Table Node) (root : Option Nat) (stk : Table StkEntry) : State :=
  { s with node := node, nn := s.nn + tr.size, root := root, stk := stk,
           inp := { s.inp with pos := s.inp.pos + tr.header.length } }

/-- `t` is `s` with the tree `tr` read: it stands at NN, numbered in pre-order, and its root is attached. -/
structure Planted (tr : HTree) (s t : State) : Prop where
  frame : ∃ node root stk, t = s.planted tr node root stk
  attached : Attached s t s.nn
  tree : t.treeAt s.nn tr (tr.preorder s.nn)
  below : ∀ p, p < s.sp → Table.get? t.stk p = Table.get? s.stk p

theorem Awaiting.step_eq {tr : HTree} {x : Bits} {b : Bool} (h : Awaiting tr x s) (h1 : s.inp.has 1)
    (hbit : s.inp.next 1 = [b]) : step s = exec (if b then .desLeaf else .desInt) s := by
  refine h.alone.step_eq ?_
  rw [select_deser h.phase, if_pos h.row, peek_of_has h.alone.answer h1, hbit]
  cases b <;> rfl

/-- A leaf is read in one step. -/
theorem Awaiting.step_leaf {sym : Sym} {x : Bits} (h : Awaiting (.leaf sym) x s) :
    ∃ t, step s = popComplete s.sp t (fun y => .next y) ∧ Planted (.leaf sym) s t := by
  have hroom : s.nn + 1 ≤ 513 := h.room
  have hsym : sym.toNat ≤ 256 := h.syms sym (List.mem_singleton_self sym)
  have hlen : (HTree.leaf sym).header.length = 10 := by simp [HTree.header]
  have h10 : s.inp.has 10 := hlen ▸ h.bits.has
  obtain ⟨hbits, -⟩ := h.bits.split
  rw [hlen, HTree.header, tokenBits_hdrLeaf] at hbits
  obtain ⟨hbit, -⟩ := next_symbol hbits
  obtain ⟨t, heq, ht, hnew, hattached⟩ :=
    exec_leafToken_attaches (.inl rfl) hroom h.alone.servesTwo h10 hbits hsym h.place
  have hserved : s.answers.tail.tail = s.answers := by rw [h.alone.served]; rfl
  rw [hserved, ← hlen] at ht
  have hstk : t.stk = s.stk := (congrArg State.stk ht :)
  exact ⟨t, (h.step_eq ((Nat.add_le_add_left (by decide) _).trans h10) hbit).trans heq, ⟨_, _, _, ht⟩, hattached,
    ⟨rfl, hsym, 0, false, hnew⟩, fun p _ => by rw [hstk]⟩

/-- `s` with a node attached and pushed, `k` nodes allocated after it, and its tag and `b` more bits consumed. -/
def State.inside (s : State) (k b : Nat) (node : Table Node) (root : Option Nat) (stk : Table StkEntry) : State :=
  { s with node := node, nn := s.nn + 1 + k, root := root, stk := stk, sp := s.sp + 1,
           inp := { s.inp with pos := s.inp.pos + 1 + b } }

/-- The subtrees of the node that stands at `s.nn` are being read: it is on top of the stack, with the children `l` and
`r`, and `k` nodes and `b` bits of its subtrees have been read. -/
structure Inside (k b : Nat) (l r : Option Nat) (s t : State) : Prop where
  frame : ∃ node root stk, t = s.inside k b node root stk
  attached : Attached s t s.nn
  node : t.nodeAt s.nn = some (.inner 0 l r false)
  entry : ∃ c, Table.get? t.stk s.sp = some { n := some s.nn, code := c }
  below : ∀ p, p < s.sp → Table.get? t.stk p = Table.get? s.stk p

section Inside

variable {k b : Nat} {l r : Option Nat}

theorem Inside.nn_eq (h : Inside k b l r s t) : t.nn = s.nn + 1 + k := by
  obtain ⟨node, root, stk, rfl⟩ := h.frame
  rfl

theorem Inside.sp_eq (h : Inside k b l r s t) : t.sp = s.sp + 1 := by
  obtain ⟨node, root, stk, rfl⟩ := h.frame
  rfl

theorem Inside.top (h : Inside k b l r s t) : ∃ c, t.top = some { n := some s.nn, code := c } := by
  obtain ⟨c, hget⟩ := h.entry
  have hsp := h.sp_eq
  exact ⟨c, (State.top_of_pos (by omega)).trans (hsp ▸ hget)⟩

/-- The node keeps its place while it is incomplete. -/
theorem Inside.popComplete_stops (h : Inside k b l none s t) :
    popComplete (s.sp + 1) t (fun y => .next y) = .next t := by
  obtain ⟨c, hget⟩ := h.entry
  rw [Machine.popComplete_stops _ hget h.node rfl, ← h.sp_eq]

/-- A complete node is popped, and the loop goes on below it. -/
theorem Inside.popComplete_pops {a : Nat} (h : Inside k b l (some a) s t) (f : State → Result) :
    popComplete (s.sp + 1) t f = popComplete s.sp { t with sp := s.sp } f := by
  obtain ⟨c, hget⟩ := h.entry
  exact (Machine.popComplete_pops f hget h.node (Option.some_ne_none a)).trans (popComplete_withSp f t s.sp s.sp).symm

/-- A subtree that is read becomes the first missing child; of the nodes before it only the parent changes. -/
theorem Inside.read {tr : HTree} {l' r' : Option Nat} (h : Inside k b l r s t) (hu : Planted tr t u)
    (hchild : (if l = none then Node.inner 0 (some t.nn) r false else .inner 0 l (some t.nn) false) =
      .inner 0 l' r' false) :
    Inside (k + tr.size) (b + tr.header.length) l' r' s u ∧ ∀ i, i < t.nn → i ≠ s.nn → u.nodeAt i = t.nodeAt i := by
  obtain ⟨c, htop⟩ := h.top
  obtain ⟨hroot, hnode, hold⟩ := hu.attached.at_top htop h.node
  have hnn := h.nn_eq
  have hsp := h.sp_eq
  obtain ⟨node, root, stk, hframe⟩ := hu.frame
  obtain ⟨node', root', stk', hframe'⟩ := h.frame
  refine ⟨⟨⟨node, root, stk, ?_⟩, ?_, hnode.trans (congrArg some hchild), ?_, fun p hp => ?_⟩, hold⟩
  · rw [hframe, hframe']
    simp only [State.planted, State.inside, Nat.add_assoc]
  · exact h.attached.congr hroot fun i hi => hold i (by omega) hi.ne
  · exact h.entry.imp fun c hget => (hu.below _ (by omega)).trans hget
  · exact (hu.below p (by omega)).trans (h.below p hp)

end Inside

section Node

variable {l r : HTree} {x : Bits}

/-- An internal node is attached and pushed. -/
theorem Awaiting.step_node (h : Awaiting (.node l r) x s) : ∃ t, step s = .next t ∧ Inside 0 0 none none s t := by
  have hroom : s.nn + (1 + l.size + r.size) ≤ 513 := h.room
  have hspLe := h.spLe
  have hbits : s.inp.Holds ([false] ++ (l.header ++ r.header ++ x)) := by simpa [HTree.header] using h.bits
  obtain ⟨hbit, -⟩ := hbits.split
  obtain ⟨t, heq, ht, hnew, hattached, hentry, hbelow⟩ :=
    readInternalToken s .desInt (.inl rfl) (by omega) (by omega) h.alone.answer hbits.has hbit h.place
  have hserved : s.answers.tail = s.answers := by rw [h.alone.served]; rfl
  rw [hserved] at ht
  exact ⟨t, (h.step_eq hbits.has hbit).trans heq, ⟨_, _, _, ht⟩, hattached, hnew, hentry, hbelow⟩

/-- Below the node a subtree can be read where its header comes next. -/
theorem Awaiting.inside {tr : HTree} {y : Bits} {k b : Nat} {l' r' : Option Nat} (h : Awaiting (.node l r) x s)
    (ht : Inside k b l' r' s t) (hroom : k + tr.size ≤ l.size + r.size)
    (hsyms : ∀ sym ∈ tr.syms, sym ∈ l.syms ++ r.syms) (hbits : t.inp.Holds (tr.header ++ y)) : Awaiting tr y t := by
  have hroom' : s.nn + (1 + l.size + r.size) ≤ 513 := h.room
  have hspLe := h.spLe
  have hnn := ht.nn_eq
  have hsp := ht.sp_eq
  obtain ⟨c, htop⟩ := ht.top
  obtain ⟨node, root, stk, hframe⟩ := ht.frame
  refine ⟨⟨?_, ?_, ?_⟩, ?_, .inr (by omega), .inr ⟨s.nn, c, 0, l', r', false, htop, ht.node⟩, by omega, by omega,
    fun sym hsym => h.syms sym (hsyms sym hsym), hbits⟩
  all_goals rw [hframe]
  exacts [h.alone.noMoves, h.alone.notWaiting, h.alone.served, h.phase]

/-- The left subtree's header comes first. -/
theorem Awaiting.left (h : Awaiting (.node l r) x s) (ht : Inside 0 0 none none s t) :
    Awaiting l (r.header ++ x) t := by
  have hbits : s.inp.Holds ([false] ++ (l.header ++ (r.header ++ x))) := by simpa [HTree.header] using h.bits
  refine h.inside ht (by omega) (fun sym hsym => List.mem_append_left _ hsym) ?_
  obtain ⟨node, root, stk, hframe⟩ := ht.frame
  rw [hframe]
  exact hbits.skip

/-- The right subtree's header comes after the left one's. -/
theorem Awaiting.right {a : Nat} (h : Awaiting (.node l r) x s) (hl : Awaiting l (r.header ++ x) t)
    (hp : Planted l t u) (hu : Inside l.size l.header.length (some a) none s u) : Awaiting r x u := by
  refine h.inside hu le_rfl (fun sym hsym => List.mem_append_right _ hsym) ?_
  obtain ⟨node, root, stk, hframe⟩ := hp.frame
  rw [hframe]
  exact hl.bits.skip

/-- A node with both its subtrees read is a tree. -/
theorem Inside.planted {v : State} (ht : Inside 0 0 none none s t) (hl : Planted l t u) (hr : Planted r u v)
    (hu : Inside l.size l.header.length (some (s.nn + 1)) none s u)
    (hv : Inside (l.size + r.size) (l.header.length + r.header.length) (some (s.nn + 1)) (some (s.nn + 1 + l.size)) s v)
    (hold : ∀ i, i < u.nn → i ≠ s.nn → v.nodeAt i = u.nodeAt i) :
    Planted (.node l r) s { v with sp := s.sp } where
  frame := by
    obtain ⟨node, root, stk, hframe⟩ := hv.frame
    refine ⟨node, root, stk, ?_⟩
    rw [hframe]
    simp [State.inside, State.planted, HTree.size, HTree.header, Nat.add_assoc, Nat.add_comm]
  attached := hv.attached
  tree := by
    have hnn := hu.nn_eq
    have hleft : v.treeAt (s.nn + 1) l (l.preorder (s.nn + 1)) := by
      have htree := hl.tree
      rw [ht.nn_eq] at htree
      refine State.treeAt_congr htree fun i hi => hold i (State.treeAt_lt htree i hi) ?_
      have := List.left_le_of_mem_range' hi
      omega
    have hright : v.treeAt (s.nn + 1 + l.size) r (r.preorder (s.nn + 1 + l.size)) := hnn ▸ hr.tree
    rw [HTree.preorder_node]
    exact ⟨0, false, _, _, _, _, hv.node, State.treeAt_congr (t := { v with sp := s.sp }) hleft fun _ _ => rfl,
      State.treeAt_congr (t := { v with sp := s.sp }) hright fun _ _ => rfl, rfl⟩
  below := hv.below

end Node

theorem run_one (s : State) : run 1 s = step s := by
  rw [run]
  cases step s <;> rfl

/-- Reading a subtree's header, one step per node, plants the subtree; the complete nodes below it are then popped. -/
theorem run_reads {tr : HTree} {x : Bits} (h : Awaiting tr x s) :
    ∃ t, run tr.size s = popComplete s.sp t (fun y => .next y) ∧ Planted tr s t := by
  induction tr generalizing s x with
  | leaf sym =>
    obtain ⟨t, hstep, ht⟩ := h.step_leaf
    exact ⟨t, (run_one s).trans hstep, ht⟩
  | node l r ihl ihr =>
    have hsize : (HTree.node l r).size = l.size + r.size + 1 := by rw [HTree.size]; omega
    obtain ⟨t, hstep, ht⟩ := h.step_node
    have hl := h.left ht
    obtain ⟨u, hrunl, hpl⟩ := ihl hl
    obtain ⟨hu, -⟩ := ht.read hpl (l' := some (s.nn + 1)) (r' := none) (by rw [ht.nn_eq]; rfl)
    rw [Nat.zero_add, Nat.zero_add] at hu
    obtain ⟨v, hrunr, hpr⟩ := ihr (h.right hl hpl hu)
    obtain ⟨hv, hold⟩ := hu.read hpr (l' := some (s.nn + 1)) (r' := some (s.nn + 1 + l.size)) (by rw [hu.nn_eq]; rfl)
    rw [ht.sp_eq, hu.popComplete_stops] at hrunl
    rw [hu.sp_eq, hv.popComplete_pops] at hrunr
    refine ⟨_, ?_, ht.planted hpl hpr hu hv hold⟩
    rw [hsize, run_succ _ hstep, run_add _ hrunl, hrunr]

/-! ### The whole header -/

/-- DES.END after a tree with an internal root (R144). -/
theorem State.Alone.step_desEnd {i : Nat} {tr : HTree} {ns : List Nat} (h : s.Alone) (hp : s.phase = .deser)
    (hsp : s.sp = 0) (hroot : s.root = some i) (htree : s.treeAt i tr ns) (hinner : tr.isNode = true) :
    step s = .next { s with cur := some i, phase := .decode } := by
  cases tr with
  | leaf => cases hinner
  | node l r =>
    obtain ⟨w, q, a, b, -, -, hn, -⟩ := htree
    exact (h.step_eq (select_desEnd hp (Nat.zero_lt_of_lt (State.nodeAt_lt hn)) hsp)).trans (execDesEnd_eq hroot hn)

/-- Settles O57: the tree is planted as the root, and DES.END follows with an empty stack. -/
theorem deserialiserInvertsTheSerialiser : Obligations.DeserialiserInvertsTheSerialiser := by
  intro s tr x halone hp hnn hsp _ hpos hrest hinner hroom hsyms
  have h : Awaiting tr x s := ⟨halone, hp, .inl hnn, .inl hsp, by omega, by omega, hsyms, ⟨hpos, hrest⟩⟩
  obtain ⟨t, hrun, ⟨node, root, stk, rfl⟩, hattached, htree, -⟩ := run_reads h
  obtain rfl : root = some s.nn := hattached.as_root hsp
  have hend := State.Alone.step_desEnd (s := s.planted tr node (some s.nn) stk)
    ⟨halone.noMoves, halone.notWaiting, halone.served⟩ hp hsp rfl htree hinner
  rw [hsp, popComplete, State.withSp_self (s := s.planted tr node (some s.nn) stk) hsp] at hrun
  refine ⟨_, tr.preorder s.nn, (run_add 1 hrun).trans (run_succ 0 hend), ?_, ?_, List.nodup_range', h.bits.skip.rest⟩
  · simp [State.planted, hnn, hsp]
  · rw [← hnn]
    exact State.treeAt_congr htree fun _ _ => rfl

end Sys2Proof.Machine
end

section
/-! ## PROOFS: the compressor, step by step (spec/44_compressor.md R155 to R161) -/

namespace Sys2Proof

/-! ### A bit string in whole bytes (R41, R48) -/

/-- Bits that fill whole bytes, put into bytes and laid out again, are themselves. -/
theorem bitsOfBytes_bytesOfBits {bs : Bits} {k : Nat} (h : bs.length = 8 * k) : bitsOfBytes (bytesOfBits bs) = bs := by
  induction k generalizing bs with
  | zero => rw [List.length_eq_zero_iff.1 h]; rfl
  | succ k ih =>
    have hfirst := bitsOf_ofNat_valOf_take (n := 8) (bits := bs) (by omega)
    have hrest : (bs.drop 8).length = 8 * k := by rw [List.length_drop]; omega
    conv_lhs => rw [← List.take_append_drop 8 bs, ← hfirst]
    rw [bytesOfBits_bitsOf_append, bitsOfBytes, hfirst, ih hrest, List.take_append_drop]

end Sys2Proof

namespace Sys2Proof.Machine

variable {s : State}

/-! ### WR.MAGIC (R156) -/

/-- The state after WR.MAGIC. -/
def State.magicWritten (s : State) : State :=
  ((s.called.append (bitsOf 32 s.par.magic.toNat)).pushed { n := s.root, code := none }).enter .ser

theorem execWrMagic_ok (ha : s.answer = .ok) (hsp : s.sp < 513) : execWrMagic s = .next s.magicWritten :=
  (memWrite_ok _ ha).trans (push_ok _ hsp)

/-- Settles O28: the write is served and the stack has room. -/
theorem writeTheMagicWord : Obligations.WriteTheMagicWord := fun s ha hsp =>
  ⟨s.magicWritten, execWrMagic_ok ha hsp, rfl, ⟨none, Table.get?_set_self _ _ _⟩,
    fun _ hp => Table.get?_set_ne _ _ hp.ne'⟩

/-! ### ENC.BYTE and ENC.EOD (R158, R159, R160) -/

theorem execEncByte_writes (hs : s.servesTwo) (h : s.inp.has 8) (hcode : (s.codeAt (valOf (s.inp.next 8))).len ≠ 0) :
    execEncByte s = .next ((s.called.advance 8).called.append (s.codeAt (valOf (s.inp.next 8))).word) := by
  obtain ⟨hfirst, hsecond⟩ := hs
  exact (memRead_bits _ hfirst h).trans ((if_neg hcode).trans (memWrite_ok _ hsecond))

theorem execEncByte_noCode (ha : s.answer = .ok) (h : s.inp.has 8)
    (hcode : (s.codeAt (valOf (s.inp.next 8))).len = 0) :
    execEncByte s = raise .eNocode 0 (s.called.advance 8) :=
  (memRead_bits _ ha h).trans (if_pos hcode)

theorem execEncEod_writes (hs : s.servesTwo) (h : ¬ s.inp.has 8) :
    execEncEod s = .next ((s.called.called.append (s.codeAt 256).word).enter .close) := by
  obtain ⟨hfirst, hsecond⟩ := hs
  exact (memRead_eos _ hfirst h).trans (memWrite_ok _ hsecond)

/-- Settles O30: the byte read has a code or has none, or no byte is left. -/
theorem encodePayload : Obligations.EncodePayload := by
  refine fun s => ⟨fun ha h v c hv hc => ?_, fun hs h => execEncEod_writes hs (Nat.not_le.2 h)⟩
  subst hv hc
  exact ⟨fun hcode hb => execEncByte_writes ⟨ha, hb⟩ h hcode, execEncByte_noCode ha h⟩

/-! ### CLOSE (R48, R161) -/

@[simp] theorem padBits_length (d n : Nat) : (padBits d n).length = padLen n := by
  rw [padBits, List.length_map, List.length_range]

/-- T and its pad, put into bytes, are delivered bit for bit. -/
theorem OutChan.bitsOfBytes_flushed (c : OutChan) (d : Nat) :
    bitsOfBytes (c.flushed d).delivered = c.bits ++ padBits d c.bits.length := by
  obtain ⟨k, hk⟩ := Nat.dvd_of_mod_eq_zero (padLen_fills c.bits.length)
  exact bitsOfBytes_bytesOfBits (k := k) (by rw [List.length_append, padBits_length, hk])

/-- The state after CLOSE. -/
def State.closed (s : State) : State :=
  { s.called with out := s.out.flushed s.draws, draws := s.draws + 1, phase := .done }

theorem execClose_ok (ha : s.answer = .ok) : execClose s = .next s.closed := closeOut_ok _ ha

/-- Settles O31: the pad reaches the byte boundary, and bytes laid out again are the bits put into them. -/
theorem closeDelivers : Obligations.CloseDelivers := fun s ha =>
  ⟨s.closed, padBits s.draws s.out.bits.length, execClose_ok ha, rfl, rfl, rfl,
    (padBits_length _ _).trans_lt (padLen_lt _), by rw [padBits_length]; exact padLen_fills _,
    s.out.bitsOfBytes_flushed s.draws⟩

/-! ### The order of phases (R155, R175) -/

/-- Settles O44: with no move listed the step is the core's turn, and `phaseIn_coreStep` has every phase. -/
theorem phasesFollowTheirOrder : Obligations.PhasesFollowTheirOrder := fun s t hm hstep =>
  (ends_iff.1 (phaseIn_coreStep s)).1 t ((step_of_noMoves hm).symm.trans hstep)

end Sys2Proof.Machine
end

section
/-! ## PROOFS: COMPRESS as a function of the input (spec/44_compressor.md R162)

The run is cut at P_DERIVE. Up to there the input is counted and the tree built (`run_buildsTree`); from there on codes
are derived, and magic word, header and code words are written (`run_writesFile`). -/

namespace Sys2Proof

/-! ### The code words of symbols and of an input (R76, R87) -/

theorem HTree.codeOf_eq {t : HTree} (honce : t.syms.Nodup) {sym : Sym} {p : Bits} (h : (sym, p) ∈ t.codes []) :
    t.codeOf sym = some p := by
  have hkeys : ((t.codes []).map Prod.fst).Nodup := by rwa [HTree.map_fst_codes]
  cases hfind : (t.codes []).find? fun e => e.1 == sym with
  | none => exact absurd (List.find?_eq_none.1 hfind _ h) (by simp)
  | some e =>
    obtain rfl : e = (sym, p) :=
      List.inj_on_of_nodup_map hkeys (List.mem_of_find?_eq_some hfind) h (by simpa using List.find?_some hfind)
    rw [HTree.codeOf, hfind, Option.map_some]

theorem HTree.data_eq {t : HTree} {word : Sym → Bits} (hword : ∀ sym ∈ t.syms, t.codeOf sym = some (word sym))
    (heod : 256 ∈ t.syms) {d : List Byte} (hd : ∀ b ∈ d, b.setWidth 9 ∈ t.syms) :
    t.data d = some ((d.flatMap fun b => word (b.setWidth 9)) ++ word 256) := by
  induction d with
  | nil => exact hword _ heod
  | cons b r ih =>
    obtain ⟨hb, hr⟩ := List.forall_mem_cons.1 hd
    simp [HTree.data, hword _ hb, ih hr]

theorem toNat_symOfByte (b : Byte) : (b.setWidth 9).toNat = b.toNat := BitVec.toNat_setWidth_of_le (by decide)

end Sys2Proof

namespace Sys2Proof.Machine

variable {s t u : State}

/-! ### From the command to the tree (R103, R116, R198) -/

theorem State.Inv.run {k : Nat} (h : s.Inv) (hrun : run k s = .next t) : t.Inv := by
  induction k generalizing s with
  | zero => cases hrun; exact h
  | succ k ih =>
    cases hstep : step s with
    | next u => exact ih (stepKeepsTheInvariant s u h hstep) ((run_succ k hstep).symm.trans hrun)
    | fault f => simp [Machine.run, hstep] at hrun
    | refused r => simp [Machine.run, hstep] at hrun

/-- Outside P_FAULT no cause is set (R13). -/
theorem State.Inv.noCause (h : s.Inv) (hp : s.phase ≠ .fault) : s.errcode = .eNone :=
  not_not.1 fun herr => hp (h.errIff.2 herr)

theorem step_compress {w : Word} {ms : List Move} (hm : s.moves = .write .cmd w :: ms)
    (hw : decodeCommand w = .compress) (hb : s.busy = false) :
    step s = .next (commandStart .count { s with moves := ms }) := by
  rw [step_of_moves hm, makeMove, hostWrite, hw]
  exact if_neg (hb.symm ▸ Bool.false_ne_true)

theorem occurs_eq_zero_iff {d : List Byte} : (∀ v, v < 256 → occurs v d = 0) ↔ d = [] := by
  refine ⟨fun h => ?_, fun h _ _ => by rw [h]; rfl⟩
  cases d with
  | nil => rfl
  | cons b r =>
    have hb := h b.toNat b.isLt
    rw [occurs_cons, if_pos rfl] at hb
    omega

/-- The symbols of the tree built from an input's counts (R103, R115, R116). -/
def inputSym (d : List Byte) (sym : Sym) : Prop :=
  sym.toNat = 256 ∨ sym.toNat < 256 ∧ 0 < occurs sym.toNat d ∨ sym = 0 ∧ d = []

theorem State.builtSym_iff {d : List Byte} (heod : s.freqAt 256 = 1) (hbyte : ∀ v, v < 256 → s.freqAt v = occurs v d)
    (sym : Sym) : s.builtSym sym ↔ inputSym d sym := by
  have hempty : (∀ v, v < 256 → s.freqAt v = 0) ↔ d = [] := by
    rw [← occurs_eq_zero_iff]
    exact forall₂_congr fun v hv => by rw [hbyte v hv]
  rw [State.builtSym, inputSym, hempty, ← or_assoc]
  refine or_congr_left ⟨fun ⟨hle, hpos⟩ => ?_, fun h => ?_⟩
  · rcases Nat.lt_or_eq_of_le hle with hlt | heq
    · exact .inr ⟨hlt, hbyte _ hlt ▸ hpos⟩
    · exact .inl heq
  · rcases h with heq | ⟨hlt, hpos⟩
    · exact ⟨heq.le, by rw [heq, heod]; exact Nat.one_pos⟩
    · exact ⟨hlt.le, (hbyte _ hlt).symm ▸ hpos⟩

theorem inputSym_byte {d : List Byte} {b : Byte} (h : b ∈ d) : inputSym d (b.setWidth 9) := by
  refine .inr (.inl ?_)
  rw [toNat_symOfByte]
  exact ⟨b.isLt, List.countP_pos_iff.2 ⟨b, h, beq_self_eq_true _⟩⟩

/-- A COMPRESS of the bytes `d`, written to CR0 in `s`, has come to the end of P_MERGE in `u`, with the tree `tr` at
`r`. -/
structure TreeBuilt (d : List Byte) (s u : State) (r : Nat) (tr : HTree) (ns : List Nat) : Prop where
  alone : u.Alone
  phase : u.phase = .derive
  freqEod : u.freqAt 256 = 1
  freqByte : ∀ v, v < 256 → u.freqAt v = occurs v d
  code : u.code = []
  sp : u.sp = 1
  top : u.top = some { n := some r, code := some { len := 0, bits := 0 } }
  root : u.root = some r
  tree : u.treeAt r tr ns
  apart : ns.Nodup
  inner : tr.isNode = true
  once : tr.syms.Nodup
  syms : ∀ sym, sym ∈ tr.syms ↔ inputSym d sym
  inp : u.inp = { bytes := d, pos := 0, again := none }
  out : u.out = s.out
  par : u.par = s.par

section TreeBuilt

variable {d : List Byte} {r : Nat} {tr : HTree} {ns : List Nat}

theorem TreeBuilt.depth_le (h : TreeBuilt d s u r tr ns) : tr.depth ≤ 256 :=
  HTree.depth_le_maxLen h.once (State.treeAt_syms h.tree)

theorem TreeBuilt.byte_mem (h : TreeBuilt d s u r tr ns) {b : Byte} (hb : b ∈ d) : b.setWidth 9 ∈ tr.syms :=
  (h.syms _).2 (inputSym_byte hb)

end TreeBuilt

/-- From the write of the command to the end of P_MERGE. -/
theorem run_buildsTree {w : Word} {d : List Byte} (hinv : s.Inv) (hb : s.busy = false) (hans : s.answers = [])
    (hm : s.moves = [.write .cmd w]) (hw : decodeCommand w = .compress)
    (hinp : s.inp = { bytes := d, pos := 0, again := none })
    (hfits : ∀ c, s.par.cntW = some c → d.length < 2 ^ c) :
    ∃ j u r tr ns, run j s = .next u ∧ TreeBuilt d s u r tr ns := by
  have hstart := step_compress hm hw hb
  have hbytes : s.inp.bytes = d := congrArg InChan.bytes hinp
  obtain ⟨t, hcount, ht, heod, hbyte, -⟩ := countingPass (commandStart .count { s with moves := [] })
    ⟨rfl, hinv.notWaiting hb, hans⟩ rfl rfl (congrArg InChan.pos hinp) (congrArg InChan.again hinp) fun c v hc =>
      List.countP_le_length.trans_lt (hbytes ▸ hfits c hc)
  have hbyte (v : Nat) (hv : v < 256) : t.freqAt v = occurs v d := hbytes ▸ hbyte v hv
  have hcounted := (run_succ _ hstart).trans hcount
  obtain ⟨f, rfl⟩ : ∃ f, t = { commandStart .count { s with moves := [] } with phase := .leaves, freq := f } := ⟨_, ht⟩
  obtain ⟨k, u, r, tr, ns, -, hbuild, hp, hroot, -, htree, hapart, hinner, honce, hsyms, hsp, htop, -, hfreq, hcode,
    huinp, hout, hpar, halone⟩ :=
    builderMakesTheTree _ (hinv.run hcounted) ⟨rfl, hinv.notWaiting hb, hans⟩ rfl rfl heod
  have hfreqAt (v : Nat) : u.freqAt v = Table.getD f 0 v := congrArg (Table.getD · 0 v) hfreq
  exact ⟨_, u, r, tr, ns, (run_add k hcounted).trans hbuild, {
    alone := halone
    phase := hp
    freqEod := (hfreqAt 256).trans heod
    freqByte := fun v hv => (hfreqAt v).trans (hbyte v hv)
    code := hcode
    sp := hsp
    top := htop
    root := hroot
    tree := htree
    apart := hapart
    inner := hinner
    once := honce
    syms := fun sym => (hsyms sym).trans (State.builtSym_iff heod hbyte sym)
    inp := huinp.trans hinp
    out := hout
    par := hpar }⟩

theorem State.Alone.enter (h : s.Alone) (p : Phase) : (s.enter p).Alone := ⟨h.noMoves, h.notWaiting, h.served⟩

/-! ### P_WMAGIC and P_SER (R156, R138) -/

/-- The magic word and the header of the tree at ROOT are appended. -/
theorem run_writesHeader {r : Nat} {tr : HTree} {ns : List Nat} (halone : s.Alone) (hp : s.phase = .wmagic)
    (hsp : s.sp = 0) (hroot : s.root = some r) (htree : s.treeAt r tr ns) (hdepth : tr.depth ≤ 256) :
    ∃ stk, run (tr.size + 1 + 1) s =
      .next ((s.serialised (bitsOf 32 s.par.magic.toNat ++ tr.header) stk 0).enter .encode) := by
  have hstep : step s = .next s.magicWritten :=
    (halone.step_eq (select_wmagic hp)).trans (execWrMagic_ok halone.answer (by omega))
  have hentry : s.magicWritten.top = some { n := some r, code := none } :=
    (State.top_of_pos (Nat.succ_pos s.sp)).trans (hroot ▸ Table.get?_set_self s.stk s.sp _)
  have htree' : s.magicWritten.treeAt r tr ns := State.treeAt_congr htree fun _ _ => rfl
  obtain ⟨-, t, hrun, ht⟩ := serialiserAppendsTheHeader s.magicWritten r none tr ns
    ⟨halone.noMoves, halone.notWaiting, congrArg List.tail halone.served⟩ rfl (congrArg (· + 1) hsp) hentry htree' hdepth
  refine ⟨t.stk, (run_succ _ hstep).trans (hrun.trans (congrArg _ (ht.trans ?_)))⟩
  rw [State.magicWritten, halone.called]
  simp [State.serialised, State.append, State.enter, State.pushed]

/-! ### P_ENCODE (R158, R160) -/

/-- The code word that CODE holds for a symbol (R162: `code(s)`). -/
def State.wordOf (s : State) (sym : Sym) : Bits := (s.codeAt sym.toNat).word

/-- The code words that CODE holds for bytes. -/
def State.wordsOf (s : State) (d : List Byte) : Bits := d.flatMap fun b => s.wordOf (b.setWidth 9)

theorem State.len_ne_zero_of_wordOf {sym : Sym} (h : s.wordOf sym ≠ []) : (s.codeAt sym.toNat).len ≠ 0 := by
  intro hzero
  refine h (List.length_eq_zero_iff.1 ?_)
  rw [State.wordOf, Code.word, bitsOf_length, hzero]

/-- `s` with the cursor `n` bytes further and `bs` appended to OUT. -/
def State.encoded (s : State) (n : Nat) (bs : Bits) : State :=
  { s.append bs with inp := { s.inp with pos := s.inp.pos + 8 * n } }

theorem State.Alone.encoded (h : s.Alone) (n : Nat) (bs : Bits) : (s.encoded n bs).Alone :=
  ⟨h.noMoves, h.notWaiting, h.served⟩

theorem State.encoded_one_encoded (s : State) (n : Nat) (a b : Bits) :
    (s.encoded 1 a).encoded n b = s.encoded (n + 1) (a ++ b) := by
  simp [State.encoded, State.append, Nat.mul_add, Nat.add_assoc, Nat.add_comm]

theorem State.encoded_append (s : State) (n : Nat) (a b : Bits) : (s.encoded n a).append b = s.encoded n (a ++ b) := by
  simp [State.encoded, State.append]

theorem step_encByte {b : Byte} {r : List Byte} (h : s.Alone) (hp : s.phase = .encode)
    (hin : s.inp.upcoming (b :: r)) (hcode : s.wordOf (b.setWidth 9) ≠ []) :
    step s = .next (s.encoded 1 (s.wordOf (b.setWidth 9))) := by
  have hsel : decode (.select s.selector) = .ok .encByte := by
    rw [select_encode hp, peek_of_has h.answer hin.has]
    rfl
  have hlen := State.len_ne_zero_of_wordOf hcode
  rw [toNat_symOfByte, ← hin.valOf_next] at hlen
  have hexec := execEncByte_writes h.servesTwo hin.has hlen
  rw [hin.valOf_next, ← toNat_symOfByte, h.called] at hexec
  rw [State.Alone.called (s := s.advance 8) ⟨h.noMoves, h.notWaiting, h.served⟩] at hexec
  exact (h.step_eq hsel).trans hexec

theorem step_encEod (h : s.Alone) (hp : s.phase = .encode) (hin : s.inp.upcoming []) :
    step s = .next ((s.append (s.wordOf 256)).enter .close) := by
  have hsel : decode (.select s.selector) = .ok .encEod := by
    rw [select_encode hp, peek_of_not_has h.answer hin.not_has]
    rfl
  have hexec := execEncEod_writes h.servesTwo hin.not_has
  rw [h.called, h.called] at hexec
  exact (h.step_eq hsel).trans hexec

/-- ENC.BYTE, step after step, appends the code words of the bytes that are left. -/
theorem run_encodes {rest : List Byte} (h : s.Alone) (hp : s.phase = .encode) (hin : s.inp.upcoming rest)
    (hcode : ∀ b ∈ rest, s.wordOf (b.setWidth 9) ≠ []) :
    run rest.length s = .next (s.encoded rest.length (s.wordsOf rest)) := by
  induction rest generalizing s with
  | nil =>
    have hnone : s.encoded 0 [] = s := by simp [State.encoded, State.append]
    exact congrArg Host.Outcome.next hnone.symm
  | cons b r ih =>
    obtain ⟨hb, hr⟩ := List.forall_mem_cons.1 hcode
    have hrun := ih (h.encoded 1 (s.wordOf (b.setWidth 9))) hp hin.tail hr
    rw [State.encoded_one_encoded] at hrun
    exact (run_succ _ (step_encByte h hp hin hb)).trans hrun

theorem run_encodesAll {rest : List Byte} (h : s.Alone) (hp : s.phase = .encode) (hin : s.inp.upcoming rest)
    (hcode : ∀ b ∈ rest, s.wordOf (b.setWidth 9) ≠ []) :
    run (rest.length + 1) s = .next ((s.encoded rest.length (s.wordsOf rest ++ s.wordOf 256)).enter .close) := by
  have hend := step_encEod (h.encoded rest.length (s.wordsOf rest)) hp hin.passed
  rw [State.encoded_append] at hend
  exact (run_add 1 (run_encodes h hp hin hcode)).trans (run_succ 0 hend)

/-! ### From the tree to P_DONE -/

theorem step_close (h : s.Alone) (hp : s.phase = .close) : step s = .next s.closed :=
  (h.step_eq (select_close hp)).trans (execClose_ok h.answer)

/-- What P_DERIVE leaves, P_SER and P_ENCODE in turn write to. -/
theorem State.encoded_serialised (s : State) (code : Table Code) (stk stk' : Table StkEntry) (n : Nat) (a b : Bits) :
    (((((s.derived code stk 0).enter .wmagic).serialised a stk' 0).enter .encode).encoded n b).enter .close =
      ((s.derived code stk' 0).encoded n (a ++ b)).enter .close := by
  simp [State.encoded, State.serialised, State.derived, State.append, State.enter]

theorem HoldsCodes.wordOf {tr : HTree} (h : HoldsCodes tr t) (hdepth : tr.depth ≤ 256) {sym : Sym} {p : Bits}
    (hp : (sym, p) ∈ tr.codes []) : t.wordOf sym = p := by
  rw [State.wordOf, h.paths sym p hp]
  exact Code.word_ofWord ((HTree.length_le_depth hp).trans hdepth)

theorem HoldsCodes.codeOf_eq {tr : HTree} (h : HoldsCodes tr t) (hdepth : tr.depth ≤ 256) (honce : tr.syms.Nodup)
    {sym : Sym} (hsym : sym ∈ tr.syms) : tr.codeOf sym = some (t.wordOf sym) := by
  obtain ⟨p, hp⟩ := HTree.mem_syms.1 hsym
  rw [h.wordOf hdepth hp, HTree.codeOf_eq honce hp]

theorem HoldsCodes.wordOf_ne_nil {tr : HTree} (h : HoldsCodes tr t) (hdepth : tr.depth ≤ 256)
    (hinner : tr.isNode = true) {sym : Sym} (hsym : sym ∈ tr.syms) : t.wordOf sym ≠ [] := by
  obtain ⟨p, hp⟩ := HTree.mem_syms.1 hsym
  rw [h.wordOf hdepth hp]
  exact HTree.word_ne_nil hinner hp

/-- The state that COMPRESS ends in, from `u` at the start of P_DERIVE on: CODE and STK as the phases have left them, the
bits `bs` appended to OUT, and OUT closed. -/
def State.compressed (u : State) (code : Table Code) (stk : Table StkEntry) (n : Nat) (bs : Bits) : State :=
  (((u.derived code stk 0).encoded n bs).enter .close).closed

/-- From the end of P_MERGE on: the codes are derived, and all of the file is written. -/
theorem run_writesFile {d : List Byte} {r : Nat} {tr : HTree} {ns : List Nat} (h : TreeBuilt d s u r tr ns) :
    ∃ k code stk, HoldsCodes tr (u.derived code stk 0) ∧ run k u = .next (u.compressed code stk d.length
      (bitsOf 32 u.par.magic.toNat ++ tr.header ++
        ((u.derived code stk 0).wordsOf d ++ (u.derived code stk 0).wordOf 256))) := by
  have hdepth := h.depth_le
  obtain ⟨v, hderive, hv, hpaths, hothers⟩ :=
    derivedCodesArePaths u r tr ns h.alone h.phase h.code h.sp h.top h.tree hdepth h.inner h.once
  obtain ⟨code, stk, rfl⟩ : ∃ code stk, v = (u.derived code stk 0).enter .wmagic := ⟨_, _, hv⟩
  have hcodes (stk : Table StkEntry) : HoldsCodes tr (u.derived code stk 0) := ⟨hpaths, hothers⟩
  have halone := (h.alone.derived code stk 0).enter .wmagic
  obtain ⟨stk', hheader⟩ := run_writesHeader halone rfl rfl h.root (State.treeAt_congr h.tree fun _ _ => rfl) hdepth
  have halone' := (halone.serialised (bitsOf 32 u.par.magic.toNat ++ tr.header) stk' 0).enter .encode
  have hin : u.inp.upcoming d := by rw [h.inp]; exact InChan.upcoming_of_pos_zero rfl
  have hencode := run_encodesAll halone' rfl hin fun b hb =>
    (hcodes stk').wordOf_ne_nil hdepth h.inner (h.byte_mem hb)
  rw [State.encoded_serialised] at hencode
  have hclose (bs : Bits) := step_close (((h.alone.derived code stk' 0).encoded d.length bs).enter .close) rfl
  exact ⟨_, code, stk', hcodes stk', (run_add _ hderive).trans ((run_add _ hheader).trans ((run_add 1 hencode).trans
    (run_succ 0 (hclose _))))⟩

/-- Settles O59: `run_buildsTree`, then `run_writesFile`. -/
theorem compressAsAFunction : Obligations.CompressAsAFunction := by
  intro s w d hinv hb hans hm hw hinp hbits _ hfits
  obtain ⟨j, u, r, tr, ns, hrunu, h⟩ := run_buildsTree hinv hb hans hm hw hinp hfits
  obtain ⟨k, code, stk, hcodes, hrunt⟩ := run_writesFile h
  have hcodeOf := fun sym hsym => hcodes.codeOf_eq h.depth_le h.once (sym := sym) hsym
  have hdata := HTree.data_eq hcodeOf ((h.syms 256).2 (.inl rfl)) fun b => h.byte_mem
  have hrun := (run_add k hrunu).trans hrunt
  refine ⟨j, j + k, u, _, r, tr, ns, _, padBits _ _, hrunu, h.phase, h.freqEod, h.freqByte, h.root, h.tree,
    Nat.le_add_right j k, hrun, rfl, (hinv.run hrun).noCause Phase.noConfusion, ?_, h.root,
    State.treeAt_congr h.tree fun _ _ => rfl, h.apart, h.inner, h.once, h.syms, hcodeOf, hdata, ?_, rfl,
    (padBits_length _ _).trans_lt (padLen_lt _), OutChan.bitsOfBytes_flushed _ _⟩
  · show { u.inp with pos := u.inp.pos + 8 * d.length } = _
    rw [h.inp, Nat.zero_add]
  · show u.out.bits ++ _ = _
    rw [h.out, hbits, h.par]
    rfl

end Sys2Proof.Machine
end

section
/-! ## PROOFS: the decompressor, step by step (spec/45_decompressor.md R176 to R181) -/

namespace Sys2Proof.Machine

variable {s : State}

/-! ### RD.MAGIC (R176) -/

/-- RD.MAGIC, and MAGIC where it is the next token, have one meaning. -/
theorem exec_magicToken {i : Instr} {m : Word} (hi : i = .rdMagic ∨ i = .magic m ∧ s.phase = .rmagic)
    (h : s.inp.has 32) (hbits : s.inp.next 32 = bitsOf 32 m.toNat) : exec i s = checkMagic s := by
  rcases hi with rfl | ⟨rfl, hp⟩
  · rfl
  · have hlen : (tokenBits (.magic m)).length = 32 := by simp
    have hpos : s.tokenPos = some .magic := by rw [State.tokenPos, hp]
    have htoken : s.tokenAt = some (.magic m) := tokenAt_of_next hpos rfl hlen.le (hlen ▸ h) (by rw [hlen]; exact hbits)
    exact if_pos htoken

/-- The word read decides. -/
theorem checkMagic_word {m : Word} (ha : s.answer = .ok) (h : s.inp.has 32)
    (hbits : s.inp.next 32 = bitsOf 32 m.toNat) :
    checkMagic s =
      if m = s.par.magic then .next ((s.called.advance 32).enter .deser)
      else raise .eFormat 0 (s.called.advance 32) := by
  have hval : valOf (s.inp.next 32) = m.toNat := by rw [hbits, valOf_bitsOf, Nat.mod_eq_of_lt m.isLt]
  refine (memRead_bits _ ha h).trans (if_congr ?_ rfl rfl)
  rw [hval]
  exact BitVec.toNat_inj

theorem checkMagic_short (ha : s.answer = .ok) (h : ¬ s.inp.has 32) : checkMagic s = raise .eFormat 0 s.called :=
  memRead_eos _ ha h

/-- Settles O32: 32 bits are left, and the word read is MAGIC or is not, or fewer are left. -/
theorem checkTheMagicWord : Obligations.CheckTheMagicWord := fun _ ha =>
  ⟨fun _ _ h hbits hi =>
    have heq := (exec_magicToken hi h hbits).trans (checkMagic_word ha h hbits)
    ⟨fun hm => heq.trans (if_pos hm), fun hm => heq.trans (if_neg hm)⟩,
    fun h => checkMagic_short ha (Nat.not_le.2 h)⟩

/-! ### DEC.BIT (R178 to R181) -/

/-- DEC.BIT, and PAY.BIT where it is the next token, have one meaning. -/
theorem exec_payloadToken {i : Instr} {b : Bool} (hi : i = .decBit ∨ i = .payBit b ∧ s.phase = .decode)
    (h : s.inp.has 1) (hbit : s.inp.next 1 = [b]) : exec i s = walkBit s := by
  rcases hi with rfl | ⟨rfl, hp⟩
  · rfl
  · have hpos : s.tokenPos = some .payload := by rw [State.tokenPos, hp]
    have htoken : s.tokenAt = some (.payBit b) := tokenAt_of_next hpos rfl (by decide : 1 ≤ 32) h hbit
    exact if_pos htoken

theorem walkBit_noBit (ha : s.answer = .ok) (h : ¬ s.inp.has 1) : walkBit s = raise .eTrunc 0 s.called :=
  memRead_eos _ ha h

/-- `s` with `n` bits consumed and CUR at node `m`. -/
def State.walked (s : State) (n m : Nat) : State :=
  { s with inp := { s.inp with pos := s.inp.pos + n }, cur := some m }

/-- One bit is consumed, and leads to one child. -/
theorem walkBit_bit {b : Bool} {c w l r : Nat} {q : Bool} (ha : s.answer = .ok) (h : s.inp.has 1)
    (hbit : s.inp.next 1 = [b]) (hcur : s.cur = some c) (hn : s.nodeAt c = some (.inner w (some l) (some r) q)) :
    walkBit s = arrive (s.called.walked 1 (if b then r else l)) := by
  have hn : (s.called.advance 1).nodeAt c = some (.inner w (some l) (some r) q) := hn
  refine (memRead_bits _ ha h).trans ?_
  rw [hbit]
  dsimp only [State.advance_cur, State.called_cur]
  rw [hcur, withNode_ok _ hn]
  cases b <;> rfl

/-- `s` after the write of a literal's bits: the walk is back at the root. -/
def State.written (s : State) (bs : Bits) : State :=
  { s with answers := s.answers.tail, out := { s.out with bits := s.out.bits ++ bs }, cur := s.root }

section Arrival

variable {m : Nat}

theorem arrive_inner {w : Nat} {l r : Option Nat} {q : Bool} (hcur : s.cur = some m)
    (hn : s.nodeAt m = some (.inner w l r q)) : arrive s = .next s := by
  rw [arrive, hcur, withNode_ok _ hn]

variable {sym : Sym} {w : Nat} {q : Bool}

theorem arrive_sentinel (hcur : s.cur = some m) (hn : s.nodeAt m = some (.leaf sym w q)) (hsym : sym.toNat = 256) :
    arrive s = .next (s.enter .close) := by
  rw [arrive, hcur, withNode_ok _ hn]
  exact if_pos hsym

theorem arrive_literal (ha : s.answer = .ok) (hcur : s.cur = some m) (hn : s.nodeAt m = some (.leaf sym w q))
    (hsym : sym.toNat ≤ 255) : arrive s = .next (s.written (bitsOf 8 sym.toNat)) := by
  have hlit : sym.toNat ≠ Config.eod := (Nat.lt_succ_of_le hsym).ne
  rw [arrive, hcur, withNode_ok _ hn]
  dsimp only
  rw [if_neg hlit, memWrite_ok _ ha, Nat.mod_eq_of_lt (Nat.lt_succ_of_le hsym)]
  rfl

end Arrival

/-- The state after the bit that completes a literal's code word. -/
theorem State.walked_written (s : State) (m : Nat) (bs : Bits) :
    (s.called.walked 1 m).written bs =
      { s with inp := { s.inp with pos := s.inp.pos + 1 }, answers := s.answers.tail.tail,
               out := { s.out with bits := s.out.bits ++ bs }, cur := s.root } := rfl

/-- Settles O37: `walkBit_bit` walks to the child, and its kind and symbol say what happens there. -/
theorem decodeOneBit : Obligations.DecodeOneBit := by
  refine fun s ha => ⟨fun h => walkBit_noBit ha (Nat.not_le.2 h), ?_⟩
  intro i b c w l r q m hi h hbit hcur hn hm
  have heq : exec i s = arrive (s.called.walked 1 m) :=
    hm ▸ (exec_payloadToken hi h hbit).trans (walkBit_bit ha h hbit hcur hn)
  exact ⟨fun w' l' r' q' hchild => heq.trans (arrive_inner rfl hchild),
    fun sym w' q' hchild hsym => heq.trans (arrive_sentinel rfl hchild hsym),
    fun sym w' q' hchild hsym hserved => heq.trans (arrive_literal hserved rfl hchild hsym)⟩

end Sys2Proof.Machine
end

section
/-! ## PROOFS: the decoder's walk over a payload (spec/45_decompressor.md R178 to R180) -/

namespace Sys2Proof

/-- The subtree below an edge (R76). -/
def HTree.child (l r : HTree) (b : Bool) : HTree := if b then r else l

theorem HTree.follow_node (l r : HTree) (b : Bool) (p : Bits) :
    (HTree.node l r).follow (b :: p) = (HTree.child l r b).follow p := by
  cases b <;> rfl

/-- The bits of code words in a row. -/
def wordBits (words : List (Bits × Sym)) : Bits := (words.map Prod.fst).flatten

/-- The bits that the code words' literals stand for. -/
def literalBits (words : List (Bits × Sym)) : Bits := (words.map fun e => bitsOf 8 e.2.toNat).flatten

end Sys2Proof

namespace Sys2Proof.Machine

variable {s : State}

theorem State.Alone.congr {t : State} (h : s.Alone) (hm : t.moves = s.moves) (hw : t.waiting = s.waiting)
    (ha : t.answers = s.answers) : t.Alone :=
  ⟨hm.trans h.noMoves, hw.trans h.notWaiting, ha.trans h.served⟩

theorem State.treeAt_child {l r : HTree} {i : Nat} {ns : List Nat} (h : s.treeAt i (.node l r) ns) (b : Bool) :
    ∃ w x y q ns', s.nodeAt i = some (.inner w (some x) (some y) q) ∧
      s.treeAt (if b then y else x) (HTree.child l r b) ns' := by
  obtain ⟨w, q, x, y, nl, nr, hn, hl, hr, -⟩ := h
  cases b
  · exact ⟨w, x, y, q, nl, hn, hl⟩
  · exact ⟨w, x, y, q, nr, hn, hr⟩

/-! ### Down to a leaf -/

/-- The walk stands at the root of the subtree `tr`, at node `i`, with the bits `bs` to come. -/
structure Walker (tr : HTree) (i : Nat) (bs : Bits) (s : State) : Prop where
  alone : s.Alone
  phase : s.phase = .decode
  cur : s.cur = some i
  tree : ∃ ns, s.treeAt i tr ns
  bits : s.inp.Holds bs

theorem State.walked_walked (s : State) (n n' m m' : Nat) : (s.walked n m).walked n' m' = s.walked (n + n') m' := by
  simp [State.walked, Nat.add_assoc]

/-- One bit leads to the root of a child, and `arrive` says what happens there. -/
theorem Walker.step_eq {l r : HTree} {i : Nat} {b : Bool} {bs : Bits} (h : Walker (.node l r) i (b :: bs) s) :
    ∃ m, step s = arrive (s.walked 1 m) ∧ Walker (HTree.child l r b) m bs (s.walked 1 m) := by
  obtain ⟨ns, htree⟩ := h.tree
  obtain ⟨w, x, y, q, ns', hn, hchild⟩ := State.treeAt_child htree b
  have hbits : s.inp.Holds ([b] ++ bs) := h.bits
  obtain ⟨hbit, -⟩ := hbits.split
  have hwalk := walkBit_bit h.alone.answer hbits.has hbit h.cur hn
  rw [h.alone.called] at hwalk
  exact ⟨_, (h.alone.step_eq (select_decode h.phase)).trans hwalk,
    h.alone.congr rfl rfl rfl, h.phase, rfl,
    ⟨ns', State.treeAt_congr hchild fun _ _ => rfl⟩, hbits.skip⟩

/-- A whole path, one step per bit, ends with the arrival at its leaf. -/
theorem Walker.run_path {tr : HTree} {i : Nat} {p x : Bits} {sym : Sym} (h : Walker tr i (p ++ x) s)
    (hinner : tr.isNode = true) (hpath : tr.follow p = some sym) :
    ∃ m w q, s.nodeAt m = some (.leaf sym w q) ∧ run p.length s = arrive (s.walked p.length m) := by
  induction p generalizing s tr i with
  | nil =>
    cases tr with
    | leaf => cases hinner
    | node => cases hpath
  | cons b p ih =>
    cases tr with
    | leaf => cases hinner
    | node l r =>
      rw [HTree.follow_node] at hpath
      obtain ⟨j, hstep, hj⟩ := h.step_eq
      cases hchild : HTree.child l r b with
      | leaf sym' =>
        rw [hchild] at hj hpath
        obtain ⟨ns, -, -, w, q, hleaf⟩ := hj.tree
        cases p with
        | nil =>
          obtain rfl : sym' = sym := Option.some.inj hpath
          exact ⟨j, w, q, hleaf, (run_one s).trans hstep⟩
        | cons => cases hpath
      | node l' r' =>
        rw [hchild] at hj hpath
        obtain ⟨ns, w', q', x', y', -, -, hn, -⟩ := hj.tree
        obtain ⟨m, w, q, hleaf, hrun⟩ := ih hj rfl hpath
        rw [State.walked_walked, Nat.add_comm] at hrun
        exact ⟨m, w, q, hleaf, (run_succ _ (hstep.trans (arrive_inner rfl hn))).trans hrun⟩

/-! ### Code word after code word -/

/-- `s` with `n` bits consumed and `bs` appended to OUT. -/
def State.decoded (s : State) (n : Nat) (bs : Bits) : State :=
  { s with inp := { s.inp with pos := s.inp.pos + n }, out := { s.out with bits := s.out.bits ++ bs } }

theorem State.decoded_decoded (s : State) (n n' : Nat) (a b : Bits) :
    (s.decoded n a).decoded n' b = s.decoded (n + n') (a ++ b) := by
  simp [State.decoded, Nat.add_assoc]

section Words

variable {tr : HTree} {r : Nat} {x : Bits}

theorem Walker.decoded {p : Bits} (h : Walker tr r (p ++ x) s) (bs : Bits) :
    Walker tr r x (s.decoded p.length bs) where
  alone := h.alone.congr rfl rfl rfl
  phase := h.phase
  cur := h.cur
  tree := by
    obtain ⟨ns, htree⟩ := h.tree
    exact ⟨ns, State.treeAt_congr htree fun _ _ => rfl⟩
  bits := h.bits.skip

/-- The code word of a literal writes its byte, and the walk is at the root again. -/
theorem Walker.run_literal {p : Bits} {sym : Sym} (h : Walker tr r (p ++ x) s) (hroot : s.root = some r)
    (hinner : tr.isNode = true) (hpath : tr.follow p = some sym) (hsym : sym.toNat ≤ 255) :
    run p.length s = .next (s.decoded p.length (bitsOf 8 sym.toNat)) := by
  obtain ⟨m, w, q, hleaf, hrun⟩ := h.run_path hinner hpath
  have halone : (s.walked p.length m).Alone := h.alone.congr rfl rfl rfl
  rw [hrun, arrive_literal halone.answer rfl hleaf hsym]
  have hback : s.root = s.cur := hroot.trans h.cur.symm
  simp [State.walked, State.written, State.decoded, hback, h.alone.served]

theorem Walker.run_literals {words : List (Bits × Sym)} (h : Walker tr r (wordBits words ++ x) s)
    (hroot : s.root = some r) (hinner : tr.isNode = true)
    (hwords : ∀ e ∈ words, tr.follow e.1 = some e.2 ∧ e.2.toNat ≤ 255) :
    run (wordBits words).length s = .next (s.decoded (wordBits words).length (literalBits words)) := by
  induction words generalizing s with
  | nil => simp [wordBits, literalBits, run, State.decoded]
  | cons e words ih =>
    obtain ⟨⟨hpath, hsym⟩, hrest⟩ := List.forall_mem_cons.1 hwords
    have hbits : wordBits (e :: words) = e.1 ++ wordBits words := rfl
    rw [hbits, List.append_assoc] at h
    have hrun := ih (h.decoded (bitsOf 8 e.2.toNat)) hroot hrest
    rw [State.decoded_decoded] at hrun
    rw [hbits, List.length_append]
    exact (run_add _ (h.run_literal hroot hinner hpath hsym)).trans hrun

end Words

/-- Settles O58: the literals' words, then the sentinel's, whose leaf ends the phase. -/
theorem decoderWalksThePayload : Obligations.DecoderWalksThePayload := by
  intro s r tr ns words last x halone hp hroot hcur htree hinner hpos hwords hlast hrest
  have h : Walker tr r (wordBits words ++ (last ++ x)) s :=
    ⟨halone, hp, hcur, ⟨ns, htree⟩, hpos, hrest.trans (List.append_assoc _ _ _)⟩
  obtain ⟨m, w, q, hleaf, hrun⟩ := (h.decoded (literalBits words)).run_path hinner hlast
  exact ⟨_, (run_add _ (h.run_literals hroot hinner hwords)).trans (hrun.trans (arrive_sentinel rfl hleaf rfl)), rfl⟩

end Sys2Proof.Machine
end

section
/-! ## PROOFS: DECOMPRESS as a function of the file, and the round trip (spec/45_decompressor.md R183) -/

namespace Sys2Proof

theorem bitsOfBytes_append (a b : List Byte) : bitsOfBytes (a ++ b) = bitsOfBytes a ++ bitsOfBytes b := by
  induction a with
  | nil => rfl
  | cons x a ih => rw [List.cons_append, bitsOfBytes, bitsOfBytes, ih, List.append_assoc]

/-! ### The code words in a payload (R87) -/

theorem HTree.follow_of_codeOf {t : HTree} {sym : Sym} {p : Bits} (h : t.codeOf sym = some p) :
    t.follow p = some sym := by
  obtain ⟨⟨sym', p'⟩, hfind, rfl⟩ := Option.map_eq_some_iff.1 h
  obtain rfl : sym' = sym := by simpa using List.find?_some hfind
  exact HTree.mem_codes_iff.1 (List.mem_of_find?_eq_some hfind)

/-- The payload of `d` is one code word per byte, then one of the sentinel. -/
theorem HTree.words_of_data {t : HTree} {d : List Byte} {payload : Bits} (h : t.data d = some payload) :
    ∃ words last, payload = wordBits words ++ last ∧ literalBits words = bitsOfBytes d ∧
      (∀ e ∈ words, t.follow e.1 = some e.2 ∧ e.2.toNat ≤ 255) ∧ t.follow last = some 256 := by
  induction d generalizing payload with
  | nil => exact ⟨[], payload, rfl, rfl, fun _ he => absurd he List.not_mem_nil, HTree.follow_of_codeOf h⟩
  | cons b d ih =>
    obtain ⟨word, hword, hrest⟩ := Option.bind_eq_some_iff.1 h
    obtain ⟨rest, hdata, rfl⟩ := Option.map_eq_some_iff.1 hrest
    obtain ⟨words, last, rfl, hbytes, hwords, hlast⟩ := ih hdata
    refine ⟨(word, b.setWidth 9) :: words, last, (List.append_assoc _ _ _).symm, ?_,
      List.forall_mem_cons.2 ⟨⟨HTree.follow_of_codeOf hword, ?_⟩, hwords⟩, hlast⟩
    · rw [bitsOfBytes, ← hbytes, ← toNat_symOfByte]
      rfl
    · rw [toNat_symOfByte]
      exact Nat.le_of_lt_succ b.isLt

/-- A tree that has each symbol once fits in the arena (R8). -/
theorem HTree.size_le_nodeCap {tr : HTree} (honce : tr.syms.Nodup) (hsyms : ∀ sym ∈ tr.syms, sym.toNat ≤ 256) :
    tr.size ≤ 513 := by
  have hcard := Finset.card_le_card (HTree.indices_subset hsyms)
  rw [List.toFinset_card_of_nodup (HTree.nodup_indices honce), List.length_map, Finset.card_range] at hcard
  have := tr.size_succ
  omega

end Sys2Proof

namespace Sys2Proof.Machine

variable {s : State}

/-! ### DECOMPRESS -/

theorem InChan.holds_of_pos_zero {c : InChan} (h : c.pos = 0) : c.Holds (bitsOfBytes c.bytes) where
  posLe := h ▸ Nat.zero_le _
  rest := by rw [InChan.rest, InChan.next, h]; exact streamBits_eq_bitsOfBytes _

theorem step_decompress {w : Word} {ms : List Move} (hm : s.moves = .write .cmd w :: ms)
    (hw : decodeCommand w = .decompress) (hb : s.busy = false) :
    step s = .next (commandStart .rmagic { s with moves := ms }) := by
  rw [step_of_moves hm, makeMove, hostWrite, hw]
  exact if_neg (hb.symm ▸ Bool.false_ne_true)

theorem step_rdMagic {x : Bits} (h : s.Alone) (hp : s.phase = .rmagic)
    (hbits : s.inp.Holds (bitsOf 32 s.par.magic.toNat ++ x)) :
    step s = .next ((s.advance 32).enter .deser) ∧ (s.advance 32).inp.Holds x := by
  have hhas := hbits.has
  obtain ⟨hnext, -⟩ := hbits.split
  have hskip := hbits.skip
  rw [bitsOf_length] at hhas hnext hskip
  have hcheck := (checkMagic_word h.answer hhas hnext).trans (if_pos rfl)
  rw [h.called] at hcheck
  exact ⟨(h.step_eq (select_rmagic hp)).trans hcheck, hskip⟩

/-- A file of any tree and bytes, and any bits behind it, is decoded up to the end of P_DECODE. -/
theorem run_readsFile {tr : HTree} {d : List Byte} {payload x : Bits} (halone : s.Alone) (hp : s.phase = .rmagic)
    (hnn : s.nn = 0) (hsp : s.sp = 0) (hroot : s.root = none) (hinner : tr.isNode = true) (hroom : tr.size ≤ 513)
    (hsyms : ∀ sym ∈ tr.syms, sym.toNat ≤ 256) (hdata : tr.data d = some payload)
    (hbits : s.inp.Holds (bitsOf 32 s.par.magic.toNat ++ (tr.header ++ (payload ++ x)))) :
    ∃ k t, run k s = .next t ∧ t.Alone ∧ t.phase = .close ∧
      t.out = { s.out with bits := s.out.bits ++ bitsOfBytes d } := by
  obtain ⟨words, last, rfl, hbytes, hwords, hlast⟩ := HTree.words_of_data hdata
  obtain ⟨hmagic, hheld⟩ := step_rdMagic halone hp hbits
  have halone' : ((s.advance 32).enter .deser).Alone := halone.congr rfl rfl rfl
  obtain ⟨t, ns, hread, ht, htree, -, hrest⟩ := deserialiserInvertsTheSerialiser _ tr _ halone' rfl hnn hsp hroot
    hheld.posLe hheld.rest hinner hroom hsyms
  have hinp : t.inp = { (s.advance 32).inp with pos := (s.advance 32).inp.pos + tr.header.length } :=
    (congrArg State.inp ht :)
  have hposLe : t.inp.pos ≤ t.inp.len := hinp ▸ hheld.skip.posLe
  have haloneT : t.Alone :=
    halone.congr (congrArg State.moves ht :) (congrArg State.waiting ht :) (congrArg State.answers ht :)
  obtain ⟨u, hwalk, hu⟩ := decoderWalksThePayload t 0 tr ns words last x haloneT (congrArg State.phase ht :)
    (congrArg State.root ht :) (congrArg State.cur ht :) htree hinner hposLe hwords hlast hrest
  have hout : t.out = s.out := (congrArg State.out ht :)
  have houtU : u.out = { t.out with bits := t.out.bits ++ literalBits words } := (congrArg State.out hu :)
  refine ⟨_, u, (run_succ _ hmagic).trans ((run_add _ hread).trans hwalk),
    haloneT.congr (congrArg State.moves hu :) (congrArg State.waiting hu :) (congrArg State.answers hu :),
    (congrArg State.phase hu :), ?_⟩
  rw [houtU, hout, hbytes]

/-- DECOMPRESS of a file of any tree and bytes, from the write of the command to P_DONE, whatever bits stand behind the
file. -/
theorem run_decompresses {w : Word} {tr : HTree} {d : List Byte} {payload x : Bits} (hb : s.busy = false)
    (hwait : s.waiting = false) (hans : s.answers = []) (hm : s.moves = [.write .cmd w])
    (hw : decodeCommand w = .decompress) (hinner : tr.isNode = true) (hroom : tr.size ≤ 513)
    (hsyms : ∀ sym ∈ tr.syms, sym.toNat ≤ 256) (hdata : tr.data d = some payload)
    (hbits : s.inp.Holds (bitsOf 32 s.par.magic.toNat ++ tr.header ++ payload ++ x)) :
    ∃ k t n, run k s = .next t ∧ t.phase = .done ∧
      t.out = OutChan.flushed { s.out with bits := s.out.bits ++ bitsOfBytes d } n := by
  have hstart := step_decompress hm hw hb
  simp only [List.append_assoc] at hbits
  obtain ⟨k, t, hrun, halone, hp, hout⟩ := run_readsFile (s := commandStart .rmagic { s with moves := [] })
    ⟨rfl, hwait, hans⟩ rfl rfl rfl rfl hinner hroom hsyms hdata hbits
  have hend := (run_add 1 hrun).trans (run_succ 0 (step_close halone hp))
  exact ⟨_, t.closed, t.draws, (run_succ _ hstart).trans hend, rfl, congrArg (OutChan.flushed · t.draws) hout⟩

/-! ### Both commands -/

/-- Whole bytes are delivered as they are, without a pad (R48). -/
theorem OutChan.delivered_flushed {c : OutChan} {d : List Byte} (h : c.bits = bitsOfBytes d) (n : Nat) :
    (c.flushed n).delivered = d := by
  have hpad : padBits n c.bits.length = [] :=
    List.length_eq_zero_iff.1 (by rw [padBits_length, h, bitsOfBytes_length, padLen, Nat.mul_mod_right])
  rw [OutChan.flushed, hpad, List.append_nil, h, bytesOfBits_bitsOfBytes]

/-- A COMPRESS of the bytes `d` has ended in `t`, and has delivered a file of the tree `tr`, padded. -/
structure FileDelivered (d : List Byte) (tr : HTree) (t : State) : Prop where
  alone : t.Alone
  phase : t.phase = .done
  inner : tr.isNode = true
  room : tr.size ≤ 513
  syms : ∀ sym ∈ tr.syms, sym.toNat ≤ 256
  file : ∃ payload pad, tr.data d = some payload ∧
    bitsOfBytes t.out.delivered = bitsOf 32 t.par.magic.toNat ++ tr.header ++ payload ++ pad

/-- The bits that COMPRESS has appended to an empty T are delivered, padded. -/
theorem State.bitsOfBytes_compressed {u : State} (hempty : u.out.bits = []) (code : Table Code) (stk : Table StkEntry)
    (n : Nat) (bs : Bits) :
    bitsOfBytes (u.compressed code stk n bs).out.delivered = bs ++ padBits u.draws bs.length := by
  have hbits : ((u.derived code stk 0).encoded n bs).out.bits = bs := by
    show u.out.bits ++ bs = bs
    rw [hempty, List.nil_append]
  have hdelivered := OutChan.bitsOfBytes_flushed ((u.derived code stk 0).encoded n bs).out u.draws
  rwa [hbits] at hdelivered

/-- From the write of the command to P_DONE, on an OUT with an empty T. -/
theorem run_compresses {w : Word} {d : List Byte} (hinv : s.Inv) (hb : s.busy = false) (hans : s.answers = [])
    (hm : s.moves = [.write .cmd w]) (hw : decodeCommand w = .compress)
    (hinp : s.inp = { bytes := d, pos := 0, again := none }) (hempty : s.out.bits = [])
    (hfits : ∀ c, s.par.cntW = some c → d.length < 2 ^ c) : ∃ k t tr, run k s = .next t ∧ FileDelivered d tr t := by
  obtain ⟨j, u, r, tr, ns, hrunu, h⟩ := run_buildsTree hinv hb hans hm hw hinp hfits
  obtain ⟨k, code, stk, hcodes, hrunt⟩ := run_writesFile h
  have hsyms := State.treeAt_syms h.tree
  have hdata := HTree.data_eq (fun sym hsym => hcodes.codeOf_eq h.depth_le h.once hsym) ((h.syms 256).2 (.inl rfl))
    fun b => h.byte_mem
  have hempty : u.out.bits = [] := by rw [h.out, hempty]
  exact ⟨_, _, tr, (run_add k hrunu).trans hrunt, {
    alone := ⟨h.alone.noMoves, h.alone.notWaiting, congrArg List.tail h.alone.served⟩
    phase := rfl
    inner := h.inner
    room := HTree.size_le_nodeCap h.once hsyms
    syms := hsyms
    file := ⟨_, _, hdata, State.bitsOfBytes_compressed hempty code stk d.length _⟩ }⟩

/-- Settles O60: `run_compresses`, then `run_decompresses` on the padded file and what stands behind it. -/
theorem roundTrip : Obligations.RoundTrip := by
  intro s d extra hinv hb hans hm hinp hout hfits
  obtain ⟨k, t, tr, hrun, h⟩ := run_compresses hinv hb hans hm (by decide) hinp (congrArg OutChan.bits hout) hfits
  obtain ⟨payload, pad, hdata, hfile⟩ := h.file
  have hbits := InChan.holds_of_pos_zero (c := { bytes := t.out.delivered ++ extra, pos := 0, again := none }) rfl
  rw [bitsOfBytes_append, hfile, List.append_assoc] at hbits
  obtain ⟨k', u, n, hrun', hp, houtU⟩ := run_decompresses
    (s := { t with moves := [.write .cmd 2], inp := { bytes := t.out.delivered ++ extra, pos := 0, again := none },
                   out := { bits := [], closed := false, delivered := [] } })
    (by rw [State.busy, h.phase]) h.alone.notWaiting h.alone.served rfl (by decide) h.inner h.room h.syms hdata hbits
  exact ⟨k, t, hrun, h.phase, k', u, hrun', hp, congrArg OutChan.bits houtU,
    (congrArg OutChan.delivered houtU).trans (OutChan.delivered_flushed rfl n)⟩

end Sys2Proof.Machine
end

section
/-! ## PROOFS: host commands, the core's turn and the quiescent phases (spec/47_host_commands.md R195 to R204) -/

namespace Sys2Proof.Machine

variable {s : State} {i : Instr}

/-! ### Commands (R195, R203) -/

theorem accept_busy (k : Result) (h : s.busy = true) : accept s k = .next s := if_pos h

theorem accept_free (k : Result) (h : s.busy = false) : accept s k = k := if_neg (Bool.eq_false_iff.1 h)

theorem decodeCommand_kind (w : Word) : (decodeCommand w).kind = .command := by
  unfold decodeCommand
  split <;> rfl

/-- Every command asks first whether the core is busy. -/
theorem exec_command (h : i.kind = .command) (s : State) : ∃ r, exec i s = accept s r := by
  cases i with
  | nop | compress | decompress | clear | cmdRsvd => exact ⟨_, rfl⟩
  | _ => cases h

theorem exec_command_busy (h : i.kind = .command) (hb : s.busy = true) : exec i s = .next s := by
  obtain ⟨r, hr⟩ := exec_command h s
  rw [hr, accept_busy r hb]

theorem step_of_command {w : Word} {ms : List Move} (h : s.moves = .write .cmd w :: ms) :
    step s = exec (decodeCommand w) { s with moves := ms } := step_of_moves h

/-- Settles O13: every command begins with `accept`, and a CR0 write is the command that its word decodes to. -/
theorem busyDropsCommands : Obligations.BusyDropsCommands := fun _ hb =>
  ⟨fun _ hi => exec_command_busy hi hb,
    fun w _ hm => (step_of_command hm).trans (exec_command_busy (decodeCommand_kind w) hb)⟩

/-- Settles O12: both commands are `commandStart`, and a table without listed entries reads as its default. -/
theorem commandStartInitialises : Obligations.CommandStart := by
  rintro s hb i p (⟨rfl, rfl⟩ | ⟨rfl, rfl⟩)
  · exact ⟨_, accept_free _ hb, rfl, fun _ => ⟨rfl, rfl⟩⟩
  · exact ⟨_, accept_free _ hb, rfl, fun _ => ⟨rfl, rfl⟩⟩

/-- Settles O14: `accept` lets each command through, and OP says which one a word decodes to. -/
theorem nopClearReserved : Obligations.NopClearReserved := by
  refine fun s hb => ⟨accept_free _ hb, accept_free _ hb, fun _ => accept_free _ hb, fun w ms hm => ?_⟩
  obtain ⟨hnop, _, _, hclear, hrsvd, _⟩ := commandWordOpcodes w
  have hfree : State.busy { s with moves := ms } = false := hb
  rw [step_of_command hm]
  refine ⟨fun hop => ?_, fun hop => ?_, fun hop => ?_⟩
  · rw [hnop hop]; exact accept_free _ hfree
  · rw [hclear hop]; exact accept_free _ hfree
  · rw [hrsvd hop]; exact accept_free _ hfree

/-! ### The quiescent phases (R204, R220) -/

theorem State.quiescent.not_busy (h : s.quiescent) : s.busy = false := by
  unfold State.busy
  rcases h with h | h | h <;> rw [h]

/-- In a quiescent phase the core's turn changes nothing, whether a call is pending or not. -/
theorem coreStep_stays (h : s.quiescent) : coreStep s = .next s := by
  cases hw : s.waiting with
  | true => exact coreStep_of_waiting hw
  | false => exact coreStep_of_quiescent hw h

/-- Settles O42: with no move listed the step is the core's turn. -/
theorem quiescentStays : Obligations.QuiescentStays := fun _ hq hm => (step_of_noMoves hm).trans (coreStep_stays hq)

/-- `i` is a command that can change PHASE, a reserved opcode only by E_BADCMD in `t` (R201, R226). -/
def LeadsAway (i : Instr) (t : State) : Prop :=
  i = .compress ∨ i = .decompress ∨ i = .clear ∨ (∃ op, i = .cmdRsvd op) ∧ t.phase = .fault ∧ t.errcode = .eBadcmd

theorem ends_command_phase (hi : i.kind = .command) (s : State) :
    Ends True (fun t => t.phase = s.phase ∨ LeadsAway i t) (exec i s) := by
  cases i with
  | nop => exact ends_accept (fun _ => .inl rfl) fun _ => .inl rfl
  | compress => exact ends_accept (fun _ => .inl rfl) fun _ => .inr (.inl rfl)
  | decompress => exact ends_accept (fun _ => .inl rfl) fun _ => .inr (.inr (.inl rfl))
  | clear => exact ends_accept (fun _ => .inl rfl) fun _ => .inr (.inr (.inr (.inl rfl)))
  | cmdRsvd op => exact ends_accept (fun _ => .inl rfl) fun _ => .inr (.inr (.inr (.inr ⟨⟨op, rfl⟩, rfl, rfl⟩)))
  | _ => cases hi

/-- From a quiescent phase only a reset or a command changes PHASE. -/
theorem ends_makeMove_phase (hq : s.quiescent) (m : Move) :
    Ends True (fun t => t.phase = s.phase ∨ m = .reset ∨ ∃ w, m = .write .cmd w ∧ LeadsAway (decodeCommand w) t)
      (makeMove m s) := by
  cases m with
  | core => rw [makeMove, coreStep_stays hq]; exact .inl rfl
  | write r w =>
    cases r with
    | cmd =>
      have hends := ends_command_phase (decodeCommand_kind w) s
      exact hends.weaken fun _ => Or.imp_right fun haway => .inr ⟨w, rfl, haway⟩
    | status | ioinfo => exact .inl rfl
  | read r => exact .inl rfl
  | reset => exact .inr (.inl rfl)
  | attachIn bytes pos again => rw [makeMove, onChannels_free _ hq.not_busy]; exact .inl rfl
  | attachOut => rw [makeMove, onChannels_free _ hq.not_busy]; exact .inl rfl

/-- Settles O43: the core's turn stays, and of the moves only a reset or a command changes PHASE. -/
theorem waysOutOfDoneAndFault : Obligations.WaysOutOfDoneAndFault := by
  intro s t hphase hstep hne
  have hq : s.quiescent := .inr hphase
  cases hm : s.moves with
  | nil =>
    cases (quiescentStays s hq hm).symm.trans hstep
    exact absurd rfl hne
  | cons m ms =>
    rw [step_of_moves hm] at hstep
    have hends := ends_makeMove_phase (s := { s with moves := ms }) hq m
    rcases (ends_iff.1 hends).1 t hstep with h | rfl | ⟨w, rfl, haway⟩
    · exact absurd h hne
    · exact .inl ⟨ms, rfl⟩
    · exact .inr ⟨w, ms, rfl, haway⟩

/-! ### The token at the cursor (R89, R200) -/

theorem State.phase_of_tokenPos {pos : TokenPos} (h : s.tokenPos = some pos) :
    pos = .magic ∧ s.phase = .rmagic ∨ pos = .header ∧ s.phase = .deser ∧ (s.nn = 0 ∨ 0 < s.sp) ∨
      pos = .payload ∧ s.phase = .decode := by
  unfold State.tokenPos at h
  split at h
  next hp => cases h; exact .inl ⟨rfl, hp⟩
  next hp =>
    split at h
    · cases h; exact .inr (.inl ⟨rfl, hp, ‹_›⟩)
    · cases h
  next hp => cases h; exact .inr (.inr ⟨rfl, hp⟩)
  all_goals cases h

/-- The token at the cursor has the kind that its position gives, and its bits lie ahead. -/
theorem ahead_of_tokenAt (h : s.tokenAt = some i) :
    ∃ pos r, s.tokenPos = some pos ∧ encode i = .token pos (tokenBits i) ∧ s.inp.ahead 32 = tokenBits i ++ r := by
  unfold State.tokenAt at h
  split at h
  · cases h
  next pos hpos =>
    rw [decode] at h
    cases hdec : decodeToken pos (s.inp.ahead 32) with
    | error e => rw [hdec] at h; cases h
    | ok d =>
      obtain ⟨j, r⟩ := d
      rw [hdec] at h
      cases h
      obtain ⟨hbits, henc⟩ := decodedTokenIsWhatStood pos _ r i hdec
      exact ⟨pos, r, hpos, henc, hbits.symm⟩

theorem InChan.first_of_ahead {c : InChan} {n : Nat} {b : Bool} {r : Bits} (h : c.ahead n = b :: r) :
    c.has 1 ∧ c.next 1 = [b] := by
  unfold InChan.ahead at h
  cases hwidth : min n (c.len - c.pos) with
  | zero => rw [hwidth] at h; cases h
  | succ k =>
    rw [hwidth] at h
    cases h
    exact ⟨show c.pos + 1 ≤ c.len by omega, rfl⟩

/-- What follows the tag matters only where a tag bit is read. -/
theorem desTag_congr {k k' : Nat → State → Result}
    (h : s.answer = .ok →
      k (valOf (s.inp.next 1)) (s.called.advance 1) = k' (valOf (s.inp.next 1)) (s.called.advance 1)) :
    desTag s k = desTag s k' := by
  unfold desTag memRead
  cases ha : s.answer with
  | ok => simp only [h ha]
  | ioerr | never => rfl

/-- The first read of P_DESER shows the tag, and some other value than 1 where the read fails (log 18). -/
theorem peek_tag {b : Bool} (h : s.inp.has 1) (hbit : s.inp.next 1 = [b]) :
    s.peek 1 = some 1 ↔ s.answer = .ok ∧ b = true := by
  have hone : s.inp.pos + 1 ≤ s.inp.len := h
  unfold State.peek
  rw [if_pos hone, hbit]
  cases s.answer with
  | ok => cases b <;> simp [valOf]
  | ioerr | never => simp

/-- In P_DESER the token at the cursor means what the selected micro-operation does. -/
theorem exec_headerToken {b : Bool} (h : s.inp.has 1) (hbit : s.inp.next 1 = [b]) :
    exec (if s.peek 1 = some 1 then .desLeaf else .desInt) s =
      desTag s fun _ t => if b = true then desSymbol t else desOpen t := by
  split
  next hpeek =>
    obtain ⟨-, rfl⟩ := (peek_tag h hbit).1 hpeek
    exact desTag_congr fun _ => by rw [hbit]; rfl
  next hpeek =>
    refine desTag_congr fun ha => ?_
    have hzero : b = false := Bool.eq_false_iff.2 fun hb => hpeek ((peek_tag h hbit).2 ⟨ha, hb⟩)
    rw [hbit, hzero]
    rfl

/-- The core's turn is the token at the cursor: the phase selects the micro-operation that consumes it. -/
theorem coreStep_of_token (hw : s.waiting = false) (h : s.tokenAt = some i) : coreStep s = exec i s := by
  obtain ⟨pos, r, hpos, henc, hbits⟩ := ahead_of_tokenAt h
  have hexec : ∀ k, interpret i s k = k := fun _ => if_pos h
  rcases State.phase_of_tokenPos hpos with ⟨rfl, hp⟩ | ⟨rfl, hp, hincomplete⟩ | ⟨rfl, hp⟩
  · rw [coreStep_of_selects hw (select_rmagic hp)]
    cases i with
    | magic m => exact (hexec _).symm
    | _ => cases henc
  · rw [coreStep_of_selects hw (select_deser hp), if_pos hincomplete]
    cases i with
    | hdrInt =>
      obtain ⟨hhas, hbit⟩ := InChan.first_of_ahead hbits
      exact (exec_headerToken hhas hbit).trans (hexec _).symm
    | hdrLeaf sym =>
      obtain ⟨hhas, hbit⟩ := InChan.first_of_ahead hbits
      exact (exec_headerToken hhas hbit).trans (hexec _).symm
    | _ => cases henc
  · rw [coreStep_of_selects hw (select_decode hp)]
    cases i with
    | payBit b => exact (hexec _).symm
    | _ => cases henc

/-- A step on the core's turn, whether the turn is listed or the list is empty (log 12). -/
theorem step_of_turn {c : State}
    (h : s.moves = [] ∧ c = s ∨ ∃ ms, s.moves = .core :: ms ∧ c = { s with moves := ms }) :
    step s = coreStep c := by
  rcases h with ⟨hm, rfl⟩ | ⟨ms, hm, rfl⟩
  exacts [step_of_noMoves hm, step_of_moves hm]

/-- Settles O8: the step is the core's turn, which runs what the decoder selects and what stands at the cursor; a CR0
write is the command's meaning by definition. -/
theorem stepRunsTheDecodedInstruction : Obligations.StepRunsTheDecodedInstruction :=
  ⟨fun _ _ hturn hw =>
    ⟨fun _ hsel => (step_of_turn hturn).trans (coreStep_of_selects hw hsel),
      fun _ htoken => (step_of_turn hturn).trans (coreStep_of_token hw htoken)⟩,
    fun _ _ _ => step_of_command⟩

end Sys2Proof.Machine
end

section
/-! ## PROOFS: fault entry, failing channel calls and the hardware reset (spec/60_exceptions.md R214 to R223,
spec/70_reset_and_hazards.md R240) -/

namespace Sys2Proof.Machine

variable {s : State} {i : Instr} {info : Word}

/-! ### A failing call (R49, R214) -/

/-- `r` is E_IO of a read or rewind that fails in `s`: of the channels only the cursor and the answers may differ. -/
def FailsIn (info : Word) (s : State) (r : Result) : Prop :=
  ∃ t, r = .next t ∧
    t = { s with errcode := .eIo, ioinfo := info, phase := .fault, answers := s.answers.tail,
                 inp := { s.inp with pos := t.inp.pos }, draws := t.draws }

/-- `r` is E_IO of a write or close that fails in `s`: of the channels only OUT and the answers may differ. -/
def FailsOut (info : Word) (s : State) (r : Result) : Prop :=
  ∃ t, r = .next t ∧
    t = { s with errcode := .eIo, ioinfo := info, phase := .fault, answers := s.answers.tail,
                 out := t.out, draws := t.draws }

theorem memRead_fails {n : Nat} (k : Option Nat → State → Result) (ha : s.answer = .ioerr info) :
    FailsIn info s (memRead n s k) := ⟨_, memRead_ioerr k ha, rfl⟩

theorem rewind_fails (k : State → Result) (ha : s.answer = .ioerr info) : FailsIn info s (rewind s k) :=
  ⟨_, rewind_ioerr k ha, rfl⟩

theorem memWrite_fails {n v : Nat} (k : State → Result) (ha : s.answer = .ioerr info) :
    FailsOut info s (memWrite n v s k) := ⟨_, memWrite_ioerr k ha, rfl⟩

theorem closeOut_fails (k : State → Result) (ha : s.answer = .ioerr info) : FailsOut info s (closeOut s k) :=
  ⟨_, closeOut_ioerr k ha, rfl⟩

/-! ### The first call of a step -/

/-- These micro-operations begin with a read. -/
theorem exec_eq_memRead
    (hi : i ∈ [Instr.cntByte, .cntEnd, .encByte, .encEod, .rdMagic, .decBit] ∨
      (i = .desInt ∨ i = .desLeaf) ∧ s.nn ≠ 513) : ∃ n k, exec i s = memRead n s k := by
  rcases hi with hi | ⟨rfl | rfl, hnn⟩
  · simp only [List.mem_cons, List.not_mem_nil, or_false] at hi
    rcases hi with rfl | rfl | rfl | rfl | rfl | rfl
    · rw [exec, execCntByte]; exact ⟨_, _, rfl⟩
    · rw [exec, execCntEnd]; exact ⟨_, _, rfl⟩
    · rw [exec, execEncByte]; exact ⟨_, _, rfl⟩
    · rw [exec, execEncEod]; exact ⟨_, _, rfl⟩
    · rw [exec, execRdMagic, checkMagic]; exact ⟨_, _, rfl⟩
    · rw [exec, execDecBit, walkBit]; exact ⟨_, _, rfl⟩
  · exact ⟨_, _, show execDesInt s = _ from if_neg hnn⟩
  · exact ⟨_, _, show execDesLeaf s = _ from if_neg hnn⟩

/-- SER.INT and SER.LEAF begin with a write, after the pop of the node. -/
theorem exec_ser_eq_memWrite {n : Nat} {c : Option Code} {nd : Node} (htop : s.top = some { n := some n, code := c })
    (hn : s.nodeAt n = some nd) (hi : i = .serInt ∧ nd.kindBit = false ∨ i = .serLeaf ∧ nd.kindBit = true) :
    ∃ v k, exec i s = memWrite 1 v { s with sp := s.sp - 1 } k := by
  rcases hi with ⟨rfl, hkind⟩ | ⟨rfl, hkind⟩
  · rw [exec, execSerInt, pop_node htop hn]
    cases nd with
    | leaf => cases hkind
    | inner w l r q => exact ⟨_, _, rfl⟩
  · rw [exec, execSerLeaf, pop_node htop hn]
    cases nd with
    | leaf sym w q => exact ⟨_, _, rfl⟩
    | inner => cases hkind

/-- Settles O39: each micro-operation comes to its first call, and that call fails. -/
theorem firstCallFails : Obligations.FirstCallFails := by
  refine fun s info ha => ⟨fun i hi => ?_, fun i hi => ?_, fun i n c nd htop hn hi => ?_⟩
  · obtain ⟨n, k, heq⟩ := exec_eq_memRead hi
    rw [heq]
    exact memRead_fails k ha
  · simp only [List.mem_cons, List.not_mem_nil, or_false] at hi
    rcases hi with rfl | rfl
    · rw [exec, execWrMagic]
      exact memWrite_fails _ ha
    · rw [exec, execClose]
      exact closeOut_fails _ ha
  · obtain ⟨v, k, heq⟩ := exec_ser_eq_memWrite htop hn hi
    have hpopped : State.answer { s with sp := s.sp - 1 } = .ioerr info := ha
    rw [heq]
    exact memWrite_fails k hpopped

/-! ### The second call of a step (R223) -/

section SecondCall

variable (ha : s.answer = .ok) (hb : s.called.answer = .ioerr info)
include ha hb

theorem cntEnd_second_fails (hend : ¬ s.inp.has 8) : FailsIn info (s.called.setFreq 256 1) (exec .cntEnd s) := by
  rw [exec, execCntEnd, memRead_eos _ ha hend]
  exact rewind_fails _ hb

theorem encEod_second_fails (hend : ¬ s.inp.has 8) : FailsOut info s.called (exec .encEod s) := by
  rw [exec, execEncEod, memRead_eos _ ha hend]
  exact memWrite_fails _ hb

theorem encByte_second_fails (h : s.inp.has 8) (hcode : (s.codeAt (valOf (s.inp.next 8))).len ≠ 0) :
    FailsOut info (s.called.advance 8) (exec .encByte s) := by
  have hcode : ((s.called.advance 8).codeAt (valOf (s.inp.next 8))).len ≠ 0 := hcode
  rw [exec, execEncByte, memRead_bits _ ha h]
  dsimp only
  rw [if_neg hcode]
  exact memWrite_fails _ hb

/-- The node is popped, and its tag bit written, when the write of the symbol fails. -/
theorem serLeaf_second_fails {n : Nat} {c : Option Code} {sym : Sym} {w : Nat} {q : Bool}
    (htop : s.top = some { n := some n, code := c }) (hn : s.nodeAt n = some (.leaf sym w q)) :
    FailsOut info { s.called.append [true] with sp := s.sp - 1 } (exec .serLeaf s) := by
  have hpopped : State.answer { s with sp := s.sp - 1 } = .ok := ha
  have htagged : State.answer { s.called.append [true] with sp := s.sp - 1 } = .ioerr info := hb
  rw [exec, execSerLeaf, pop_node htop hn]
  dsimp only
  rw [memWrite_ok _ hpopped]
  exact memWrite_fails _ htagged

theorem desLeaf_second_fails (hnn : s.nn ≠ 513) (h : s.inp.has 1) (hbit : s.inp.next 1 = [true]) :
    FailsIn info (s.called.advance 1) (exec .desLeaf s) := by
  rw [exec, execDesLeaf_tag ha hnn h hbit, desSymbol]
  exact memRead_fails _ hb

/-- The walk has already arrived at the leaf when the write of its byte fails. -/
theorem decBit_second_fails {b : Bool} {c w l r m : Nat} {q : Bool} {sym : Sym} {w' : Nat} {q' : Bool}
    (h : s.inp.has 1) (hbit : s.inp.next 1 = [b]) (hcur : s.cur = some c)
    (hn : s.nodeAt c = some (.inner w (some l) (some r) q)) (hm : m = if b then r else l)
    (hleaf : s.nodeAt m = some (.leaf sym w' q')) (hsym : sym.toNat ≤ 255) :
    FailsOut info (s.called.walked 1 m) (exec .decBit s) := by
  have hlit : sym.toNat ≠ Config.eod := (Nat.lt_succ_of_le hsym).ne
  have hleaf : (s.called.walked 1 m).nodeAt m = some (.leaf sym w' q') := hleaf
  have hcur' : (s.called.walked 1 m).cur = some m := rfl
  rw [exec, execDecBit, walkBit_bit ha h hbit hcur hn, ← hm, arrive, hcur', withNode_ok _ hleaf]
  dsimp only
  rw [if_neg hlit]
  exact memWrite_fails _ hb

end SecondCall

/-- Settles O40: each step comes to its second call in the state that the first has left, and that call fails. -/
theorem secondCallFails : Obligations.SecondCallFails := by
  refine fun s info ha hb => ⟨fun hend => ?_, encByte_second_fails ha hb,
    fun n c sym w q => serLeaf_second_fails ha hb, desLeaf_second_fails ha hb,
    fun b c w l r q m sym w' q' => decBit_second_fails ha hb⟩
  have hend : ¬ s.inp.has 8 := Nat.not_le.2 hend
  obtain ⟨t, hexec, ht⟩ := cntEnd_second_fails ha hb hend
  refine ⟨⟨t, hexec, ?_, fun i => ?_⟩, encEod_second_fails ha hb hend⟩
  · rw [ht]
    rfl
  · rw [ht]
    exact (State.freqAt_setFreq s.called one_ne_zero i).trans (if_congr eq_comm rfl rfl)

/-! ### Fault entry (R220) -/

/-- STATUS in P_FAULT: BUSY 0, DONE 0, ERR 1. -/
theorem statusWord_of_fault (h : s.phase = .fault) :
    s.statusWord.getLsbD 0 = false ∧ s.statusWord.getLsbD 1 = false ∧ s.statusWord.getLsbD 2 = true := by
  obtain ⟨hbusy, hdone, herr, -⟩ := statusWordFields.1 s
  rw [hbusy, hdone, herr, h]
  decide

/-- Settles O15: P_FAULT is quiescent, and each call fails by one equation. -/
theorem faultEntry : Obligations.FaultEntry := by
  refine ⟨fun c info s => ⟨_, raise_eq c info s, rfl, ?_⟩, fun s info ha =>
    ⟨fun n k => ⟨_, memRead_ioerr k ha, rfl⟩, fun n v k => ⟨_, memWrite_ioerr k ha, rfl⟩,
      fun k => ⟨_, rewind_ioerr k ha, rfl⟩, fun k => ⟨_, closeOut_ioerr k ha, rfl⟩⟩⟩
  obtain ⟨hbusy, hdone, herr⟩ := statusWord_of_fault
    (s := { s with errcode := c, ioinfo := if c = .eIo then info else s.ioinfo, phase := .fault }) rfl
  exact ⟨hbusy, hdone, herr, quiescentStays _ (.inr (.inr rfl))⟩

/-! ### The hardware reset (R240) -/

theorem statusWord_of_idle (hp : s.phase = .idle) (he : s.errcode = .eNone) : s.statusWord = 0 := by
  rw [State.statusWord, State.busy, State.doneBit, State.errBit, hp, he]
  rfl

/-- Settles O10: the move is `hardReset`, which writes the core's own registers and makes no call. -/
theorem hardwareReset : Obligations.HardwareReset := fun _ _ hm =>
  ⟨_, step_of_moves hm, rfl, rfl, rfl, statusWord_of_idle rfl rfl, rfl, rfl, rfl, rfl, rfl, rfl⟩

end Sys2Proof.Machine
end
